-- ==== Sys2Proof/Word.lean ====
section
/-! DEFINITION. The widths of the block's words (spec/00_scope.md R9, R10; 30_encoding.md R90; 20_memory.md R65). -/

namespace Sys2Proof

/-- A byte of IN or OUT, and the operand of the form-B commands (R91, R11). -/
abbrev Byte := BitVec 8

/-- A command word: OPC in bits 15..8, IMM8 in bits 7..0 (R90). -/
abbrev CmdWord := BitVec 16

/-- A read-port address (R65). -/
abbrev Addr := BitVec 32

/-- A read-port datum, and the width of the u_64 registers (R65, 10_state.md). -/
abbrev Word64 := BitVec 64

/-- A bit string: a finite list of bits, first bit first (R10). -/
abbrev BitString := List Bool

end Sys2Proof
end

