-- ==== Sys2Proof/Config.lean ====
section
/-! DEFINITION. The instance parameters the spec leaves OPEN (spec/00_scope.md R6; 93_implementation_defined.md ID1, ID3 to
ID6). Their values in `State.reset` and what is derived from them stand in Machine/Instance.lean. -/

namespace Sys2Proof

/-- SCALE_MODE: the arithmetic of interval narrowing (R6, R185). -/
inductive ScaleMode where
  | float64
  | integer
  deriving DecidableEq, Repr

/-- LEAF_ORDER: the order in which Huffman leaves take sequence numbers (R6, R225). -/
inductive LeafOrder where
  | firstOccurrence
  | ascendingValue
  deriving DecidableEq, Repr

/-- The OPEN parameters of one instance (R6). They never change while the block runs (R8). -/
structure Params where
  /-- IN_CAP, the capacity of IN in bytes -/
  inCap : Nat
  scaleMode : ScaleMode
  /-- SCAN_FLOOR, the lowest bit the secondary-shift scan examines -/
  scanFloor : Fin 2
  leafOrder : LeafOrder
  /-- SINGLE_CODE, the code bit of the only value of a one-value input -/
  singleCode : Bool
  deriving DecidableEq, Repr

/-- The legal range of IN_CAP (R6); every value of the other parameters' types is legal. -/
abbrev Params.Legal (p : Params) : Prop := 1 ≤ p.inCap ∧ p.inCap ≤ 2 ^ 25 - 1

end Sys2Proof
end

