-- ==== Sys2Proof/Syntax.lean ====
section
/-! DEFINITION. The 19 commands of the opcode table (spec/30_encoding.md R93), one constructor per row. -/

namespace Sys2Proof

/-- A command with its operand. Form-N commands carry none (R91). -/
inductive Instr where
  | nop
  | clrErr
  | softReset
  | inClear
  /-- form B: the byte to append -/
  | inPush (b : Byte)
  | sinkInit
  /-- form T: IMM8, whose bit 0 is the bit to write and whose bits 7..1 must be 0 (R91, R94) -/
  | sinkWrite (x : Byte)
  | univBegin
  | univStep (b : Byte)
  | univEncode
  /-- form W: the window width, 0..255 all encodable (R91) -/
  | arithConfig (w : Byte)
  | arithBegin
  | arithStep (b : Byte)
  | arithEncode
  | huffBegin
  | huffCount (b : Byte)
  | huffBuild
  | huffEmit (b : Byte)
  | huffEncode
  deriving DecidableEq, Repr

end Sys2Proof
end

