-- ==== Sys2Proof/WellFormed.lean ====
section
/-! DEFINITION. Which commands have an encoding (spec/30_encoding.md R91, R94). Every byte is a legal operand of forms B and
W. The one check left is form T's: bits 7..1 of IMM8 are 0. -/

namespace Sys2Proof

/-- Form T's reserved immediate bits 7..1 are 0 (R94). -/
def bitOperandLegal (x : Byte) : Bool := x &&& 0xFE#8 == 0#8

/-- The command's operand keeps its form (R91, R94). -/
def Instr.wellFormed : Instr → Bool
  | .sinkWrite x => bitOperandLegal x
  | .nop | .clrErr | .softReset | .inClear | .inPush _ | .sinkInit => true
  | .univBegin | .univStep _ | .univEncode => true
  | .arithConfig _ | .arithBegin | .arithStep _ | .arithEncode => true
  | .huffBegin | .huffCount _ | .huffBuild | .huffEmit _ | .huffEncode => true

end Sys2Proof
end

