-- ==== Sys2Proof/Decode.lean ====
section
/-! DEFINITION. Command decoding and encoding (spec/30_encoding.md R90 to R97, R102). -/

namespace Sys2Proof

/-- The OPC field, bits 15..8 (R90). -/
def opcField (w : CmdWord) : Byte := w.extractLsb' 8 8

/-- The IMM8 field, bits 7..0 (R90). -/
def immField (w : CmdWord) : Byte := w.extractLsb' 0 8

/-- One row of the opcode map (R93): a word `w` is the row's command iff `w &&& mask = pattern`; `build` makes the command
from IMM8. -/
structure OpcodeRow where
  mnemonic : String
  mask : CmdWord
  pattern : CmdWord
  build : Byte → Instr

/-- A row accepts a word (R93). -/
def OpcodeRow.accepts (r : OpcodeRow) (w : CmdWord) : Bool := w &&& r.mask == r.pattern

/-- Rows of the host, sink and universal commands (R93). -/
def opcodeRowsA : List OpcodeRow := [
  ⟨"NOP", 0xFFFF#16, 0x0000#16, fun _ => .nop⟩,
  ⟨"CLR_ERR", 0xFFFF#16, 0x0100#16, fun _ => .clrErr⟩,
  ⟨"SOFT_RESET", 0xFFFF#16, 0x0200#16, fun _ => .softReset⟩,
  ⟨"IN_CLEAR", 0xFFFF#16, 0x0800#16, fun _ => .inClear⟩,
  ⟨"IN_PUSH", 0xFF00#16, 0x0900#16, .inPush⟩,
  ⟨"SINK_INIT", 0xFFFF#16, 0x1000#16, fun _ => .sinkInit⟩,
  ⟨"SINK_WRITE", 0xFFFE#16, 0x1100#16, .sinkWrite⟩,
  ⟨"UNIV_BEGIN", 0xFFFF#16, 0x2000#16, fun _ => .univBegin⟩,
  ⟨"UNIV_STEP", 0xFF00#16, 0x2100#16, .univStep⟩,
  ⟨"UNIV_ENCODE", 0xFFFF#16, 0x2200#16, fun _ => .univEncode⟩]

/-- Rows of the arithmetic and Huffman commands (R93). -/
def opcodeRowsB : List OpcodeRow := [
  ⟨"ARITH_CONFIG", 0xFF00#16, 0x3000#16, .arithConfig⟩,
  ⟨"ARITH_BEGIN", 0xFFFF#16, 0x3100#16, fun _ => .arithBegin⟩,
  ⟨"ARITH_STEP", 0xFF00#16, 0x3200#16, .arithStep⟩,
  ⟨"ARITH_ENCODE", 0xFFFF#16, 0x3300#16, fun _ => .arithEncode⟩,
  ⟨"HUFF_BEGIN", 0xFFFF#16, 0x4000#16, fun _ => .huffBegin⟩,
  ⟨"HUFF_COUNT", 0xFF00#16, 0x4100#16, .huffCount⟩,
  ⟨"HUFF_BUILD", 0xFFFF#16, 0x4200#16, fun _ => .huffBuild⟩,
  ⟨"HUFF_EMIT", 0xFF00#16, 0x4300#16, .huffEmit⟩,
  ⟨"HUFF_ENCODE", 0xFFFF#16, 0x4400#16, fun _ => .huffEncode⟩]

/-- The opcode map (R93). -/
def opcodeTable : List OpcodeRow := opcodeRowsA ++ opcodeRowsB

/-- Why a word is ILLEGAL. -/
inductive Illegal where
  /-- the OPC is in no row (R95) -/
  | reservedOpcode (opc : Byte)
  /-- the OPC is assigned but IMM8 breaks its form (R94) -/
  | malformedImmediate (opc imm : Byte)
  deriving DecidableEq, Repr

/-- What a word decodes to (R92). -/
inductive Decoded where
  | command (i : Instr)
  | illegal (why : Illegal)
  deriving DecidableEq, Repr

/-- R94 and R95: the name of an ILLEGAL word's reason. -/
def illegalReason (w : CmdWord) : Illegal :=
  if opcodeTable.any (fun r => opcField r.pattern == opcField w) then
    .malformedImmediate (opcField w) (immField w)
  else .reservedOpcode (opcField w)

/-- R92: the command of the row that accepts `w`, ILLEGAL when none does. -/
def decode (w : CmdWord) : Decoded :=
  match opcodeTable.find? (fun r => r.accepts w) with
  | some r => .command (r.build (immField w))
  | none => .illegal (illegalReason w)

/-- The command's OPC (R93). -/
def Instr.opc : Instr → Byte
  | .nop => 0x00#8
  | .clrErr => 0x01#8
  | .softReset => 0x02#8
  | .inClear => 0x08#8
  | .inPush _ => 0x09#8
  | .sinkInit => 0x10#8
  | .sinkWrite _ => 0x11#8
  | .univBegin => 0x20#8
  | .univStep _ => 0x21#8
  | .univEncode => 0x22#8
  | .arithConfig _ => 0x30#8
  | .arithBegin => 0x31#8
  | .arithStep _ => 0x32#8
  | .arithEncode => 0x33#8
  | .huffBegin => 0x40#8
  | .huffCount _ => 0x41#8
  | .huffBuild => 0x42#8
  | .huffEmit _ => 0x43#8
  | .huffEncode => 0x44#8

/-- The command's IMM8: its operand, 0x00 for form N (R91). -/
def Instr.imm : Instr → Byte
  | .inPush b | .univStep b | .arithStep b | .huffCount b | .huffEmit b => b
  | .sinkWrite x => x
  | .arithConfig w => w
  | .nop | .clrErr | .softReset | .inClear | .sinkInit | .univBegin | .univEncode => 0x00#8
  | .arithBegin | .arithEncode | .huffBegin | .huffBuild | .huffEncode => 0x00#8

/-- The command word: OPC high, IMM8 low (R90). -/
def encode (i : Instr) : CmdWord := i.opc ++ i.imm

/-- R102: a stored command stream holds each word's OPC byte first, then IMM8. -/
def wordBytes (w : CmdWord) : List Byte := [opcField w, immField w]

/-- R102 read back: a stream of bytes as command words, none when a byte is left over. -/
def bytesToWords : List Byte → Option (List CmdWord)
  | [] => some []
  | [_] => none
  | hi :: lo :: rest => (bytesToWords rest).map (fun ws => (hi ++ lo) :: ws)

/-- A word of the opcode table's numbering as the block receives it: bits above `nbits` are 0. -/
def tableWord (nbits w : Nat) : CmdWord := BitVec.ofNat 16 (w % 2 ^ nbits)

/-- The command the decoder reads from a word numbered as spec/opcode_table.json numbers it; a command is one 16-bit word,
so no row is longer (R90). -/
def decodeTableWord (nbits w : Nat) : Option Instr :=
  if nbits ≤ 16 then
    match decode (tableWord nbits w) with
    | .command i => some i
    | .illegal _ => none
  else none

end Sys2Proof
end

