-- ==== Sys2Proof/Machine/Binary64.lean ====
section
/-! DEFINITION. The binary64 operations of FLOAT64 scaling (spec/43_arithmetic.md R186; 93_implementation_defined.md GK1): each
result is the binary64 value nearest to the exact one, ties to even. Log 10 names what is left out: overflow, NaN and the
sign of zero, none of which R186's operands reach or its `floor` shows. -/

namespace Sys2Proof.Machine

/-- A finite binary64 value, mant · 2^exp with |mant| ≤ 2^53. -/
structure Binary64 where
  mant : Int
  exp : Int
  deriving DecidableEq, Repr

/-- num / den rounded to the nearest integer, ties to even (den > 0). -/
def roundTiesEven (num den : Nat) : Nat :=
  let q := num / den
  let r := num % den
  if den < 2 * r ∨ (2 * r = den ∧ q % 2 = 1) then q + 1 else q

/-- The integer L with 2^L ≤ num / den < 2^(L+1) (num, den > 0). -/
def quotLog2 (num den : Nat) : Int :=
  let l : Int := (num.log2 : Int) - (den.log2 : Int)
  if den * 2 ^ l.toNat ≤ num * 2 ^ (-l).toNat then l else l - 1

/-- The binary64 value nearest to num / den, negated when `neg`: 53 significant bits, exponents from the subnormal −1074 up. -/
def nearest (neg : Bool) (num den : Nat) : Binary64 :=
  if num = 0 then ⟨0, 0⟩
  else
    let e := max (quotLog2 num den - 52) (-1074)
    let m : Int := roundTiesEven (num * 2 ^ (-e).toNat) (den * 2 ^ e.toNat)
    ⟨if neg then -m else m, e⟩

/-- `fdiv(a, b)` of naturals: binary64 nearest to the exact quotient (R186). -/
def fdiv (a b : Nat) : Binary64 := nearest false a b

/-- `tofloat(R)`: binary64 nearest to an integer (R186). -/
def toFloat (r : Int) : Binary64 := nearest (decide (r < 0)) r.natAbs 1

/-- `fmul(x, y)`: binary64 nearest to the exact product (R186). -/
def fmul (x y : Binary64) : Binary64 :=
  let m := x.mant * y.mant
  let e := x.exp + y.exp
  nearest (decide (m < 0)) (m.natAbs * 2 ^ e.toNat) (2 ^ (-e).toNat)

/-- `floor` of a finite binary64 value, an exact integer (R186). -/
def floorFloat (x : Binary64) : Int := (x.mant * 2 ^ x.exp.toNat).fdiv (2 ^ (-x.exp).toNat)

end Sys2Proof.Machine
end

