-- ==== Sys2Proof/Machine/Instance.lean ====
section
/-! DEFINITION. The parameters derived from an instance's OPEN ones, and the instance `State.reset` is built with
(spec/00_scope.md R6). -/

namespace Sys2Proof.Machine

/-- W_MAX, the largest window width (R6, decided D4). -/
def wMax : Nat := 64

/-- OUT_CAP = 8·IN_CAP + 1 (R6, decided D5). -/
def outCap (p : Params) : Nat := 8 * p.inCap + 1

/-- SYM_MAX = IN_CAP (R6, decided D6). -/
def symMax (p : Params) : Nat := p.inCap

/-- The instance of `State.reset`: R6's defaults, and IN_CAP, for which R6 has none, at 16.
DESIGN CHOICE (log 2), unsafe: a proof about `State.reset` can lean on 16. -/
def resetParams : Params where
  inCap := 16
  scaleMode := .float64
  scanFloor := 0
  leafOrder := .firstOccurrence
  singleCode := false

end Sys2Proof.Machine
end

