-- ==== Sys2Proof/Machine/State.lean ====
section
/-! DEFINITION. The architectural state (spec/10_state.md R20 to R45), its reset value (R43) and the reasons a step can stop.
State is plain data. -/

namespace Sys2Proof.Machine

/-- The live session (R22). The register's values 6 and 7 are never held. -/
inductive Session where
  | none
  | sink
  | univ
  | arith
  | huffHist
  | huffEmit
  deriving DecidableEq, Repr

/-- STATUS (R23). Its reserved bits [7:4] and [63:17] read 0 and hold no state. -/
structure Status where
  /-- ERR, bits [3:0] -/
  err : BitVec 4
  /-- ERR_OP, bits [15:8] -/
  errOp : Byte
  /-- DEGEN, bit [16] -/
  degen : Bool
  deriving DecidableEq, Repr

/-- The bytes behind a buffer: cells in strictly rising address order, none holding what an unlisted address reads as. -/
structure Memory where
  cells : List Host.Cell
  deriving DecidableEq, Repr

/-- A table indexed by a byte value or a rank 0..255 (R62). -/
abbrev Table (α : Type) := Vector α 256

/-- The input buffer IN with IN_LEN (R27). -/
structure InBuf where
  mem : Memory
  len : Word64
  deriving DecidableEq, Repr

/-- The output state shared by the four units: OUT, OUT_LEN, BITS, BYTE_OFF, BIT_OFF (R28 to R31). -/
structure OutBuf where
  mem : Memory
  len : Word64
  bits : Word64
  byteOff : Word64
  bitOff : BitVec 3
  deriving DecidableEq, Repr

/-- The arithmetic encoder's state: LOW, HIGH, FREQ (R35, R36). -/
structure Arith where
  low : Word64
  high : Word64
  freq : Table Word64
  deriving DecidableEq, Repr

/-- The Huffman encoder's state: HIST, ORDER, HUFF_M, CLEN, CODE (R37 to R40). -/
structure Huff where
  hist : Table Word64
  order : Table Byte
  m : BitVec 9
  clen : Table (BitVec 9)
  code : Table BitString
  deriving DecidableEq, Repr

/-- What the host does next: it sends a command word, reads the read port, or asserts reset (R65, R72, R290, R297). -/
inductive HostEvent where
  | word (w : CmdWord)
  | read (a : Addr)
  | reset
  deriving DecidableEq, Repr

/-- The host's side of the ports. DESIGN CHOICE (log 3, 5): the model's own fields, no state of the block. -/
structure HostSide where
  /-- what the host does next, first first -/
  pending : List HostEvent
  /-- the data the read port has returned, oldest first -/
  replies : List Word64
  deriving DecidableEq, Repr

/-- The state of one instance (10_state.md R22 to R42). -/
structure State where
  /-- the PARAM registers' constants (R42) -/
  params : Params
  status : Status
  session : Session
  input : InBuf
  out : OutBuf
  /-- NSYM (R33) -/
  nsym : Word64
  /-- ARITH_W (R34) -/
  arithW : BitVec 8
  ari : Arith
  huf : Huff
  host : HostSide
  deriving DecidableEq, Repr

/-- The state after reset of an instance with parameters `p` whose host side is `h` (R43, R290). -/
def State.initial (p : Params) (h : HostSide) : State where
  params := p
  status := ⟨0#4, 0#8, false⟩
  session := .none
  input := ⟨⟨[]⟩, 0#64⟩
  out := { mem := ⟨[]⟩, len := 0#64, bits := 0#64, byteOff := 0#64, bitOff := 7#3 }
  nsym := 0#64
  arithW := 0#8
  ari := ⟨0#64, 0#64, Vector.replicate 256 0#64⟩
  huf := { hist := Vector.replicate 256 0#64, order := Vector.replicate 256 0#8, m := 0#9,
           clen := Vector.replicate 256 0#9, code := Vector.replicate 256 [] }
  host := h

/-- The machine right after reset (R43), with the parameters of Machine/Instance.lean and a host that has sent nothing. -/
def State.reset : State := State.initial resetParams ⟨[], []⟩

/-- Why the machine would stop with a fault: there is no reason. The block has no traps, and an error is recorded in STATUS
and leaves a next state (60_exceptions.md R260, R262). DEDUCED (log 14), safe. -/
inductive Fault where
  deriving DecidableEq, Repr

/-- Why an instruction is refused. -/
inductive Refusal where
  /-- raised by an arm of `exec` whose instruction has no meaning yet; safe (the machine stops) -/
  | notModelled (mnemonic : String)
  deriving DecidableEq, Repr

/-- What a step answers. -/
abbrev Result := Host.Outcome State Fault Refusal

end Sys2Proof.Machine
end

