-- ==== Sys2Proof/Machine/Operands.lean ====
section
/-! DEFINITION. The operand forms (spec/30_encoding.md R91): the immediate is zero-extended, never signed, scaled or a register. -/

namespace Sys2Proof.Machine

/-- Form T: the bit is w[0] (R91, R148). -/
def bitOperand (x : Byte) : Bool := x.getLsbD 0

/-- Form W: the window width as a number 0..255 (R91, R181). -/
def widthOperand (w : Byte) : Nat := w.toNat

/-- `zeros(n)`: n zero bits (R10). -/
def zeros (n : Nat) : BitString := List.replicate n false

/-- `bin(x, w)`: the w-bit binary representation of x, most significant bit first (R10). -/
def bin (x w : Nat) : BitString := (List.range w).map (fun j => x.testBit (w - 1 - j))

end Sys2Proof.Machine
end

