-- ==== Sys2Proof/Machine/Flags.lean ====
section
/-! DEFINITION. STATUS: the error codes, its fields' rules and its word (spec/10_state.md R23 to R26, 60_exceptions.md R261). -/

namespace Sys2Proof.Machine

/-- The errors a command can raise (R261). -/
inductive ErrCode where
  | illegal
  | config
  | sequence
  | symLimit
  | noCode
  | inFull
  | outFull
  deriving DecidableEq, Repr

/-- The value STATUS.ERR holds (R261). -/
def errValue : ErrCode → BitVec 4
  | .illegal => 1#4
  | .config => 2#4
  | .sequence => 3#4
  | .symLimit => 4#4
  | .noCode => 5#4
  | .inFull => 6#4
  | .outFull => 7#4

/-- R262: ERR and ERR_OP record an error; DEGEN keeps its value (R268). -/
def statusRecord (code : ErrCode) (opc : Byte) (t : Status) : Status :=
  { t with err := errValue code, errOp := opc }

/-- R121: ERR and ERR_OP are cleared; DEGEN keeps its value. -/
def statusClear (t : Status) : Status := { t with err := 0#4, errOp := 0#8 }

/-- R182: a new arithmetic session clears DEGEN. -/
def degenClear (t : Status) : Status := { t with degen := false }

/-- R189, R195: a degenerate step sets DEGEN, no step clears it. -/
def degenUpdate (degenerate : Bool) (t : Status) : Status := { t with degen := t.degen || degenerate }

/-- Lockout: STATUS.ERR ≠ 0 (R264). -/
def lockedOut (t : Status) : Bool := t.err != 0#4

/-- The STATUS word (R23): DEGEN in bit 16, ERR_OP in bits 15..8, ERR in bits 3..0, the other bits 0. -/
def statusWord (t : Status) : Word64 :=
  (0#47 ++ BitVec.ofBool t.degen ++ t.errOp ++ 0#4 ++ t.err : BitVec 64)

/-- The SESSION register's value (R22). -/
def sessionValue : Session → BitVec 3
  | .none => 0#3
  | .sink => 1#3
  | .univ => 2#3
  | .arith => 3#3
  | .huffHist => 4#3
  | .huffEmit => 5#3

end Sys2Proof.Machine
end

