-- ==== Sys2Proof/Machine/Ops.lean ====
section
/-! DEFINITION. The named operations over memory, tables, the bit sink and the packer, how a command ends, and the shared
error operations (spec/41_bit_sink.md R140 to R143, 44_huffman.md R221, R222, 60_exceptions.md R262, R265, R267). -/

namespace Sys2Proof.Machine

/-! ## Memory -/

/-- What a byte of storage that nothing has written holds. DESIGN CHOICE (log 7), safe: no rule lets it be observed. -/
def unlistedByte : Byte := 0#8

/-- Storage with no byte written. -/
def Memory.empty : Memory := ⟨[]⟩

/-- The byte at an address of a cell list. -/
def readCells : List Host.Cell → Nat → Byte
  | [], _ => unlistedByte
  | (k, x) :: rest, a => if k = a then x else readCells rest a

/-- A cell put in front, unless it holds what an unlisted address reads as. -/
def consCell (a : Nat) (v : Byte) (rest : List Host.Cell) : List Host.Cell :=
  if v = unlistedByte then rest else (a, v) :: rest

/-- A byte written into a cell list, in address order. -/
def writeCells : List Host.Cell → Nat → Byte → List Host.Cell
  | [], a, v => consCell a v []
  | (k, x) :: rest, a, v =>
    if a < k then consCell a v ((k, x) :: rest)
    else if a = k then consCell a v rest
    else (k, x) :: writeCells rest a v

/-- The byte at an address. -/
def Memory.read (m : Memory) (a : Nat) : Byte := readCells m.cells a

/-- One byte written. -/
def Memory.write (m : Memory) (a : Nat) (v : Byte) : Memory := ⟨writeCells m.cells a v⟩

/-- The canonical form: addresses strictly rising, no cell holding what an unlisted address reads as. -/
abbrev Memory.wf (m : Memory) : Prop :=
  m.cells.Pairwise (fun c d => c.1 < d.1) ∧ ∀ c ∈ m.cells, c.2 ≠ unlistedByte

/-- `X[i] <- X[i] | (1 << j)` (R11, R141). -/
def Memory.setBit (m : Memory) (i j : Nat) : Memory := m.write i (m.read i ||| 1#8 <<< j)

/-! ## Tables -/

/-- The entry of a byte value. -/
def tableGet {α : Type} (t : Table α) (b : Byte) : α := t[b.toNat]'b.isLt

/-- The entry of a byte value written. -/
def tableSet {α : Type} (t : Table α) (b : Byte) (x : α) : Table α := t.set b.toNat x b.isLt

/-- A table with every entry alike. -/
def tableAll {α : Type} (x : α) : Table α := Vector.replicate 256 x

/-! ## The bit sink (41_bit_sink.md) -/

/-- `append(OUT, 0x00) ; OUT_LEN <- OUT_LEN + 1` (R11, R141). -/
def appendZero (o : OutBuf) : OutBuf :=
  { o with mem := o.mem.write o.len.toNat 0x00#8, len := o.len + 1 }

/-- An empty output: OUT = [], BITS = 0, cursor (0, 7) (R223). -/
def packInit : OutBuf := { mem := Memory.empty, len := 0, bits := 0, byteOff := 0, bitOff := 7 }

/-- `sink_init()`: OUT = [0x00], BITS = 0, cursor (0, 7) (R140). -/
def sinkInit : OutBuf := appendZero packInit

/-- The OR of a 1 bit into the byte at the cursor; a 0 bit changes no byte (R141, R145). -/
def sinkOrBit (x : Bool) (o : OutBuf) : OutBuf :=
  if x then { o with mem := o.mem.setBit o.byteOff.toNat o.bitOff.toNat } else o

/-- The cursor one bit on; leaving a byte appends the next zero byte at once (R141). -/
def sinkAdvance (o : OutBuf) : OutBuf :=
  if o.bitOff = 0 then
    appendZero { o with bits := o.bits + 1, byteOff := o.byteOff + 1, bitOff := 7 }
  else { o with bits := o.bits + 1, bitOff := o.bitOff - 1 }

/-- `sink_write_bit(x)` (R141). -/
def sinkWriteBit (x : Bool) (o : OutBuf) : OutBuf := sinkAdvance (sinkOrBit x o)

/-- `sink_write_bits(s)`: the bits in string order (R143). -/
def sinkWriteBits (s : BitString) (o : OutBuf) : OutBuf := s.foldl (fun o x => sinkWriteBit x o) o

/-- `sink_fits(e)` (R142). -/
def sinkFits (p : Params) (o : OutBuf) (e : Nat) : Bool := (o.bits.toNat + e) / 8 + 1 ≤ outCap p

/-! ## The packer (44_huffman.md) -/

/-- The first step of `pack_bit`: a new group's byte is opened (R221). -/
def packOpen (o : OutBuf) : OutBuf := if o.bits.toNat % 8 = 0 then appendZero o else o

/-- The OR of a 1 bit into the group's byte, first bit of a group in bit 7 (R221, R63). -/
def packOrBit (x : Bool) (o : OutBuf) : OutBuf :=
  if x then { o with mem := o.mem.setBit (o.bits.toNat / 8) (7 - o.bits.toNat % 8) } else o

/-- BITS advances and the cursor follows it (R221). -/
def packAdvance (o : OutBuf) : OutBuf :=
  { o with
    bits := o.bits + 1
    byteOff := BitVec.ofNat 64 ((o.bits + 1).toNat / 8)
    bitOff := BitVec.ofNat 3 (7 - (o.bits + 1).toNat % 8) }

/-- `pack_bit(x)` (R221). -/
def packBit (x : Bool) (o : OutBuf) : OutBuf := packAdvance (packOrBit x (packOpen o))

/-- Bits packed in string order (R233). -/
def packBits (s : BitString) (o : OutBuf) : OutBuf := s.foldl (fun o x => packBit x o) o

/-- `pack_fits(e)` (R222): ceil((BITS + e) / 8) ≤ OUT_CAP. -/
def packFits (p : Params) (o : OutBuf) (e : Nat) : Bool := (o.bits.toNat + e + 7) / 8 ≤ outCap p

/-! ## Sessions and the input buffer -/

/-- What every session-opening command does: a fresh output, NSYM = 0, the session's name (R22, R31, R33). -/
def openSession (n : Session) (o : OutBuf) (s : State) : State :=
  { s with out := o, nsym := 0, session := n }

/-- NSYM = SYM_MAX (R261, code 4). -/
def symbolsExhausted (s : State) : Bool := s.nsym.toNat == symMax s.params

/-- The bytes IN[0] to IN[IN_LEN−1] in increasing order (R60). -/
def inputBytes (i : InBuf) : List Byte := (List.range i.len.toNat).map i.mem.read

/-- The bytes OUT[0] to OUT[OUT_LEN−1] in increasing order (R61). -/
def outputBytes (o : OutBuf) : List Byte := (List.range o.len.toNat).map o.mem.read

/-! ## How a command ends -/

/-- The end of a command's pseudocode: it ran to completion, or it reached `raise Error(code)` with the state it leaves but
for STATUS (R262). -/
inductive CmdResult where
  | done (s : State)
  | raised (code : ErrCode) (s : State)
  deriving DecidableEq, Repr

/-- The next part of a command, unless an error ended it (R262). -/
def CmdResult.andThen (r : CmdResult) (k : State → CmdResult) : CmdResult :=
  match r with
  | .done s => k s
  | .raised code s => .raised code s

/-- `for` each byte in order, ending at the first error; the sub-steps before it keep their effects (R267). -/
def forEach (f : Byte → State → CmdResult) : List Byte → State → CmdResult
  | [], s => .done s
  | b :: bs, s => (f b s).andThen (forEach f bs)

/-- `raise Error(code)`: the error is recorded with the command's OPC and nothing else changes (R262). -/
def raiseError (code : ErrCode) (opc : Byte) (s : State) : State :=
  { s with status := statusRecord code opc s.status }

/-- Leaving lockout: ERR and ERR_OP are 0 again and the rest stays (R121, R265). -/
def clearError (s : State) : State := { s with status := statusClear s.status }

/-- Every piece of the block's state at its reset value; the parameters are constants and the host is outside the block
(R43, R122, R290). -/
def resetBlock (s : State) : State := State.initial s.params s.host

/-- A command's end as a step's outcome. `opc` is the OPC of the word the command came from, a composite's for its sub-steps
(R262, R267). -/
def finish (opc : Byte) (r : CmdResult) : Result :=
  match r with
  | .done s => .next s
  | .raised code s => .next (raiseError code opc s)

end Sys2Proof.Machine
end

