-- ==== Sys2Proof/Machine/Arithmetic.lean ====
section
/-! DEFINITION. The adaptive arithmetic encoder (spec/43_arithmetic.md R180 to R196). -/

namespace Sys2Proof.Machine

/-! ## Configuration and session start -/

/-- ARITH_CONFIG W's pseudocode (R181): a width out of range leaves the encoder unconfigured. -/
def arithConfigBody (w : Byte) (s : State) : CmdResult :=
  if s.session = .arith then .raised .sequence s
  else if widthOperand w < 2 ∨ wMax < widthOperand w then .raised .config { s with arithW := 0 }
  else .done { s with arithW := w }

/-- The window width W as a number (R180). -/
def windowWidth (s : State) : Nat := s.arithW.toNat

/-- The interval and the model at the start of a session: LOW = 0, HIGH = 2^W − 1, every frequency 1 (R182). -/
def arithStart (w : Nat) : Arith := ⟨0, BitVec.ofNat 64 (2 ^ w - 1), tableAll 1#64⟩

/-- The body of ARITH_BEGIN (R182). -/
def arithBeginBody (s : State) : CmdResult :=
  if s.arithW = 0 then .raised .config s
  else .done { openSession .arith sinkInit s with ari := arithStart (windowWidth s), status := degenClear s.status }

/-! ## The per-symbol computation -/

/-- C, the sum of the counts of the values below b (R183). -/
def countBelow (t : Table Word64) (b : Byte) : Nat := ((t.toList.take b.toNat).map BitVec.toNat).sum

/-- T, the sum of all counts (R183). -/
def countTotal (t : Table Word64) : Nat := (t.toList.map BitVec.toNat).sum

/-- R = HIGH − LOW + 1, exact and signed (R184). -/
def interval (a : Arith) : Int := (a.high.toNat : Int) - (a.low.toNat : Int) + 1

/-- FLOAT64 scaling of one count: the quotient first, then the product, then floor (R186). -/
def scaleFloat (c t : Nat) (r : Int) : Int := floorFloat (fmul (fdiv c t) (toFloat r))

/-- INTEGER scaling of one count: floor(c · R / T), rounding toward −∞ (R187). -/
def scaleInteger (c t : Nat) (r : Int) : Int := ((c : Int) * r).fdiv (t : Int)

/-- One offset of `scale`, oL from C and oH from C + f (R185). -/
def scaleCount (m : ScaleMode) (c t : Nat) (r : Int) : Int :=
  match m with
  | .float64 => scaleFloat c t r
  | .integer => scaleInteger c t r

/-- nL and nH (R188). -/
def narrow (m : ScaleMode) (a : Arith) (b : Byte) : Int × Int :=
  let c := countBelow a.freq b
  let f := (tableGet a.freq b).toNat
  let t := countTotal a.freq
  ((a.low.toNat : Int) + scaleCount m c t (interval a),
   (a.low.toNat : Int) + scaleCount m (c + f) t (interval a) - 1)

/-- `v mod 2^W` of a signed integer (R9, R190). -/
def reduceMod (w : Nat) (v : Int) : Nat := (v.emod (2 ^ w)).toNat

/-- `(lo << 1) mod 2^W` (R191). -/
def shiftLow (w lo : Nat) : Nat := (lo <<< 1) % 2 ^ w

/-- `((hi << 1) | 1) mod 2^W` (R191). -/
def shiftHigh (w hi : Nat) : Nat := ((hi <<< 1) ||| 1) % 2 ^ w

/-- Renormalisation (R191): the emitted bits E, and lo and hi after the loop. The loop runs at most W times (R192), so `fuel`
is W. -/
def renormalise (w : Nat) (fuel lo hi : Nat) : BitString × Nat × Nat :=
  match fuel with
  | 0 => ([], lo, hi)
  | n + 1 =>
    if lo.testBit (w - 1) = hi.testBit (w - 1) then
      let r := renormalise w n (shiftLow w lo) (shiftHigh w hi)
      (lo.testBit (w - 1) :: r.1, r.2)
    else ([], lo, hi)

/-- The scan of the secondary shift (R193): how many bits from bit n − 1 down to bit `floor` disagree before the first that
agree. -/
def scanCount (floor lo hi : Nat) : Nat → Nat
  | 0 => 0
  | j + 1 => if floor ≤ j ∧ lo.testBit j ≠ hi.testBit j then scanCount floor lo hi j + 1 else 0

/-- The secondary shift (R193). It emits no bit. -/
def secondaryShift (floor w lo hi : Nat) : Nat × Nat :=
  let k := scanCount floor lo hi (w - 1)
  ((lo <<< k) % 2 ^ w, ((hi <<< k) % 2 ^ w) ||| (2 ^ k - 1))

/-- What an ARITH_STEP computes before it commits. -/
structure ArithOut where
  bits : BitString
  low : Nat
  high : Nat
  degenerate : Bool
  deriving DecidableEq, Repr

/-- The computation of ARITH_STEP b up to its commit (R183 to R193, R195). -/
def arithCompute (p : Params) (w : Nat) (a : Arith) (b : Byte) : ArithOut :=
  let n := narrow p.scaleMode a b
  let r := renormalise w w (reduceMod w n.1) (reduceMod w n.2)
  let q := secondaryShift p.scanFloor.val w r.2.1 r.2.2
  ⟨r.1, q.1, q.2, decide (n.2 < n.1)⟩

/-- The model update: FREQ[b] + 1 (R194). -/
def freqIncrement (t : Table Word64) (b : Byte) : Table Word64 := tableSet t b (tableGet t b + 1)

/-- The body of ARITH_STEP b (R195). -/
def arithStepBody (b : Byte) (s : State) : CmdResult :=
  let r := arithCompute s.params (windowWidth s) s.ari b
  if s.session ≠ .arith then .raised .sequence s
  else if symbolsExhausted s then .raised .symLimit s
  else if !sinkFits s.params s.out r.bits.length then .raised .outFull s
  else .done { s with
    out := sinkWriteBits r.bits s.out
    status := degenUpdate r.degenerate s.status
    ari := ⟨BitVec.ofNat 64 r.low, BitVec.ofNat 64 r.high, freqIncrement s.ari.freq b⟩
    nsym := s.nsym + 1 }

/-- The body of ARITH_ENCODE (R196). Its check of ARITH_W is ARITH_BEGIN's. -/
def arithEncodeBody (s : State) : CmdResult :=
  (arithBeginBody s).andThen (forEach arithStepBody (inputBytes s.input))

/-! ## The commands -/

/-- ARITH_CONFIG W (R181). -/
def execArithConfig (w : Byte) (s : State) : Result := finish (Instr.arithConfig w).opc (arithConfigBody w s)

/-- ARITH_BEGIN (R182). -/
def execArithBegin (s : State) : Result := finish Instr.arithBegin.opc (arithBeginBody s)

/-- ARITH_STEP b (R195). -/
def execArithStep (b : Byte) (s : State) : Result := finish (Instr.arithStep b).opc (arithStepBody b s)

/-- ARITH_ENCODE (R196). -/
def execArithEncode (s : State) : Result := finish Instr.arithEncode.opc (arithEncodeBody s)

end Sys2Proof.Machine
end

