-- ==== Sys2Proof/Machine/HostCmds.lean ====
section
/-! DEFINITION. The host and input-buffer commands (spec/40_host.md R120 to R124). -/

namespace Sys2Proof.Machine

/-- NOP (R120): no operation. -/
def execNop (s : State) : Result := .next s

/-- CLR_ERR (R121). -/
def execClrErr (s : State) : Result := .next (clearError s)

/-- SOFT_RESET (R122). -/
def execSoftReset (s : State) : Result := .next (resetBlock s)

/-- IN_CLEAR (R123): IN empty, IN_LEN 0. -/
def execInClear (s : State) : Result := .next { s with input := ⟨Memory.empty, 0⟩ }

/-- IN_PUSH b's pseudocode (R124). -/
def inPushBody (b : Byte) (s : State) : CmdResult :=
  if s.input.len.toNat = s.params.inCap then .raised .inFull s
  else .done { s with input := ⟨s.input.mem.write s.input.len.toNat b, s.input.len + 1⟩ }

/-- IN_PUSH b (R124). -/
def execInPush (b : Byte) (s : State) : Result := finish (Instr.inPush b).opc (inPushBody b s)

end Sys2Proof.Machine
end

