-- ==== Sys2Proof/Machine/Huffman.lean ====
section
/-! DEFINITION. The Huffman encoder (spec/44_huffman.md R220 to R234). -/

namespace Sys2Proof.Machine

/-! ## Pass 1 -/

/-- The tables a new session starts from: HIST, CLEN, ORDER 0, CODE empty, HUFF_M 0 (R223). -/
def huffFresh : Huff :=
  { hist := tableAll 0#64, order := tableAll 0#8, m := 0#9, clen := tableAll 0#9, code := tableAll [] }

/-- The body of HUFF_BEGIN (R223). -/
def huffBeginBody (s : State) : State := { openSession .huffHist packInit s with huf := huffFresh }

/-- The first occurrence of b takes the next rank of ORDER (R38, R224). -/
def orderNote (b : Byte) (h : Huff) : Huff :=
  if tableGet h.hist b = 0 then { h with order := h.order.setIfInBounds h.m.toNat b, m := h.m + 1 } else h

/-- HIST[b] + 1 after the order is noted (R224). -/
def histCount (b : Byte) (h : Huff) : Huff :=
  { orderNote b h with hist := tableSet h.hist b (tableGet h.hist b + 1) }

/-- The body of HUFF_COUNT b (R224). -/
def huffCountBody (b : Byte) (s : State) : CmdResult :=
  if s.session ≠ .huffHist then .raised .sequence s
  else if symbolsExhausted s then .raised .symLimit s
  else .done { s with huf := histCount b s.huf, nsym := s.nsym + 1 }

/-! ## Pass 2a: tree construction and code generation -/

/-- Every byte value in increasing order. -/
def allBytes : List Byte := (List.range 256).map (BitVec.ofNat 8)

/-- The leaf list (R225). -/
def leafList (o : LeafOrder) (h : Huff) : List Byte :=
  match o with
  | .firstOccurrence => h.order.toList.take h.m.toNat
  | .ascendingValue => allBytes.filter (fun v => tableGet h.hist v ≠ 0)

/-- A node of the merge structure (R226): its frequency, its sequence number, the byte values of its subtree. -/
structure HuffNode where
  freq : Nat
  seq : Nat
  syms : List Byte
  deriving DecidableEq, Repr

/-- The node order (R226). -/
def nodeBefore (x y : HuffNode) : Bool := x.freq < y.freq || (x.freq == y.freq && x.seq < y.seq)

/-- The least node and the rest (R227). -/
def popLeast : List HuffNode → Option (HuffNode × List HuffNode)
  | [] => none
  | x :: xs =>
    match popLeast xs with
    | none => some (x, [])
    | some (y, ys) => if nodeBefore x y then some (x, xs) else some (y, x :: ys)

/-- `code[v] := [bit] ++ code[v]` for every v of a subtree (R227). -/
def prependBit (bit : Bool) (syms : List Byte) (codes : Table BitString) : Table BitString :=
  syms.foldl (fun c v => tableSet c v (bit :: tableGet c v)) codes

/-- The temporaries of HUFF_BUILD (R230, R41). -/
structure Merge where
  queue : List HuffNode
  nextSeq : Nat
  codes : Table BitString
  deriving DecidableEq, Repr

/-- One merge of x, the first popped, and y, the second (R227). -/
def mergePair (x y : HuffNode) (rest : List HuffNode) (m : Merge) : Merge :=
  { queue := ⟨x.freq + y.freq, m.nextSeq, x.syms ++ y.syms⟩ :: rest
    nextSeq := m.nextSeq + 1
    codes := prependBit true y.syms (prependBit false x.syms m.codes) }

/-- One turn of the loop; none when the structure holds fewer than two nodes (R227). -/
def mergeStep (m : Merge) : Option Merge :=
  match popLeast m.queue with
  | none => none
  | some (x, q) =>
    match popLeast q with
    | none => none
    | some (y, rest) => some (mergePair x y rest m)

/-- The merge loop (R227). It runs one turn less than there are leaves, so `fuel` is the number of leaves. -/
def mergeLoop : Nat → Merge → Merge
  | 0, m => m
  | n + 1, m =>
    match mergeStep m with
    | none => m
    | some m' => mergeLoop n m'

/-- The structure before the first merge: leaf i has sequence number i (R226). -/
def leafNodes (hist : Table Word64) (leaves : List Byte) : List HuffNode :=
  leaves.zipIdx.map (fun vi => ⟨(tableGet hist vi.1).toNat, vi.2, [vi.1]⟩)

/-- The codes of the leaves: the one-value fallback (R228) or the merge tree's (R230). -/
def codesOf (single : Bool) (hist : Table Word64) (leaves : List Byte) : Table BitString :=
  match leaves with
  | [v] => tableSet (tableAll []) v [single]
  | _ => (mergeLoop leaves.length ⟨leafNodes hist leaves, leaves.length, tableAll []⟩).codes

/-- `CODE[v] <- code[v] ; CLEN[v] <- |code[v]|` for one leaf (R230). -/
def assignCode (codes : Table BitString) (h : Huff) (v : Byte) : Huff :=
  { h with
    code := tableSet h.code v (tableGet codes v)
    clen := tableSet h.clen v (BitVec.ofNat 9 (tableGet codes v).length) }

/-- The tables after code generation (R230). -/
def huffBuildTables (p : Params) (h : Huff) : Huff :=
  let leaves := leafList p.leafOrder h
  leaves.foldl (assignCode (codesOf p.singleCode h.hist leaves)) h

/-- The body of HUFF_BUILD (R230). -/
def huffBuildBody (s : State) : CmdResult :=
  if s.session ≠ .huffHist then .raised .sequence s
  else .done { s with huf := huffBuildTables s.params s.huf, session := .huffEmit }

/-! ## Pass 2b: emission -/

/-- CODE[b][j] for j in 0 .. CLEN[b] − 1 (R233). A bit CODE does not hold reads 0, as on the read port (R40, log 9). -/
def codeBits (h : Huff) (b : Byte) : BitString :=
  (List.range (tableGet h.clen b).toNat).map (fun j => (tableGet h.code b).getD j false)

/-- The body of HUFF_EMIT b (R233). -/
def huffEmitBody (b : Byte) (s : State) : CmdResult :=
  if s.session ≠ .huffEmit then .raised .sequence s
  else if tableGet s.huf.clen b = 0 then .raised .noCode s
  else if !packFits s.params s.out (tableGet s.huf.clen b).toNat then .raised .outFull s
  else .done { s with out := packBits (codeBits s.huf b) s.out }

/-- The body of HUFF_ENCODE (R234): both passes over IN. -/
def huffEncodeBody (s : State) : CmdResult :=
  ((forEach huffCountBody (inputBytes s.input) (huffBeginBody s)).andThen huffBuildBody).andThen
    (forEach huffEmitBody (inputBytes s.input))

/-! ## The commands -/

/-- HUFF_BEGIN (R223). -/
def execHuffBegin (s : State) : Result := .next (huffBeginBody s)

/-- HUFF_COUNT b (R224). -/
def execHuffCount (b : Byte) (s : State) : Result := finish (Instr.huffCount b).opc (huffCountBody b s)

/-- HUFF_BUILD (R230). -/
def execHuffBuild (s : State) : Result := finish Instr.huffBuild.opc (huffBuildBody s)

/-- HUFF_EMIT b (R233). -/
def execHuffEmit (b : Byte) (s : State) : Result := finish (Instr.huffEmit b).opc (huffEmitBody b s)

/-- HUFF_ENCODE (R234). -/
def execHuffEncode (s : State) : Result := finish Instr.huffEncode.opc (huffEncodeBody s)

end Sys2Proof.Machine
end

