-- ==== Sys2Proof/Machine/Sink.lean ====
section
/-! DEFINITION. The raw bit-sink commands (spec/41_bit_sink.md R147, R148). -/

namespace Sys2Proof.Machine

/-- SINK_INIT (R147): a raw sink session in any SESSION. -/
def execSinkInit (s : State) : Result := .next (openSession .sink sinkInit s)

/-- The sessions with a live sink (R148). -/
def sinkLive (n : Session) : Bool := n == .sink || n == .univ || n == .arith

/-- SINK_WRITE x's pseudocode (R148). -/
def sinkWriteBody (x : Byte) (s : State) : CmdResult :=
  if !sinkLive s.session then .raised .sequence s
  else if !sinkFits s.params s.out 1 then .raised .outFull s
  else .done { s with out := sinkWriteBit (bitOperand x) s.out }

/-- SINK_WRITE x (R148). -/
def execSinkWrite (x : Byte) (s : State) : Result := finish (Instr.sinkWrite x).opc (sinkWriteBody x s)

end Sys2Proof.Machine
end

