-- ==== Sys2Proof/Machine/Universal.lean ====
section
/-! DEFINITION. The universal (Elias-delta) encoder (spec/42_universal.md R160 to R165). -/

namespace Sys2Proof.Machine

/-- `elias(b)` (R160), with n = b + 1, L = floor_log2(n), LL = floor_log2(L + 1). -/
def elias (b : Byte) : BitString :=
  let n := b.toNat + 1
  let l := n.log2
  let ll := (l + 1).log2
  zeros ll ++ bin (l + 1) (ll + 1) ++ bin (n % 2 ^ l) l

/-- The body of UNIV_BEGIN (R163). -/
def univBeginBody (s : State) : State := openSession .univ sinkInit s

/-- The body of UNIV_STEP b (R164). -/
def univStepBody (b : Byte) (s : State) : CmdResult :=
  if s.session ≠ .univ then .raised .sequence s
  else if symbolsExhausted s then .raised .symLimit s
  else if !sinkFits s.params s.out (elias b).length then .raised .outFull s
  else .done { s with out := sinkWriteBits (elias b) s.out, nsym := s.nsym + 1 }

/-- The body of UNIV_ENCODE (R165). -/
def univEncodeBody (s : State) : CmdResult :=
  forEach univStepBody (inputBytes s.input) (univBeginBody s)

/-- UNIV_BEGIN (R163). -/
def execUnivBegin (s : State) : Result := .next (univBeginBody s)

/-- UNIV_STEP b (R164). -/
def execUnivStep (b : Byte) (s : State) : Result := finish (Instr.univStep b).opc (univStepBody b s)

/-- UNIV_ENCODE (R165). -/
def execUnivEncode (s : State) : Result := finish Instr.univEncode.opc (univEncodeBody s)

end Sys2Proof.Machine
end

