-- ==== Sys2Proof/Machine/Dispatch.lean ====
section
/-! DEFINITION. `execute` of the command cycle (spec/30_encoding.md R98): one arm per command. Lockout and ILLEGAL words are
the cycle's own (Machine/Cycle.lean). -/

namespace Sys2Proof.Machine

def exec (i : Instr) (s : State) : Host.Outcome State Fault Refusal :=
  match i with
  | .nop => Sys2Proof.Machine.execNop s
  | .clrErr => Sys2Proof.Machine.execClrErr s
  | .softReset => Sys2Proof.Machine.execSoftReset s
  | .inClear => Sys2Proof.Machine.execInClear s
  | .inPush b => Sys2Proof.Machine.execInPush b s
  | .sinkInit => Sys2Proof.Machine.execSinkInit s
  | .sinkWrite x => Sys2Proof.Machine.execSinkWrite x s
  | .univBegin => Sys2Proof.Machine.execUnivBegin s
  | .univStep b => Sys2Proof.Machine.execUnivStep b s
  | .univEncode => Sys2Proof.Machine.execUnivEncode s
  | .arithConfig w => Sys2Proof.Machine.execArithConfig w s
  | .arithBegin => Sys2Proof.Machine.execArithBegin s
  | .arithStep b => Sys2Proof.Machine.execArithStep b s
  | .arithEncode => Sys2Proof.Machine.execArithEncode s
  | .huffBegin => Sys2Proof.Machine.execHuffBegin s
  | .huffCount b => Sys2Proof.Machine.execHuffCount b s
  | .huffBuild => Sys2Proof.Machine.execHuffBuild s
  | .huffEmit b => Sys2Proof.Machine.execHuffEmit b s
  | .huffEncode => Sys2Proof.Machine.execHuffEncode s

end Sys2Proof.Machine
end

