-- ==== Sys2Proof/Machine/ReadPort.lean ====
section
/-! DEFINITION. The read port (spec/20_memory.md R65 to R68; 10_state.md R40, R42). -/

namespace Sys2Proof.Machine

/-- The bits of a list as a number, first bit most significant. -/
def bitsValue (l : BitString) : Nat := l.foldl (fun acc x => 2 * acc + x.toNat) 0

/-- Word w of CODE[v]: bit 63 − j holds CODE[v][64·w + j] when 64·w + j < CLEN[v], and 0 otherwise (R40). -/
def codeWord (h : Huff) (v : Byte) (w : Nat) : Word64 :=
  BitVec.ofNat 64 (bitsValue ((List.range 64).map (fun j =>
    decide (64 * w + j < (tableGet h.clen v).toNat) && (tableGet h.code v).getD (64 * w + j) false)))

/-- P_MODE (R42). -/
def modeWord (p : Params) : Word64 :=
  BitVec.ofNat 64 (bitsValue [p.singleCode, decide (p.leafOrder = .ascendingValue), decide (p.scanFloor = 1),
    decide (p.scaleMode = .integer)])

/-- The datum of a buffer's window at index i: the byte when i is below the length, else 0 (R66, R67). -/
def windowByte (m : Memory) (len : Word64) (i : Nat) : Word64 :=
  if i < len.toNat then (m.read i).setWidth 64 else 0

/-- Addresses 0x000 to 0x0FF: the registers (R66). -/
def readRegister (s : State) (a : Nat) : Word64 :=
  match a with
  | 0x000 => statusWord s.status
  | 0x001 => (sessionValue s.session).setWidth 64
  | 0x002 => s.input.len
  | 0x003 => s.out.len
  | 0x004 => s.out.bits
  | 0x005 => s.out.byteOff
  | 0x006 => s.out.bitOff.setWidth 64
  | 0x007 => s.nsym
  | 0x008 => s.arithW.setWidth 64
  | 0x009 => s.ari.low
  | 0x00A => s.ari.high
  | 0x00B => s.huf.m.setWidth 64
  | 0x010 => BitVec.ofNat 64 s.params.inCap
  | 0x011 => BitVec.ofNat 64 (outCap s.params)
  | 0x012 => BitVec.ofNat 64 wMax
  | 0x013 => modeWord s.params
  | _ => 0

/-- `RD(A)` (R65, R66); an unmapped address reads 0 (R67). -/
def readPort (s : State) (addr : Addr) : Word64 :=
  let a := addr.toNat
  let v : Byte := BitVec.ofNat 8 a
  if a < 0x100 then readRegister s a
  else if a < 0x200 then tableGet s.ari.freq v
  else if a < 0x300 then tableGet s.huf.hist v
  else if a < 0x400 then (tableGet s.huf.clen v).setWidth 64
  else if a < 0x500 then (tableGet s.huf.order v).setWidth 64
  else if a < 0x800 then 0
  else if a < 0xC00 then codeWord s.huf (BitVec.ofNat 8 ((a - 0x800) / 4)) ((a - 0x800) % 4)
  else if a < 0x10000000 then 0
  else if a < 0x20000000 then windowByte s.input.mem s.input.len (a - 0x10000000)
  else if a < 0x30000000 then windowByte s.out.mem s.out.len (a - 0x20000000)
  else 0

end Sys2Proof.Machine
end

