-- ==== Sys2Proof/Machine/Cycle.lean ====
section
/-! DEFINITION. The command cycle (spec/30_encoding.md R98) and the host's other two events, a read and a reset
(20_memory.md R65, 70_reset_and_hazards.md R290). -/

namespace Sys2Proof.Machine

/-- The three commands lockout lets through (R264). -/
def runsInLockout (d : Decoded) : Bool :=
  d == .command .nop || d == .command .clrErr || d == .command .softReset

/-- The command cycle for one accepted word (R98). -/
def acceptWord (w : CmdWord) (s : State) : Result :=
  let d := decode w
  if lockedOut s.status && !runsInLockout d then .next s
  else
    match d with
    | .illegal _ => .next (raiseError .illegal (opcField w) s)
    | .command i => exec i s

/-- A read between two commands: the datum goes to the host, no state of the block changes (R65, R68). -/
def answerRead (a : Addr) (s : State) : State :=
  { s with host := { s.host with replies := s.host.replies ++ [readPort s a] } }

/-- The state with the host's first event taken off. -/
def takeEvent (rest : List HostEvent) (s : State) : State := { s with host := { s.host with pending := rest } }

/-- One event of the host; with none, nothing happens, since nothing runs in the background (R72, log 4). -/
def hostTurn (s : State) : Result :=
  match s.host.pending with
  | [] => .next s
  | .word w :: rest => acceptWord w (takeEvent rest s)
  | .read a :: rest => .next (answerRead a (takeEvent rest s))
  | .reset :: rest => .next (resetBlock (takeEvent rest s))

/-- The word the host sends next, put before its other events. -/
def sendWord (w : CmdWord) (s : State) : State :=
  { s with host := { s.host with pending := .word w :: s.host.pending } }

end Sys2Proof.Machine
end

