-- ==== Sys2Proof/Machine/Step.lean ====
section
/-! DEFINITION. One step: one event of the host and its complete effect (spec/70_reset_and_hazards.md R297). -/

namespace Sys2Proof.Machine

/-- One step of the machine. -/
def step (s : State) : Host.Outcome State Fault Refusal := Sys2Proof.Machine.hostTurn s

/-- The state whose next step accepts the table word `w` (log 3). -/
def State.withFetchWord (s : State) (nbits w : Nat) : State := Sys2Proof.Machine.sendWord (Sys2Proof.tableWord nbits w) s

end Sys2Proof.Machine
end

