-- ==== Sys2Proof/Machine/Assembler.lean ====
section
/-! DEFINITION. The assembler on the host's side: program text to command words (spec/30_encoding.md R99 to R101). It is no
part of the block. Text is a list of characters. Log 17 names what R99 to R101 leave open of the text's form. -/

namespace Sys2Proof.Machine

/-! ## Pseudo-instructions (R101) -/

/-- A pseudo-instruction with its operand. -/
inductive Pseudo where
  | inLoad (s : List Byte)
  | inLoadBytes (bs : List Byte)
  | sinkBits (s : BitString)
  | arithRun (n : Byte)
  | univBytes (bs : List Byte)
  deriving DecidableEq, Repr

/-- The commands a pseudo-instruction stands for, in order (R101). -/
def expand : Pseudo → List Instr
  | .inLoad s => .inClear :: s.map .inPush
  | .inLoadBytes bs => .inClear :: bs.map .inPush
  | .sinkBits s => s.map (fun x => .sinkWrite (if x then 1#8 else 0#8))
  | .arithRun n => [.arithConfig n, .arithEncode]
  | .univBytes bs => .univBegin :: bs.map .univStep

/-! ## Text -/

/-- A space, a tab or a carriage return. R99 is silent on blanks; DESIGN CHOICE (log 17). -/
def isBlank (c : Char) : Bool := c == ' ' || c == '\t' || c == '\r'

/-- The text without blanks at its ends. -/
def trimText (l : List Char) : List Char := ((l.dropWhile isBlank).reverse.dropWhile isBlank).reverse

/-- Text put in front of the first part. -/
def prependToFirst (text : List Char) : List (List Char) → List (List Char)
  | [] => [text]
  | part :: parts => (text ++ part) :: parts

/-- The text split at every occurrence of a character; at least one part. -/
def splitText (sep : Char) : List Char → List (List Char)
  | [] => [[]]
  | c :: cs => if c == sep then [] :: splitText sep cs else prependToFirst [c] (splitText sep cs)

/-- A line without its comment, which `;` begins (R99). DESIGN CHOICE (log 17): it does so inside quotes too. -/
def stripComment (l : List Char) : List Char := l.takeWhile (fun c => c != ';')

/-- A character of a label's name. R99 is silent on which; DESIGN CHOICE (log 17): letters, digits and underscores. -/
def isNameChar (c : Char) : Bool := c.isAlphanum || c == '_'

/-- A line without the label `name:` at its start, if it has one (R99). -/
def stripLabel (l : List Char) : List Char :=
  match l.takeWhile isNameChar, l.dropWhile isNameChar with
  | _ :: _, ':' :: rest => rest
  | _, _ => l

/-- A digit's value in any base up to 16. -/
def digitValue (c : Char) : Nat :=
  if c.isDigit then c.toNat - '0'.toNat
  else if 'a' ≤ c ∧ c ≤ 'f' then c.toNat - 'a'.toNat + 10
  else if 'A' ≤ c ∧ c ≤ 'F' then c.toNat - 'A'.toNat + 10
  else 16

/-- A number in a base; none when empty or when a character is no digit of the base. -/
def parseDigits (base : Nat) (l : List Char) : Option Nat :=
  if l.isEmpty || l.any (fun c => base ≤ digitValue c) then none
  else some (l.foldl (fun n c => base * n + digitValue c) 0)

/-- A numeric or character operand; a character stands for its ASCII code (R100). DESIGN CHOICE (log 17): the prefixes are
lower case, hexadecimal digits of either case, and a character without an ASCII code is rejected. -/
def parseNumber (l : List Char) : Option Nat :=
  match l with
  | '0' :: 'x' :: ds => parseDigits 16 ds
  | '0' :: 'b' :: ds => parseDigits 2 ds
  | ['\'', c, '\''] => if c.toNat < 128 then some c.toNat else none
  | ds => parseDigits 10 ds

/-- A number not above a limit: the assembler rejects, it does not truncate (R100). -/
def parseUpTo (limit : Nat) (l : List Char) : Option Byte :=
  match parseNumber (trimText l) with
  | some n => if n ≤ limit then some (BitVec.ofNat 8 n) else none
  | none => none

/-- A list's text split at its commas. R101 is silent on a comma inside a character literal; DESIGN CHOICE (log 17): it does
not split, so that the literal of a comma can be a list item (R100). -/
def splitItems : List Char → List (List Char)
  | [] => [[]]
  | ',' :: cs => [] :: splitItems cs
  | '\'' :: c :: '\'' :: cs => prependToFirst ['\'', c, '\''] (splitItems cs)
  | c :: cs => prependToFirst [c] (splitItems cs)

/-- A comma-separated list of bytes, empty for no text (R101, log 17). -/
def parseBytes (l : List Char) : Option (List Byte) :=
  if (trimText l).isEmpty then some [] else (splitItems l).mapM (parseUpTo 255)

/-- The characters between double quotes, rejected outside ASCII 0..127 (R101). DESIGN CHOICE (log 17): no double quote stands
inside a string, and there are no escapes. -/
def parseQuoted (l : List Char) : Option (List Char) :=
  match trimText l with
  | '"' :: rest =>
    match rest.reverse with
    | '"' :: inner => if inner.any (fun c => c == '"' || 128 ≤ c.toNat) then none else some inner.reverse
    | _ => none
  | _ => none

/-- The ASCII codes of characters (R100). -/
def asciiBytes (l : List Char) : List Byte := l.map (fun c => BitVec.ofNat 8 c.toNat)

/-- A string of the characters 0 and 1 as bits (R101). -/
def parseBits (l : List Char) : Option BitString :=
  if l.all (fun c => c == '0' || c == '1') then some (l.map (fun c => c == '1')) else none

/-! ## Lines -/

/-- Two names alike but for capitals. R99 says so of the mnemonics of R93; `parsePseudo` takes it for R101's names as well. -/
def sameMnemonic (name : String) (l : List Char) : Bool := name.toList.map Char.toLower == l.map Char.toLower

/-- A command line of the opcode table: form N takes no operand, form T 0 or 1, forms B and W 0..255 (R99, R100). -/
def parseCommand (r : OpcodeRow) (operand : List Char) : Option Instr :=
  if r.mask = 0xFFFF#16 then (if operand.isEmpty then some (r.build 0) else none)
  else (parseUpTo (if r.mask = 0xFFFE#16 then 1 else 255) operand).map r.build

/-- A pseudo-instruction line; none when the name is not one of R101's. R99 makes only the mnemonics of R93 case-insensitive
and R101 is silent on its own names; DESIGN CHOICE (log 17): they are matched without regard to case too. -/
def parsePseudo (name operand : List Char) : Option Pseudo :=
  if sameMnemonic "IN_LOAD" name then (parseQuoted operand).map (fun l => .inLoad (asciiBytes l))
  else if sameMnemonic "IN_LOAD_BYTES" name then (parseBytes operand).map .inLoadBytes
  else if sameMnemonic "SINK_BITS" name then ((parseQuoted operand).bind parseBits).map .sinkBits
  else if sameMnemonic "ARITH_RUN" name then (parseUpTo 255 operand).map .arithRun
  else if sameMnemonic "UNIV_BYTES" name then (parseBytes operand).map .univBytes
  else none

/-- One line's commands: none when the assembler rejects it (R99 to R101). DESIGN CHOICE (log 17): blanks part the name from
its operand, a line that holds nothing or only a label gives no command, and a pseudo-instruction stands on a line of its own,
like a command. -/
def assembleLine (line : List Char) : Option (List Instr) :=
  let text := trimText (stripLabel (trimText (stripComment line)))
  let name := text.takeWhile (fun c => !isBlank c)
  let operand := trimText (text.dropWhile (fun c => !isBlank c))
  if text.isEmpty then some []
  else
    match opcodeTable.find? (fun r => sameMnemonic r.mnemonic name) with
    | some r => (parseCommand r operand).map (fun i => [i])
    | none => (parsePseudo name operand).map expand

/-- A program's command words, one command (R99) or pseudo-instruction (log 17) a line. -/
def assemble (text : List Char) : Option (List CmdWord) :=
  ((splitText '\n' text).mapM assembleLine).map (fun ls => ls.flatten.map encode)

end Sys2Proof.Machine
end

