-- ==== Sys2Proof/Safety.lean ====
section
/-! DEFINITION. The vocabulary of the claims: the bits of OUT, the histogram's sums, and the invariants of the machine
(spec/10_state.md R44, with the ranges of R22 to R40). -/

namespace Sys2Proof.Machine

/-- The j-th bit of OUT, counting from OUT[0]'s bit 7 down (R63, R144). Beyond OUT_LEN it is the storage's own (log 7). -/
def outBitAt (o : OutBuf) (j : Nat) : Bool := (o.mem.read (j / 8)).getLsbD (7 - j % 8)

/-- The commands that open a session and so give up the output before them (R296), with SOFT_RESET. -/
def opensSession : Instr → Bool
  | .softReset | .sinkInit | .univBegin | .univEncode | .arithBegin | .arithEncode | .huffBegin | .huffEncode => true
  | .nop | .clrErr | .inClear | .inPush _ | .sinkWrite _ | .univStep _ | .arithConfig _ | .arithStep _ => false
  | .huffCount _ | .huffBuild | .huffEmit _ => false

/-- The sessions that own the Huffman phases (R220). -/
def huffSession (n : Session) : Bool := n == .huffHist || n == .huffEmit

/-- Σ_v HIST[v] (R44). -/
def histTotal (h : Huff) : Nat := (h.hist.toList.map BitVec.toNat).sum

/-- The number of values with HIST[v] > 0 (R38, R44). -/
def presentCount (h : Huff) : Nat := (h.hist.toList.filter (fun x => x != 0)).length

/-- STATUS holds a legal error code, and ERR_OP is 0 without an error (R23, R261). -/
def StatusInv (s : State) : Prop := s.status.err.toNat ≤ 7 ∧ (s.status.err = 0 → s.status.errOp = 0)

/-- The cursor registers agree with BITS (R32). -/
def CursorInv (o : OutBuf) : Prop :=
  o.byteOff.toNat = o.bits.toNat / 8 ∧ o.bitOff.toNat = 7 - o.bits.toNat % 8

/-- No bit of OUT at or beyond BITS is 1 (R144, R236). -/
def CleanTail (o : OutBuf) : Prop := ∀ j, o.bits.toNat ≤ j → outBitAt o j = false

/-- OUT_LEN against BITS, session by session (R44 items 2 to 4; R290 for NONE). -/
def LengthInv (s : State) : Prop :=
  match s.session with
  | .sink | .univ | .arith => s.out.len.toNat = s.out.bits.toNat / 8 + 1
  | .huffEmit => s.out.len.toNat = (s.out.bits.toNat + 7) / 8
  | .huffHist | .none => s.out.len = 0 ∧ s.out.bits = 0

/-- The output state: canonical storage, cursor, length and capacity (R28 to R32, R44). -/
def OutputInv (s : State) : Prop :=
  s.out.mem.wf ∧ CursorInv s.out ∧ CleanTail s.out ∧ LengthInv s ∧ s.out.len.toNat ≤ outCap s.params

/-- The input buffer: canonical storage and capacity (R27). -/
def InputInv (s : State) : Prop := s.input.mem.wf ∧ s.input.len.toNat ≤ s.params.inCap

/-- ARITH_W is 0 or a legal width (R34). -/
def WidthInv (s : State) : Prop := s.arithW = 0 ∨ (2 ≤ windowWidth s ∧ windowWidth s ≤ wMax)

/-- In an ARITH session: a configured width (R180), LOW and HIGH within it (R35), every frequency at least 1 and their sum
256 + NSYM (R36, R44). Outside one the registers may be stale (R298, log 12). -/
def ArithInv (s : State) : Prop :=
  s.session = .arith →
    s.arithW ≠ 0 ∧ s.ari.low.toNat < 2 ^ windowWidth s ∧ s.ari.high.toNat < 2 ^ windowWidth s ∧
    (∀ v, 1 ≤ (tableGet s.ari.freq v).toNat) ∧ countTotal s.ari.freq = 256 + s.nsym.toNat

/-- The machine's invariant but for the Huffman tables. -/
structure BaseInv (s : State) : Prop where
  legal : s.params.Legal
  status : StatusInv s
  input : InputInv s
  output : OutputInv s
  nsym : s.nsym.toNat ≤ symMax s.params
  width : WidthInv s
  arith : ArithInv s

/-- ORDER's first HUFF_M entries are the present values, each once, and the others are 0 (R38, R44). -/
def OrderInv (h : Huff) : Prop :=
  (h.order.toList.take h.m.toNat).Nodup ∧ h.m.toNat = presentCount h ∧
  (∀ v, v ∈ h.order.toList.take h.m.toNat ↔ tableGet h.hist v ≠ 0) ∧
  ∀ x ∈ h.order.toList.drop h.m.toNat, x = 0#8

/-- CLEN[v] is the length of CODE[v], at most 255 (R39, R40). -/
def CodeInv (h : Huff) : Prop :=
  ∀ v, (tableGet h.code v).length = (tableGet h.clen v).toNat ∧ (tableGet h.clen v).toNat ≤ 255

/-- The Huffman tables: Σ HIST = NSYM in a Huffman session, no code before HUFF_BUILD, a code for exactly the present values
after it (R39, R44, R231). -/
structure HuffInv (s : State) : Prop where
  order : OrderInv s.huf
  code : CodeInv s.huf
  total : huffSession s.session = true → histTotal s.huf = s.nsym.toNat
  before : s.session = .huffHist → ∀ v, tableGet s.huf.clen v = 0
  after : s.session = .huffEmit → ∀ v, tableGet s.huf.clen v ≠ 0 ↔ tableGet s.huf.hist v ≠ 0

/-- The whole invariant of the machine between commands. -/
def Inv (s : State) : Prop := BaseInv s ∧ HuffInv s

/-- The commands of a list, one after the other, each to its next state. -/
def runCommands : List Instr → State → Result
  | [], s => .next s
  | i :: is, s =>
    match exec i s with
    | .next t => runCommands is t
    | .fault r => .fault r
    | .refused r => .refused r

/-! ## Valid use (60_exceptions.md R274, 70_reset_and_hazards.md R293) -/

/-- Valid use: at most IN_CAP bytes held (`held` so far), legal widths configured outside ARITH sessions (`arith`), and ENCODE
commands, ARITH_ENCODE only once a width is configured (`width`). Loads, configuration and ENCODEs come in any order. -/
def validUse (cap : Nat) : (held : Nat) → (width arith : Bool) → List Instr → Bool
  | _, _, _, [] => true
  | held, width, arith, i :: is =>
    match i with
    | .inClear => validUse cap 0 width arith is
    | .inPush _ => held < cap && validUse cap (held + 1) width arith is
    | .arithConfig w => !arith && 2 ≤ w.toNat && w.toNat ≤ 64 && validUse cap held true arith is
    | .univEncode | .huffEncode => validUse cap held width false is
    | .arithEncode => width && validUse cap held width true is
    | .nop | .clrErr | .softReset | .sinkInit | .sinkWrite _ | .univBegin | .univStep _ | .arithBegin => false
    | .arithStep _ | .huffBegin | .huffCount _ | .huffBuild | .huffEmit _ => false

/-- What a valid command leaves of the bytes of IN (R123, R124). -/
def loadedBytes (bs : List Byte) : Instr → List Byte
  | .inClear => []
  | .inPush b => bs ++ [b]
  | .nop | .clrErr | .softReset | .sinkInit | .sinkWrite _ | .univBegin | .univStep _ | .univEncode | .arithConfig _ => bs
  | .arithBegin | .arithStep _ | .arithEncode | .huffBegin | .huffCount _ | .huffBuild | .huffEmit _ | .huffEncode => bs

/-- What a valid command leaves of ARITH_W (R181). -/
def configuredWidth (w : Byte) : Instr → Byte
  | .arithConfig v => v
  | .nop | .clrErr | .softReset | .inClear | .inPush _ | .sinkInit | .sinkWrite _ | .univBegin | .univStep _ => w
  | .univEncode | .arithBegin | .arithStep _ | .arithEncode | .huffBegin | .huffCount _ | .huffBuild => w
  | .huffEmit _ | .huffEncode => w

/-! ## The values of the arithmetic encoder's rules (43_arithmetic.md R183, R186) -/

/-- Σ FREQ[v] over v = 0 .. n − 1 (R183). -/
def freqSum (t : Table Word64) (n : Nat) : Nat :=
  ((List.range n).map (fun v => (tableGet t (BitVec.ofNat 8 v)).toNat)).sum

/-- The number a binary64 value stands for. -/
def binaryValue (x : Binary64) : ℚ := (x.mant : ℚ) * (2 : ℚ) ^ x.exp

/-- x is the 53-bit value nearest to q, ties to even: its exponent is that of q's binade, it lies within half a unit in its last
place of q, and at exactly half a unit its significand is even (R186). -/
def RoundsTo (q : ℚ) (x : Binary64) : Prop :=
  (2 : ℚ) ^ (52 : ℕ) * (2 : ℚ) ^ x.exp ≤ |q| ∧ |q| < (2 : ℚ) ^ (53 : ℕ) * (2 : ℚ) ^ x.exp ∧
  2 * |binaryValue x - q| ≤ (2 : ℚ) ^ x.exp ∧ (2 * |binaryValue x - q| = (2 : ℚ) ^ x.exp → 2 ∣ x.mant)

/-! ## The merge tree as its rules describe it (44_huffman.md R226, R227) -/

/-- The node order (R226). -/
def NodePrecedes (x z : HuffNode) : Prop := x.freq < z.freq ∨ x.freq = z.freq ∧ x.seq < z.seq

/-- The structure before the first merge: leaf i is (HIST[leaves[i]], i, its one value), every code is empty (R226, R230). -/
def MergeStart (hist : Table Word64) (leaves : List Byte) (m : Merge) : Prop :=
  m.queue.length = leaves.length ∧
  (∀ (i : Nat) (v : Byte), leaves[i]? = some v → m.queue[i]? = some ⟨(tableGet hist v).toNat, i, [v]⟩) ∧
  m.nextSeq = leaves.length ∧ ∀ v, tableGet m.codes v = []

/-- One merge (R227): x precedes every other node and y every node but x; x's values gain a 0 in front and y's a 1; a node of
the two frequencies' sum, of the next sequence number and of both subtrees takes their place. -/
def MergesTo (m m' : Merge) : Prop :=
  ∃ x y rest, m.queue.Perm (x :: y :: rest) ∧ (∀ z ∈ y :: rest, NodePrecedes x z) ∧ (∀ z ∈ rest, NodePrecedes y z) ∧
    m'.queue.Perm (⟨x.freq + y.freq, m.nextSeq, x.syms ++ y.syms⟩ :: rest) ∧ m'.nextSeq = m.nextSeq + 1 ∧
    ∀ v, tableGet m'.codes v =
      if v ∈ x.syms then false :: tableGet m.codes v
      else if v ∈ y.syms then true :: tableGet m.codes v else tableGet m.codes v

/-- n merges, one after the other (R227). -/
def MergeChain : Nat → Merge → Merge → Prop
  | 0, m, m' => m = m'
  | n + 1, m, m' => ∃ k, MergesTo m k ∧ MergeChain n k m'

/-! ## Which commands write which state (the rules of 40_host.md to 44_huffman.md) -/

/-- The composite commands (R267). -/
def composite (i : Instr) : Bool := i == .univEncode || i == .arithEncode || i == .huffEncode

/-- The writers of IN (R27). -/
def writesInput : Instr → Bool
  | .inClear | .inPush _ | .softReset => true
  | .nop | .clrErr | .sinkInit | .sinkWrite _ | .univBegin | .univStep _ | .univEncode | .arithConfig _ => false
  | .arithBegin | .arithStep _ | .arithEncode | .huffBegin | .huffCount _ | .huffBuild | .huffEmit _ | .huffEncode => false

/-- The writers of OUT, OUT_LEN, BITS and the cursor (R28 to R30). -/
def writesOutput (i : Instr) : Bool :=
  opensSession i ||
  match i with
  | .sinkWrite _ | .univStep _ | .arithStep _ | .huffEmit _ => true
  | .nop | .clrErr | .softReset | .inClear | .inPush _ | .sinkInit | .univBegin | .univEncode => false
  | .arithConfig _ | .arithBegin | .arithEncode | .huffBegin | .huffCount _ | .huffBuild | .huffEncode => false

/-- The writers of NSYM (R33). -/
def writesNsym (i : Instr) : Bool :=
  opensSession i ||
  match i with
  | .univStep _ | .arithStep _ | .huffCount _ => true
  | .nop | .clrErr | .softReset | .inClear | .inPush _ | .sinkInit | .sinkWrite _ | .univBegin => false
  | .univEncode | .arithConfig _ | .arithBegin | .arithEncode | .huffBegin | .huffBuild | .huffEmit _ | .huffEncode => false

/-- The writers of SESSION (R22). -/
def writesSession (i : Instr) : Bool := opensSession i || i == .huffBuild

/-- The writers of ARITH_W (R34). -/
def writesWidth : Instr → Bool
  | .arithConfig _ | .softReset => true
  | .nop | .clrErr | .inClear | .inPush _ | .sinkInit | .sinkWrite _ | .univBegin | .univStep _ | .univEncode => false
  | .arithBegin | .arithStep _ | .arithEncode | .huffBegin | .huffCount _ | .huffBuild | .huffEmit _ | .huffEncode => false

/-- The writers of LOW, HIGH and FREQ (R35, R36; ARITH_ENCODE performs the others' bodies). -/
def writesArith : Instr → Bool
  | .arithBegin | .arithStep _ | .arithEncode | .softReset => true
  | .nop | .clrErr | .inClear | .inPush _ | .sinkInit | .sinkWrite _ | .univBegin | .univStep _ => false
  | .univEncode | .arithConfig _ | .huffBegin | .huffCount _ | .huffBuild | .huffEmit _ | .huffEncode => false

/-- The writers of HIST, ORDER, HUFF_M, CLEN and CODE (R37 to R40). -/
def writesHuff : Instr → Bool
  | .huffBegin | .huffCount _ | .huffBuild | .huffEncode | .softReset => true
  | .nop | .clrErr | .inClear | .inPush _ | .sinkInit | .sinkWrite _ | .univBegin => false
  | .univStep _ | .univEncode | .arithConfig _ | .arithBegin | .arithStep _ | .arithEncode | .huffEmit _ => false

/-- The writers of STATUS.DEGEN (R26). -/
def writesDegen : Instr → Bool
  | .arithBegin | .arithStep _ | .arithEncode | .softReset => true
  | .nop | .clrErr | .inClear | .inPush _ | .sinkInit | .sinkWrite _ | .univBegin | .univStep _ => false
  | .univEncode | .arithConfig _ | .huffBegin | .huffCount _ | .huffBuild | .huffEmit _ | .huffEncode => false

/-! ## The opcode map's gaps -/

/-- The OPCs of the form-N commands (R91). -/
def formNOpcodes : List Byte :=
  [0x00#8, 0x01#8, 0x02#8, 0x08#8, 0x10#8, 0x20#8, 0x22#8, 0x31#8, 0x33#8, 0x40#8, 0x42#8, 0x44#8]

/-- The reserved OPCs (R95). -/
def reservedOpc (c : Byte) : Bool :=
  let n := c.toNat
  (0x03 ≤ n && n ≤ 0x07) || (0x0A ≤ n && n ≤ 0x0F) || (0x12 ≤ n && n ≤ 0x1F) || (0x23 ≤ n && n ≤ 0x2F) ||
    (0x34 ≤ n && n ≤ 0x3F) || 0x45 ≤ n

/-! ## The source's unbounded reading of renormalisation and secondary shift (R198) -/

/-- Bit j of an integer in the two's-complement reading (R9). -/
def intBit (v : Int) (j : Nat) : Bool := (v.fdiv (2 ^ j)).emod 2 == 1

/-- Step 2 on unbounded integers, "not masked to `W` bits inside the loop" (R190, R198). -/
def sourceRenormalise (w : Nat) (fuel : Nat) (lo hi : Int) : BitString × Int × Int :=
  match fuel with
  | 0 => ([], lo, hi)
  | n + 1 =>
    if intBit lo (w - 1) = intBit hi (w - 1) then
      let r := sourceRenormalise w n (2 * lo) (2 * hi + 1)
      (intBit lo (w - 1) :: r.1, r.2)
    else ([], lo, hi)

/-- The scan of step 3 on unbounded integers (R193, R198). -/
def sourceScan (floor : Nat) (lo hi : Int) : Nat → Nat
  | 0 => 0
  | j + 1 => if floor ≤ j ∧ intBit lo j ≠ intBit hi j then sourceScan floor lo hi j + 1 else 0

/-- Step 3: the shift by k, masked to W bits, HIGH's new low bits 1 (R193, R198). -/
def sourceShift (floor w : Nat) (lo hi : Int) : Nat × Nat :=
  let k := sourceScan floor lo hi (w - 1)
  (reduceMod w (lo * 2 ^ k), reduceMod w (hi * 2 ^ k) ||| (2 ^ k - 1))

end Sys2Proof.Machine
end

