-- ==== Sys2Proof/Certificates/Slice0/Obligations.lean ====
section
/-! DEFINITION. The statements for the provers. Each names the rules of spec/ it formalises. -/

open Sys2Proof Sys2Proof.Machine

/-! ## Encoding (30_encoding.md) -/

/-- R90, R91, R93: decoding a well-formed command's word gives the command back, with every operand. -/
def Obligations.DecodeOfEncodeIsTheCommand : Prop :=
  ∀ i : Instr, i.wellFormed = true → decode (encode i) = .command i

/-- R90, R91, R93: a word that decodes is the encoding of what it decodes to, and that command is well formed. -/
def Obligations.EncodeOfDecodeIsTheWord : Prop :=
  ∀ (w : CmdWord) (i : Instr), decode w = .command i → encode i = w ∧ i.wellFormed = true

/-- R92: `decode(w)` is the command of the row that accepts w, ILLEGAL when no row accepts it, and no two rows accept the same
word. -/
def Obligations.DecodingFollowsTheOpcodeMap : Prop :=
  (∀ (w : CmdWord) (r : OpcodeRow), r ∈ opcodeTable → w &&& r.mask = r.pattern →
    decode w = .command (r.build (immField w))) ∧
  (∀ w : CmdWord, (∀ r ∈ opcodeTable, w &&& r.mask ≠ r.pattern) → ∃ why, decode w = .illegal why) ∧
  opcodeTable.Pairwise (fun r r' => ∀ w : CmdWord, ¬ (w &&& r.mask = r.pattern ∧ w &&& r'.mask = r'.pattern))

/-- R94: an assigned OPC whose IMM8 breaks its form is ILLEGAL: form N with IMM8 ≠ 0x00, SINK_WRITE with w[7:1] ≠ 0. -/
def Obligations.MalformedImmediateIsIllegal : Prop :=
  ∀ w : CmdWord,
    (opcField w ∈ formNOpcodes ∧ immField w ≠ 0 ∨ opcField w = 0x11#8 ∧ immField w &&& 0xFE#8 ≠ 0) →
    decode w = .illegal (.malformedImmediate (opcField w) (immField w))

/-- R95: a word whose OPC is in no row is ILLEGAL whatever its IMM8; outside lockout it raises ILLEGAL and changes nothing
else, in lockout it is discarded. -/
def Obligations.ReservedOpcodeRaisesIllegal : Prop :=
  ∀ (w : CmdWord) (s : State), reservedOpc (opcField w) = true →
    decode w = .illegal (.reservedOpcode (opcField w)) ∧
    (s.status.err = 0 →
      acceptWord w s = .next { s with status := { s.status with err := 1#4, errOp := opcField w } }) ∧
    (s.status.err ≠ 0 → acceptWord w s = .next s)

/-- R93: one word of each family, written out from the opcode map, decodes to its command. -/
def Obligations.WordsOfTheFamiliesDecode : Prop :=
  decode 0x0000#16 = .command .nop ∧ decode 0x0941#16 = .command (.inPush 0x41#8) ∧
  decode 0x1101#16 = .command (.sinkWrite 1#8) ∧ decode 0x21FF#16 = .command (.univStep 0xFF#8) ∧
  decode 0x3008#16 = .command (.arithConfig 8#8) ∧ decode 0x4344#16 = .command (.huffEmit 0x44#8)

/-- R96: 0x0000 is the only word that changes nothing in any state of the machine. -/
def Obligations.OnlyTheNopWordIsANoOp : Prop :=
  ∀ w : CmdWord, (∀ s : State, Inv s → acceptWord w s = .next s) ↔ w = 0x0000#16

/-- R102: a command stream stored as bytes, OPC first, reads back as its words. -/
def Obligations.StoredStreamReadsBack : Prop :=
  ∀ ws : List CmdWord, bytesToWords (ws.flatMap wordBytes) = some ws

/-- R99, R100, R94: the assembler writes no ILLEGAL word: every word of an accepted program decodes to a command. -/
def Obligations.AssembledWordsAreCommands : Prop :=
  ∀ (text : List Char) (ws : List CmdWord), assemble text = some ws → ∀ w ∈ ws, ∃ i, decode w = .command i

/-! ## The command cycle and the ports (30_encoding.md R98, 60_exceptions.md, 20_memory.md, 70_reset_and_hazards.md) -/

/-- R98, R297: a word the host sends that decodes to a command runs as `exec` of that command, outside lockout and for the three
commands lockout lets through. The host's list, off which the step takes the word, is the model's own (log 3). -/
def Obligations.StepRunsTheDecodedCommand : Prop :=
  ∀ (s : State) (w : CmdWord) (rest : List HostEvent) (i : Instr),
    s.host.pending = .word w :: rest → decode w = .command i →
    (s.status.err = 0 ∨ i = .nop ∨ i = .clrErr ∨ i = .softReset) →
    step s = exec i (takeEvent rest s)

/-- R264: in lockout every word other than 0x0000, 0x0100 and 0x0200, ILLEGAL words included, is discarded: no state changes,
no error is raised, no record is left. -/
def Obligations.LockoutDiscardsEveryOtherWord : Prop :=
  ∀ (s : State) (w : CmdWord), s.status.err ≠ 0 → w ≠ 0x0000#16 → w ≠ 0x0100#16 → w ≠ 0x0200#16 → acceptWord w s = .next s

/-- R98: the command cycle. In lockout NOP, CLR_ERR and SOFT_RESET execute and any other word changes nothing; outside it an
ILLEGAL word records error 1 with its OPC and a command executes. -/
def Obligations.AcceptedWordsFollowTheCommandCycle : Prop :=
  ∀ (s : State) (w : CmdWord),
    (s.status.err ≠ 0 →
      (∀ i, decode w = .command i → (i = .nop ∨ i = .clrErr ∨ i = .softReset) → acceptWord w s = exec i s) ∧
      ((∀ i, decode w = .command i → i ≠ .nop ∧ i ≠ .clrErr ∧ i ≠ .softReset) → acceptWord w s = .next s)) ∧
    (s.status.err = 0 →
      (∀ why, decode w = .illegal why →
        acceptWord w s = .next { s with status := ⟨1#4, w.extractLsb' 8 8, s.status.degen⟩ }) ∧
      ∀ i, decode w = .command i → acceptWord w s = exec i s)

/-- R65, R68: a read, in lockout too, gives the host the addressed datum and changes no state of the block. That the datum is
appended to the host's replies is the model's choice (log 5). -/
def Obligations.ReadAnswersAndChangesNothing : Prop :=
  ∀ (s : State) (a : Addr) (rest : List HostEvent), s.host.pending = .read a :: rest →
    ∃ t, step s = .next t ∧ t = { s with host := t.host } ∧
      t.host.pending = rest ∧ t.host.replies = s.host.replies ++ [readPort s a]

/-- R290, R291: the reset input, in lockout too, puts the block into the reset state, the state SOFT_RESET leaves. Reset as an
event that keeps the host's side is the model's choice (log 3, log 6). -/
def Obligations.ResetInputEqualsSoftReset : Prop :=
  ∀ (s : State) (rest : List HostEvent), s.host.pending = .reset :: rest →
    step s = .next (State.initial s.params ⟨rest, s.host.replies⟩) ∧
    step s = exec .softReset (takeEvent rest s)

/-- R66: the read port's address map. -/
def Obligations.ReadPortFollowsItsMap : Prop :=
  ∀ s : State,
    readPort s 0x0#32 = statusWord s.status ∧ readPort s 0x1#32 = (sessionValue s.session).setWidth 64 ∧
    readPort s 0x2#32 = s.input.len ∧ readPort s 0x3#32 = s.out.len ∧ readPort s 0x4#32 = s.out.bits ∧
    readPort s 0x5#32 = s.out.byteOff ∧ readPort s 0x6#32 = s.out.bitOff.setWidth 64 ∧ readPort s 0x7#32 = s.nsym ∧
    readPort s 0x8#32 = s.arithW.setWidth 64 ∧ readPort s 0x9#32 = s.ari.low ∧ readPort s 0xA#32 = s.ari.high ∧
    readPort s 0xB#32 = s.huf.m.setWidth 64 ∧ readPort s 0x10#32 = BitVec.ofNat 64 s.params.inCap ∧
    readPort s 0x11#32 = BitVec.ofNat 64 (8 * s.params.inCap + 1) ∧ readPort s 0x12#32 = 64#64 ∧
    readPort s 0x13#32 = modeWord s.params ∧
    (∀ v : Byte,
      readPort s (0x100#32 + v.setWidth 32) = tableGet s.ari.freq v ∧
      readPort s (0x200#32 + v.setWidth 32) = tableGet s.huf.hist v ∧
      readPort s (0x300#32 + v.setWidth 32) = (tableGet s.huf.clen v).setWidth 64 ∧
      readPort s (0x400#32 + v.setWidth 32) = (tableGet s.huf.order v).setWidth 64 ∧
      ∀ w : BitVec 2, readPort s (0x800#32 + 4#32 * v.setWidth 32 + w.setWidth 32) = codeWord s.huf v w.toNat) ∧
    ∀ i : BitVec 28,
      readPort s (0x10000000#32 + i.setWidth 32) =
        (if i.toNat < s.input.len.toNat then (s.input.mem.read i.toNat).setWidth 64 else 0) ∧
      readPort s (0x20000000#32 + i.setWidth 32) =
        (if i.toNat < s.out.len.toNat then (s.out.mem.read i.toNat).setWidth 64 else 0)

/-- R67: an unmapped address reads 0, and so does IN or OUT at or beyond its length, whatever the storage holds. -/
def Obligations.UnmappedAddressesReadZero : Prop :=
  ∀ (s : State) (a : Addr),
    (0xC ≤ a.toNat ∧ a.toNat < 0x10 ∨ 0x14 ≤ a.toNat ∧ a.toNat < 0x100 ∨ 0x500 ≤ a.toNat ∧ a.toNat < 0x800 ∨
      0xC00 ≤ a.toNat ∧ a.toNat < 0x10000000 ∨ 0x30000000 ≤ a.toNat ∨
      0x10000000 + s.input.len.toNat ≤ a.toNat ∧ a.toNat < 0x20000000 ∨
      0x20000000 + s.out.len.toNat ≤ a.toNat ∧ a.toNat < 0x30000000) →
    readPort s a = 0

/-- R42: the PARAM registers reflect the instance's parameters, P_MODE bit by bit. -/
def Obligations.ParameterRegistersReflectTheInstance : Prop :=
  ∀ s : State, BaseInv s →
    (readPort s 0x10#32).toNat = s.params.inCap ∧ (readPort s 0x11#32).toNat = 8 * s.params.inCap + 1 ∧
    readPort s 0x12#32 = 64#64 ∧
    (readPort s 0x13#32).getLsbD 0 = decide (s.params.scaleMode = .integer) ∧
    (readPort s 0x13#32).getLsbD 1 = decide (s.params.scanFloor = 1) ∧
    (readPort s 0x13#32).getLsbD 2 = decide (s.params.leafOrder = .ascendingValue) ∧
    (readPort s 0x13#32).getLsbD 3 = s.params.singleCode ∧ (readPort s 0x13#32).extractLsb' 4 60 = 0

/-- R23: STATUS's fields are where the rule puts them, its reserved bits read 0. -/
def Obligations.StatusWordLayout : Prop :=
  ∀ t : Status,
    (statusWord t).extractLsb' 0 4 = t.err ∧ (statusWord t).extractLsb' 4 4 = 0 ∧
    (statusWord t).extractLsb' 8 8 = t.errOp ∧ (statusWord t).getLsbD 16 = t.degen ∧
    (statusWord t).extractLsb' 17 47 = 0

/-- R40: bit 63 − j of word w of CODE[v] holds CODE[v][64·w + j] when 64·w + j < CLEN[v], and 0 otherwise. -/
def Obligations.CodeWordLayout : Prop :=
  ∀ (h : Huff) (v : Byte) (w j : Nat), j < 64 →
    (codeWord h v w).getLsbD (63 - j) =
      (decide (64 * w + j < (tableGet h.clen v).toNat) && (tableGet h.code v).getD (64 * w + j) false)

/-! ## The host commands (40_host.md) -/

/-- R120, R121: NOP leaves the state as it is; CLR_ERR clears ERR and ERR_OP and nothing else, DEGEN included; both execute in
lockout, from the words 0x0000 and 0x0100. -/
def Obligations.NopAndClearErrorEffects : Prop :=
  ∀ s : State,
    exec .nop s = .next s ∧ acceptWord 0x0000#16 s = .next s ∧
    exec .clrErr s = .next { s with status := ⟨0#4, 0#8, s.status.degen⟩ } ∧
    acceptWord 0x0100#16 s = .next { s with status := ⟨0#4, 0#8, s.status.degen⟩ }

/-- R122, R43: SOFT_RESET, in lockout too, puts every piece of the block's state to its reset value; the PARAM registers do not
change. The word is 0x0200. -/
def Obligations.SoftResetGivesEveryResetValue : Prop :=
  ∀ s : State, ∃ t, exec .softReset s = .next t ∧ acceptWord 0x0200#16 s = .next t ∧
    t.status = ⟨0, 0, false⟩ ∧ t.session = .none ∧ t.input.len = 0 ∧ t.out.len = 0 ∧ t.out.bits = 0 ∧
    t.out.byteOff = 0 ∧ t.out.bitOff = 7 ∧ t.nsym = 0 ∧ t.arithW = 0 ∧ t.ari.low = 0 ∧ t.ari.high = 0 ∧ t.huf.m = 0 ∧
    (∀ v, tableGet t.ari.freq v = 0 ∧ tableGet t.huf.hist v = 0 ∧ tableGet t.huf.order v = 0 ∧
      tableGet t.huf.clen v = 0 ∧ tableGet t.huf.code v = []) ∧
    t.params = s.params ∧ t.host = s.host

/-- R123, R124: IN_CLEAR empties IN; IN_PUSH b appends b at index IN_LEN, or reports IN_FULL (code 6) when IN_LEN = IN_CAP and
leaves IN as it is. Nothing else changes. -/
def Obligations.InputCommandsEffects : Prop :=
  decode 0x0800#16 = .command .inClear ∧ (∀ b : Byte, decode (0x09#8 ++ b) = .command (.inPush b)) ∧
  ∀ (s : State) (b : Byte), s.input.mem.wf →
    (∃ m : Memory, exec .inClear s = .next { s with input := ⟨m, 0⟩ } ∧ m.wf) ∧
    (s.input.len.toNat ≠ s.params.inCap →
      ∃ m : Memory, exec (.inPush b) s = .next { s with input := ⟨m, s.input.len + 1⟩ } ∧
        ∀ a, m.read a = if a = s.input.len.toNat then b else s.input.mem.read a) ∧
    (s.input.len.toNat = s.params.inCap →
      exec (.inPush b) s = .next { s with status := ⟨6#4, 0x09#8, s.status.degen⟩ })

/-! ## Session openings (41, 42, 43, 44) -/

/-- R147, R163, R223, R43: SINK_INIT, UNIV_BEGIN and HUFF_BEGIN open their session in any SESSION with a fresh output and
NSYM = 0. HUFF_BEGIN clears its own tables; every other piece of state stays as it was. -/
def Obligations.SessionOpeningsStartFresh : Prop :=
  decode 0x1000#16 = .command .sinkInit ∧ decode 0x2000#16 = .command .univBegin ∧ decode 0x4000#16 = .command .huffBegin ∧
  ∀ s : State,
    (∃ o, exec .sinkInit s = .next { s with out := o, nsym := 0, session := .sink } ∧
      o.len = 1 ∧ o.bits = 0 ∧ o.byteOff = 0 ∧ o.bitOff = 7 ∧ o.mem.read 0 = 0) ∧
    (∃ o, exec .univBegin s = .next { s with out := o, nsym := 0, session := .univ } ∧
      o.len = 1 ∧ o.bits = 0 ∧ o.byteOff = 0 ∧ o.bitOff = 7 ∧ o.mem.read 0 = 0) ∧
    ∃ o h, exec .huffBegin s = .next { s with out := o, nsym := 0, session := .huffHist, huf := h } ∧
      o.len = 0 ∧ o.bits = 0 ∧ o.byteOff = 0 ∧ o.bitOff = 7 ∧ h.m = 0 ∧
      ∀ v, tableGet h.hist v = 0 ∧ tableGet h.clen v = 0 ∧ tableGet h.code v = [] ∧ tableGet h.order v = 0

/-- R181: ARITH_CONFIG W sets ARITH_W; in an ARITH session it reports SEQUENCE and ARITH_W stays; a width outside 2..64
reports CONFIG and leaves ARITH_W = 0. Nothing else changes. -/
def Obligations.ArithConfigEffects : Prop :=
  (∀ w : Byte, decode (0x30#8 ++ w) = .command (.arithConfig w)) ∧
  ∀ (s : State) (w : Byte),
    (s.session ≠ .arith → 2 ≤ w.toNat → w.toNat ≤ 64 → exec (.arithConfig w) s = .next { s with arithW := w }) ∧
    (s.session = .arith →
      exec (.arithConfig w) s = .next { s with status := ⟨3#4, 0x30#8, s.status.degen⟩ }) ∧
    (s.session ≠ .arith → w.toNat < 2 ∨ 64 < w.toNat →
      exec (.arithConfig w) s = .next { s with arithW := 0, status := ⟨2#4, 0x30#8, s.status.degen⟩ })

/-- R182: ARITH_BEGIN with a configured width opens a session with LOW = 0, HIGH = 2^W − 1, every frequency 1, DEGEN = 0 and a
fresh sink; without one it reports CONFIG. Nothing else changes. -/
def Obligations.ArithBeginEffects : Prop :=
  decode 0x3100#16 = .command .arithBegin ∧
  ∀ s : State, BaseInv s →
    (s.arithW ≠ 0 → ∃ o a, exec .arithBegin s = .next { s with
        out := o, nsym := 0, session := .arith, ari := a, status := { s.status with degen := false } } ∧
      o.len = 1 ∧ o.bits = 0 ∧ o.byteOff = 0 ∧ o.bitOff = 7 ∧ o.mem.read 0 = 0 ∧
      a.low = 0 ∧ a.high.toNat = 2 ^ s.arithW.toNat - 1 ∧ ∀ v, tableGet a.freq v = 1) ∧
    (s.arithW = 0 → exec .arithBegin s = .next { s with status := ⟨2#4, 0x31#8, s.status.degen⟩ })

/-! ## The bit sink and the universal encoder (41_bit_sink.md, 42_universal.md) -/

/-- R148, R141, R142, R144: SINK_WRITE x in a session with a live sink writes bit x[0] at stream position BITS and advances
BITS and the cursor; no other bit of OUT changes, and no byte but the cursor's and the appended one. Otherwise it reports
SEQUENCE, then OUT_FULL. Nothing else changes. -/
def Obligations.SinkWriteEffects : Prop :=
  decode 0x1100#16 = .command (.sinkWrite 0#8) ∧ decode 0x1101#16 = .command (.sinkWrite 1#8) ∧
  ∀ (s : State) (x : Byte), BaseInv s →
    ((s.session = .sink ∨ s.session = .univ ∨ s.session = .arith) →
      (s.out.bits.toNat + 1) / 8 + 1 ≤ outCap s.params →
      ∃ o, exec (.sinkWrite x) s = .next { s with out := o } ∧
        o.bits.toNat = s.out.bits.toNat + 1 ∧ o.byteOff.toNat = o.bits.toNat / 8 ∧
        o.bitOff.toNat = 7 - o.bits.toNat % 8 ∧ o.len.toNat = o.bits.toNat / 8 + 1 ∧
        (∀ j, outBitAt o j = if j = s.out.bits.toNat then x.getLsbD 0 else outBitAt s.out j) ∧
        ∀ a, a ≠ s.out.byteOff.toNat → (s.out.bitOff = 0 → a ≠ s.out.len.toNat) →
          o.mem.read a = s.out.mem.read a) ∧
    ((s.session = .none ∨ s.session = .huffHist ∨ s.session = .huffEmit) →
      exec (.sinkWrite x) s = .next { s with status := ⟨3#4, 0x11#8, s.status.degen⟩ }) ∧
    ((s.session = .sink ∨ s.session = .univ ∨ s.session = .arith) →
      outCap s.params < (s.out.bits.toNat + 1) / 8 + 1 →
      exec (.sinkWrite x) s = .next { s with status := ⟨7#4, 0x11#8, s.status.degen⟩ })

/-- R160, R161: with L = floor_log2(b + 1) and LL = floor_log2(L + 1), elias(b) is LL zeros, then L + 1 in LL + 1 bits, then the
low L bits of b + 1, most significant bit first; so it has 2·LL + L + 1 bits, from 1 to 15. -/
def Obligations.EliasCodeLength : Prop :=
  ∀ b : Byte,
    let l := Nat.log2 (b.toNat + 1)
    let ll := Nat.log2 (l + 1)
    (elias b).take ll = List.replicate ll false ∧
    bitsValue (((elias b).drop ll).take (ll + 1)) = l + 1 ∧
    bitsValue ((elias b).drop (2 * ll + 1)) = (b.toNat + 1) % 2 ^ l ∧
    (elias b).length = 2 * ll + l + 1 ∧ 1 ≤ (elias b).length ∧ (elias b).length ≤ 15

/-- R162: the code is prefix-free and self-delimiting: no code begins another, and concatenated codes determine the bytes. -/
def Obligations.EliasCodesAreSelfDelimiting : Prop :=
  (∀ b c : Byte, elias b <+: elias c → b = c) ∧
  ∀ bs cs : List Byte, bs.flatMap elias = cs.flatMap elias → bs = cs

/-- R164: UNIV_STEP b writes elias(b) at stream position BITS and counts one symbol; no other bit of OUT changes, no byte
outside the code's, and nothing else. Otherwise it reports SEQUENCE, then SYM_LIMIT, then OUT_FULL. -/
def Obligations.UnivStepEffects : Prop :=
  (∀ b : Byte, decode (0x21#8 ++ b) = .command (.univStep b)) ∧
  ∀ (s : State) (b : Byte), BaseInv s →
    (s.session = .univ → s.nsym.toNat ≠ symMax s.params →
      (s.out.bits.toNat + (elias b).length) / 8 + 1 ≤ outCap s.params →
      ∃ o, exec (.univStep b) s = .next { s with out := o, nsym := s.nsym + 1 } ∧
        o.bits.toNat = s.out.bits.toNat + (elias b).length ∧ CursorInv o ∧ o.len.toNat = o.bits.toNat / 8 + 1 ∧
        (∀ j, outBitAt o j =
          if s.out.bits.toNat ≤ j ∧ j < o.bits.toNat then (elias b).getD (j - s.out.bits.toNat) false
          else outBitAt s.out j) ∧
        ∀ a, a < s.out.byteOff.toNat ∨ o.byteOff.toNat < a → o.mem.read a = s.out.mem.read a) ∧
    (s.session ≠ .univ → exec (.univStep b) s = .next { s with status := ⟨3#4, 0x21#8, s.status.degen⟩ }) ∧
    (s.session = .univ → s.nsym.toNat = symMax s.params →
      exec (.univStep b) s = .next { s with status := ⟨4#4, 0x21#8, s.status.degen⟩ }) ∧
    (s.session = .univ → s.nsym.toNat ≠ symMax s.params →
      outCap s.params < (s.out.bits.toNat + (elias b).length) / 8 + 1 →
      exec (.univStep b) s = .next { s with status := ⟨7#4, 0x21#8, s.status.degen⟩ })

/-- R165, R166: UNIV_ENCODE (word 0x2200) raises no error: it leaves a UNIV session whose output is
elias(IN[0]) ++ elias(IN[1]) ++ … and then zeros, in BITS div 8 + 1 bytes, with NSYM = IN_LEN. Nothing else changes. -/
def Obligations.UnivEncodeWritesEveryCode : Prop :=
  decode 0x2200#16 = .command .univEncode ∧
  ∀ s : State, BaseInv s →
    ∃ o, exec .univEncode s = .next { s with out := o, nsym := s.input.len, session := .univ } ∧
      o.bits.toNat = ((inputBytes s.input).flatMap elias).length ∧
      o.len.toNat = o.bits.toNat / 8 + 1 ∧ CursorInv o ∧
      ∀ j, j < 8 * o.len.toNat → outBitAt o j = ((inputBytes s.input).flatMap elias).getD j false

/-- R167: UNIV_ENCODE's output depends only on IN. -/
def Obligations.UnivEncodeDependsOnlyOnInput : Prop :=
  ∀ s s' t t' : State, BaseInv s → BaseInv s' → inputBytes s.input = inputBytes s'.input →
    exec .univEncode s = .next t → exec .univEncode s' = .next t' → t.out = t'.out

/-! ## The arithmetic encoder (43_arithmetic.md) -/

/-- R195: ARITH_STEP b writes the bits E of the renormalisation at stream position BITS, sets LOW, HIGH and DEGEN as the rule
computes them, adds 1 to FREQ[b] and counts one symbol; nothing else changes. Otherwise it reports SEQUENCE, then SYM_LIMIT,
then OUT_FULL. -/
def Obligations.ArithStepEffects : Prop :=
  (∀ b : Byte, decode (0x32#8 ++ b) = .command (.arithStep b)) ∧
  ∀ (s : State) (b : Byte), BaseInv s →
    let w := s.arithW.toNat
    let n := narrow s.params.scaleMode s.ari b
    let e := renormalise w w (reduceMod w n.1) (reduceMod w n.2)
    let q := secondaryShift s.params.scanFloor.val w e.2.1 e.2.2
    (s.session = .arith → s.nsym.toNat ≠ symMax s.params → (s.out.bits.toNat + e.1.length) / 8 + 1 ≤ outCap s.params →
      ∃ o a, exec (.arithStep b) s = .next { s with
          out := o, ari := a, nsym := s.nsym + 1,
          status := { s.status with degen := s.status.degen || decide (n.2 < n.1) } } ∧
        o.bits.toNat = s.out.bits.toNat + e.1.length ∧ CursorInv o ∧ o.len.toNat = o.bits.toNat / 8 + 1 ∧
        (∀ j, outBitAt o j =
          if s.out.bits.toNat ≤ j ∧ j < o.bits.toNat then e.1.getD (j - s.out.bits.toNat) false else outBitAt s.out j) ∧
        (∀ x, x < s.out.byteOff.toNat ∨ o.byteOff.toNat < x → o.mem.read x = s.out.mem.read x) ∧
        a.low.toNat = q.1 ∧ a.high.toNat = q.2 ∧
        ∀ v, (tableGet a.freq v).toNat = (tableGet s.ari.freq v).toNat + (if v = b then 1 else 0)) ∧
    (s.session ≠ .arith → exec (.arithStep b) s = .next { s with status := ⟨3#4, 0x32#8, s.status.degen⟩ }) ∧
    (s.session = .arith → s.nsym.toNat = symMax s.params →
      exec (.arithStep b) s = .next { s with status := ⟨4#4, 0x32#8, s.status.degen⟩ }) ∧
    (s.session = .arith → s.nsym.toNat ≠ symMax s.params →
      outCap s.params < (s.out.bits.toNat + e.1.length) / 8 + 1 →
      exec (.arithStep b) s = .next { s with status := ⟨7#4, 0x32#8, s.status.degen⟩ })

/-- R196, R200: ARITH_ENCODE with a configured width raises no error: it leaves an ARITH session with NSYM = IN_LEN,
FREQ[v] = 1 + the number of v in IN, and Σ FREQ = 256 + IN_LEN; without a width it reports CONFIG and changes nothing else. -/
def Obligations.ArithEncodeEffects : Prop :=
  ∀ s : State, BaseInv s →
    (s.arithW ≠ 0 → ∃ t, exec .arithEncode s = .next t ∧
      t = { s with out := t.out, ari := t.ari, nsym := s.input.len, session := .arith,
                   status := { s.status with degen := t.status.degen } } ∧
      t.out.len.toNat = t.out.bits.toNat / 8 + 1 ∧ t.out.bits.toNat ≤ s.arithW.toNat * s.input.len.toNat ∧
      (∀ v, (tableGet t.ari.freq v).toNat = 1 + (inputBytes s.input).count v) ∧
      countTotal t.ari.freq = 256 + s.input.len.toNat) ∧
    (s.arithW = 0 → exec .arithEncode s = .next { s with status := ⟨2#4, 0x33#8, s.status.degen⟩ })

/-- R201: ARITH_ENCODE's output depends only on IN, W, SCALE_MODE and SCAN_FLOOR. -/
def Obligations.ArithEncodeDependsOnlyOnInputAndWidth : Prop :=
  ∀ s s' t t' : State, BaseInv s → BaseInv s' → s.arithW ≠ 0 → s'.arithW = s.arithW →
    s'.params.scaleMode = s.params.scaleMode → s'.params.scanFloor = s.params.scanFloor →
    inputBytes s'.input = inputBytes s.input →
    exec .arithEncode s = .next t → exec .arithEncode s' = .next t' → t.out = t'.out ∧ t.ari = t'.ari

/-- R192: the renormalisation loop emits at most W bits and ends with top bits that differ, from any lo and hi. -/
def Obligations.RenormalisationEndsWithinTheWidth : Prop :=
  ∀ w lo hi : Nat, 1 ≤ w → lo < 2 ^ w → hi < 2 ^ w →
    (renormalise w w lo hi).1.length ≤ w ∧
    (renormalise w w lo hi).2.1 < 2 ^ w ∧ (renormalise w w lo hi).2.2 < 2 ^ w ∧
    (renormalise w w lo hi).2.1.testBit (w - 1) ≠ (renormalise w w lo hi).2.2.testBit (w - 1) ∧
    (renormalise w w lo hi).2.1 % 2 ^ (renormalise w w lo hi).1.length = 0 ∧
    (renormalise w w lo hi).2.2 % 2 ^ (renormalise w w lo hi).1.length = 2 ^ (renormalise w w lo hi).1.length - 1

/-- R198: the source keeps low and high as unbounded integers through the renormalisation and the scan, and masks them in
the secondary shift. That reading emits the same bits and leaves the same LOW and HIGH as the W-bit registers, provided the mask
is applied also when k = 0 (decision D16), as `sourceShift` does. -/
def Obligations.ReductionIsFaithfulToTheSource : Prop :=
  ∀ (w floor : Nat) (nl nh : Int), 1 ≤ w →
    let r := renormalise w w (reduceMod w nl) (reduceMod w nh)
    let u := sourceRenormalise w w nl nh
    r.1 = u.1 ∧ secondaryShift floor w r.2.1 r.2.2 = sourceShift floor w u.2.1 u.2.2

/-- R186: `fdiv`, `tofloat` and `fmul` give the binary64 value nearest to the exact result, ties to even, negative operands
included; `tofloat` is exact up to 2^53, `floor` is the exact floor, and the FLOAT64 bounds nL and nH are LOW plus the floors of
these operations, the quotient first (R183, R184, R188). Results lie between 2^−1000 and 2^1000: the model leaves overflow out
(log 10). -/
def Obligations.RoundingIsToNearest : Prop :=
  (∀ a b : Nat, 0 < b → binaryValue (fdiv 0 b) = 0 ∧
    (0 < a → b ≤ a * 2 ^ 1000 → a ≤ b * 2 ^ 1000 → RoundsTo ((a : ℚ) / b) (fdiv a b))) ∧
  (∀ r : Int, (r.natAbs ≤ 2 ^ 53 → binaryValue (toFloat r) = r) ∧
    (r ≠ 0 → r.natAbs ≤ 2 ^ 1000 → RoundsTo r (toFloat r))) ∧
  (∀ x y : Binary64, (binaryValue x * binaryValue y = 0 → binaryValue (fmul x y) = 0) ∧
    (1 ≤ |binaryValue x * binaryValue y| * 2 ^ 1000 → |binaryValue x * binaryValue y| ≤ 2 ^ 1000 →
      RoundsTo (binaryValue x * binaryValue y) (fmul x y))) ∧
  (∀ x : Binary64, floorFloat x = ⌊binaryValue x⌋) ∧
  ∀ (a : Arith) (b : Byte),
    let c := freqSum a.freq b.toNat
    let f := (tableGet a.freq b).toNat
    let t := freqSum a.freq 256
    let r : Int := (a.high.toNat : Int) - (a.low.toNat : Int) + 1
    1 ≤ t →
      (narrow .float64 a b).1 = (a.low.toNat : Int) + ⌊binaryValue (fmul (fdiv c t) (toFloat r))⌋ ∧
      (narrow .float64 a b).2 = (a.low.toNat : Int) + ⌊binaryValue (fmul (fdiv (c + f) t) (toFloat r))⌋ - 1

/-- R186: at the ends of the model the FLOAT64 offsets are exact: oL = 0 where C = 0 (so for b = 0), and oH = R where C + f = T
(so for b = 255) and |R| ≤ 2^53. -/
def Obligations.FloatScalingIsExactAtTheEnds : Prop :=
  ∀ (t : Nat) (r : Int), 1 ≤ t →
    scaleFloat 0 t r = 0 ∧ (r.natAbs ≤ 2 ^ 53 → scaleFloat t t r = r)

/-- R183, R184, R187, R188: with C = Σ FREQ[v] over v < b, f = FREQ[b], T = Σ FREQ[v] and R = HIGH − LOW + 1, INTEGER narrowing is
nL = LOW + floor(C·R / T) and nH = LOW + floor((C + f)·R / T) − 1, also when R ≤ 0. From an interval with LOW ≤ HIGH it stays inside
it, and it is degenerate exactly when oH = oL (R189, R198). -/
def Obligations.IntegerNarrowingStaysInside : Prop :=
  ∀ (a : Arith) (b : Byte),
    let c := freqSum a.freq b.toNat
    let f := (tableGet a.freq b).toNat
    let t := freqSum a.freq 256
    let r : Int := (a.high.toNat : Int) - (a.low.toNat : Int) + 1
    let n := narrow .integer a b
    1 ≤ t →
      n.1 = (a.low.toNat : Int) + ⌊(c : ℚ) * (r : ℚ) / (t : ℚ)⌋ ∧
      n.2 = (a.low.toNat : Int) + ⌊((c + f : ℕ) : ℚ) * (r : ℚ) / (t : ℚ)⌋ - 1 ∧
      (a.low.toNat ≤ a.high.toNat →
        (a.low.toNat : Int) ≤ n.1 ∧ n.2 ≤ (a.high.toNat : Int) ∧ n.1 ≤ n.2 + 1 ∧ (n.2 < n.1 ↔ n.2 + 1 = n.1))

/-- R189: a step is degenerate whenever R ≤ 0, that is whenever LOW > HIGH at its start, in both scale modes. -/
def Obligations.InvertedIntervalIsDegenerate : Prop :=
  ∀ (m : ScaleMode) (a : Arith) (b : Byte), 1 ≤ countTotal a.freq → a.high.toNat < a.low.toNat →
    (narrow m a b).2 < (narrow m a b).1

/-- R199: LOW ≤ HIGH does not hold: at W = 32 with FLOAT64 scaling, ARITH_ENCODE of the input 0x00, 0x01 ends with LOW > HIGH, and no
step of it is degenerate. -/
def Obligations.LowCanExceedHigh : Prop :=
  ∀ s : State, BaseInv s → s.arithW = 32#8 → s.params.scaleMode = .float64 → s.params.scanFloor = 0 →
    inputBytes s.input = [0x00#8, 0x01#8] →
    ∃ t, exec .arithEncode s = .next t ∧ t.ari.low = 0xFF00FF00#64 ∧ t.ari.high = 0x7E817E7F#64 ∧ t.status.degen = false

/-! ## The Huffman encoder (44_huffman.md) -/

/-- R224: HUFF_COUNT b adds 1 to HIST[b] and counts one symbol; the first occurrence of b takes rank HUFF_M of ORDER. Nothing
else changes. Otherwise it reports SEQUENCE, then SYM_LIMIT. -/
def Obligations.HuffCountEffects : Prop :=
  (∀ b : Byte, decode (0x41#8 ++ b) = .command (.huffCount b)) ∧
  ∀ (s : State) (b : Byte), Inv s →
    (s.session = .huffHist → s.nsym.toNat ≠ symMax s.params →
      ∃ h, exec (.huffCount b) s = .next { s with huf := h, nsym := s.nsym + 1 } ∧
        (∀ v, (tableGet h.hist v).toNat = (tableGet s.huf.hist v).toNat + (if v = b then 1 else 0)) ∧
        h.clen = s.huf.clen ∧ h.code = s.huf.code ∧
        (tableGet s.huf.hist b ≠ 0 → h.order = s.huf.order ∧ h.m = s.huf.m) ∧
        (tableGet s.huf.hist b = 0 → h.m.toNat = s.huf.m.toNat + 1 ∧ s.huf.m.toNat < 256 ∧
          ∀ i : Byte, tableGet h.order i = if i.toNat = s.huf.m.toNat then b else tableGet s.huf.order i)) ∧
    (s.session ≠ .huffHist → exec (.huffCount b) s = .next { s with status := ⟨3#4, 0x41#8, s.status.degen⟩ }) ∧
    (s.session = .huffHist → s.nsym.toNat = symMax s.params →
      exec (.huffCount b) s = .next { s with status := ⟨4#4, 0x41#8, s.status.degen⟩ })

/-- R225: in both leaf orders the leaf list holds each present value once and no other, in increasing value under
ASCENDING_VALUE; under FIRST_OCCURRENCE its i-th value is ORDER[i]. -/
def Obligations.LeafListHoldsThePresentValues : Prop :=
  ∀ (o : LeafOrder) (h : Huff), OrderInv h →
    (leafList o h).Nodup ∧ (∀ v, v ∈ leafList o h ↔ tableGet h.hist v ≠ 0) ∧ (leafList o h).length = h.m.toNat ∧
    (leafList .ascendingValue h).Pairwise (fun u v => u.toNat < v.toNat) ∧
    ∀ i : Byte, i.toNat < h.m.toNat → (leafList .firstOccurrence h)[i.toNat]? = some (tableGet h.order i)

/-- R230, R226 to R228: HUFF_BUILD enters HUFF_EMIT, gives every present value the code of the leaf list's code generation and its
length, and leaves every other piece of state as it was; outside HUFF_HIST it reports SEQUENCE. With two or more leaves the codes
are those of HUFF_M − 1 merges from the leaves to one node, each of the two nodes that precede all others, 0 to the first popped
and 1 to the second; with one leaf the code is SINGLE_CODE. -/
def Obligations.HuffBuildEffects : Prop :=
  decode 0x4200#16 = .command .huffBuild ∧
  ∀ s : State, Inv s →
    (s.session = .huffHist →
      ∃ h, exec .huffBuild s = .next { s with huf := h, session := .huffEmit } ∧
        h.hist = s.huf.hist ∧ h.order = s.huf.order ∧ h.m = s.huf.m ∧
        (∀ v, (tableGet s.huf.hist v = 0 → tableGet h.code v = tableGet s.huf.code v ∧ tableGet h.clen v = 0) ∧
          (tableGet s.huf.hist v ≠ 0 →
            tableGet h.code v =
              tableGet (codesOf s.params.singleCode s.huf.hist (leafList s.params.leafOrder s.huf)) v ∧
            (tableGet h.clen v).toNat = (tableGet h.code v).length ∧
            (s.huf.m.toNat = 1 → tableGet h.code v = [s.params.singleCode]))) ∧
        (2 ≤ s.huf.m.toNat →
          ∃ m0 m1, MergeStart s.huf.hist (leafList s.params.leafOrder s.huf) m0 ∧ MergeChain (s.huf.m.toNat - 1) m0 m1 ∧
            m1.queue.length = 1 ∧
            ∀ v, tableGet s.huf.hist v ≠ 0 → tableGet h.code v = tableGet m1.codes v)) ∧
    (s.session ≠ .huffHist → exec .huffBuild s = .next { s with status := ⟨3#4, 0x42#8, s.status.degen⟩ })

/-- R228, R229: with one present value HUFF_BUILD gives it the one-bit code SINGLE_CODE; with none it assigns no code, and
HUFF_EMIT of any value then reports NOCODE. -/
def Obligations.SmallHistogramsHaveTheirCodes : Prop :=
  ∀ s t : State, Inv s → s.session = .huffHist → exec .huffBuild s = .next t →
    (∀ v, (∀ u, tableGet s.huf.hist u ≠ 0 ↔ u = v) →
      tableGet t.huf.code v = [s.params.singleCode] ∧ (tableGet t.huf.clen v).toNat = 1) ∧
    ((∀ u, tableGet s.huf.hist u = 0) →
      ∀ b, exec (.huffEmit b) t = .next { t with status := ⟨5#4, 0x43#8, t.status.degen⟩ })

/-- R231: with at least two present values, every present value's code has 1 to HUFF_M − 1 bits, and the codes fill the tree:
Σ 2^(−CLEN[v]) over the present values is 1. With one present value its code has one bit. -/
def Obligations.CodeLengthsFillTheTree : Prop :=
  ∀ s t : State, Inv s → s.session = .huffHist → exec .huffBuild s = .next t →
    (2 ≤ t.huf.m.toNat →
      (∀ v, tableGet t.huf.hist v ≠ 0 → 1 ≤ (tableGet t.huf.clen v).toNat ∧
        (tableGet t.huf.clen v).toNat ≤ t.huf.m.toNat - 1 ∧ t.huf.m.toNat - 1 ≤ 255) ∧
      ((allBytes.filter (fun v => tableGet t.huf.hist v ≠ 0)).map
        (fun v => 2 ^ (255 - (tableGet t.huf.clen v).toNat))).sum = 2 ^ 255) ∧
    (t.huf.m.toNat = 1 → ∀ v, tableGet t.huf.hist v ≠ 0 → (tableGet t.huf.clen v).toNat = 1)

/-- R232: the codes of the present values are prefix-free. -/
def Obligations.HuffmanCodesArePrefixFree : Prop :=
  ∀ s t : State, Inv s → s.session = .huffHist → exec .huffBuild s = .next t →
    ∀ u v, tableGet t.huf.hist u ≠ 0 → tableGet t.huf.hist v ≠ 0 → u ≠ v →
      ¬ tableGet t.huf.code u <+: tableGet t.huf.code v

/-- R233, R222: HUFF_EMIT b writes CODE[b] at stream position BITS; no other bit of OUT changes, no byte outside the code's,
and nothing else. Otherwise it reports SEQUENCE, then NOCODE, then OUT_FULL. -/
def Obligations.HuffEmitEffects : Prop :=
  (∀ b : Byte, decode (0x43#8 ++ b) = .command (.huffEmit b)) ∧
  ∀ (s : State) (b : Byte), Inv s →
    (s.session = .huffEmit → tableGet s.huf.clen b ≠ 0 →
      (s.out.bits.toNat + (tableGet s.huf.clen b).toNat + 7) / 8 ≤ outCap s.params →
      ∃ o, exec (.huffEmit b) s = .next { s with out := o } ∧
        o.bits.toNat = s.out.bits.toNat + (tableGet s.huf.clen b).toNat ∧ CursorInv o ∧
        o.len.toNat = (o.bits.toNat + 7) / 8 ∧
        (∀ j, outBitAt o j =
          if s.out.bits.toNat ≤ j ∧ j < o.bits.toNat then (tableGet s.huf.code b).getD (j - s.out.bits.toNat) false
          else outBitAt s.out j) ∧
        ∀ a, a < s.out.byteOff.toNat ∨ o.len.toNat ≤ a → o.mem.read a = s.out.mem.read a) ∧
    (s.session ≠ .huffEmit → exec (.huffEmit b) s = .next { s with status := ⟨3#4, 0x43#8, s.status.degen⟩ }) ∧
    (s.session = .huffEmit → tableGet s.huf.clen b = 0 →
      exec (.huffEmit b) s = .next { s with status := ⟨5#4, 0x43#8, s.status.degen⟩ }) ∧
    (s.session = .huffEmit → tableGet s.huf.clen b ≠ 0 →
      outCap s.params < (s.out.bits.toNat + (tableGet s.huf.clen b).toNat + 7) / 8 →
      exec (.huffEmit b) s = .next { s with status := ⟨7#4, 0x43#8, s.status.degen⟩ })

/-- R234, R235: HUFF_ENCODE raises no error: it leaves HUFF_EMIT with the histogram of IN, NSYM = IN_LEN,
BITS = Σ HIST[v]·CLEN[v] as the concatenated codes of IN, in ceil(BITS / 8) bytes. Nothing else changes. -/
def Obligations.HuffEncodeWritesEveryCode : Prop :=
  ∀ s : State, BaseInv s →
    ∃ o h, exec .huffEncode s = .next { s with out := o, huf := h, nsym := s.input.len, session := .huffEmit } ∧
      (∀ v, (tableGet h.hist v).toNat = (inputBytes s.input).count v) ∧
      o.bits.toNat = (allBytes.map (fun v => (tableGet h.hist v).toNat * (tableGet h.clen v).toNat)).sum ∧
      o.len.toNat = (o.bits.toNat + 7) / 8 ∧ CursorInv o ∧
      ∀ j, j < 8 * o.len.toNat → outBitAt o j = ((inputBytes s.input).flatMap (tableGet h.code)).getD j false

/-! ## The whole machine -/

/-- R165, R196, R234, R273: a composite ENCODE that reports no error leaves what its BEGIN and STEP commands leave, sent one by
one. -/
def Obligations.CompositeEncodeIsItsSingleSteps : Prop :=
  ∀ s t : State, t.status.err = 0 →
    (exec .univEncode s = .next t →
      runCommands (.univBegin :: (inputBytes s.input).map .univStep) s = .next t) ∧
    (exec .arithEncode s = .next t →
      runCommands (.arithBegin :: (inputBytes s.input).map .arithStep) s = .next t) ∧
    (exec .huffEncode s = .next t →
      runCommands (.huffBegin :: (inputBytes s.input).map .huffCount ++ .huffBuild :: (inputBytes s.input).map .huffEmit) s
        = .next t)

/-- R22, R27, R34 to R40, R43, R298: which commands write which state; every other command leaves it as it was. -/
def Obligations.StateIsWrittenOnlyByItsCommands : Prop :=
  ∀ (i : Instr) (s t : State), exec i s = .next t →
    t.params = s.params ∧ t.host = s.host ∧
    (writesInput i = false → t.input = s.input) ∧ (writesOutput i = false → t.out = s.out) ∧
    (writesNsym i = false → t.nsym = s.nsym) ∧ (writesSession i = false → t.session = s.session) ∧
    (writesWidth i = false → t.arithW = s.arithW) ∧ (writesArith i = false → t.ari = s.ari) ∧
    (writesHuff i = false → t.huf = s.huf) ∧ (writesDegen i = false → t.status.degen = s.status.degen)

/-- R262, R260: an error of a single command is precise: it records the command's OPC with its code and changes nothing else,
but that ARITH_CONFIG's CONFIG also sets ARITH_W to 0. -/
def Obligations.ErrorsArePrecise : Prop :=
  ∀ (i : Instr) (s t : State), composite i = false → s.status.err = 0 → exec i s = .next t → t.status.err ≠ 0 →
    t = { s with arithW := t.arithW, status := ⟨t.status.err, i.opc, s.status.degen⟩ } ∧
    (t.arithW ≠ s.arithW → t.arithW = 0 ∧ t.status.err = 2#4 ∧ ∃ w, i = .arithConfig w)

/-- R263, R265: while STATUS.ERR ≠ 0 a step keeps ERR and ERR_OP or clears both. -/
def Obligations.FirstErrorIsKept : Prop :=
  ∀ s t : State, s.status.err ≠ 0 → step s = .next t →
    t.status = s.status ∨ t.status.err = 0 ∧ t.status.errOp = 0

/-- R44 item 9, R145: a bit of OUT once 1 stays 1 until a session-opening command or SOFT_RESET. -/
def Obligations.OutputBitsStaySet : Prop :=
  ∀ (i : Instr) (s t : State), BaseInv s → exec i s = .next t → opensSession i = false →
    s.out.bits.toNat ≤ t.out.bits.toNat ∧ ∀ j, outBitAt s.out j = true → outBitAt t.out j = true

/-- R44, R290: the invariant of the machine holds at reset, for every legal instance and any host. -/
def Obligations.InvariantHoldsAtReset : Prop :=
  ∀ (p : Params) (h : HostSide), p.Legal → Inv (State.initial p h)

/-- R6, R8: every step keeps the storage of IN and OUT in its canonical form and the parameters as they are. -/
def Obligations.StepKeepsStorageCanonical : Prop :=
  ∀ s t : State, s.input.mem.wf → s.out.mem.wf → step s = .next t →
    t.input.mem.wf ∧ t.out.mem.wf ∧ t.params = s.params

/-- R44, R22 to R36: every step keeps the invariant of STATUS, the buffers, the cursor, the lengths, the symbol count and the
arithmetic encoder. -/
def Obligations.StepKeepsTheBaseInvariant : Prop :=
  ∀ s t : State, BaseInv s → step s = .next t → BaseInv t

/-- R44, R37 to R40: every step keeps the invariant of the Huffman tables. -/
def Obligations.StepKeepsTheHuffmanInvariant : Prop :=
  ∀ s t : State, Inv s → step s = .next t → HuffInv t

/-- R274, R293: valid use raises no error: IN_CLEAR and IN_PUSH that hold at most IN_CAP bytes, legal ARITH_CONFIGs outside ARITH
sessions, UNIV_ENCODE, HUFF_ENCODE and, once a width is configured, ARITH_ENCODE, in any order and number. IN then holds the bytes
pushed since the last IN_CLEAR and ARITH_W the last width configured. -/
def Obligations.ValidUseRaisesNoError : Prop :=
  ∀ (s : State) (l : List Instr), BaseInv s → s.status.err = 0 →
    validUse s.params.inCap s.input.len.toNat (decide (s.arithW ≠ 0)) (decide (s.session = .arith)) l = true →
    ∃ t, runCommands l s = .next t ∧ t.status.err = 0 ∧
      inputBytes t.input = l.foldl loadedBytes (inputBytes s.input) ∧ t.arithW = l.foldl configuredWidth s.arithW

/-- R237: the codes HUFF_BUILD assigns depend only on HIST, on ORDER under FIRST_OCCURRENCE, and on SINGLE_CODE; HUFF_ENCODE of the
same IN gives the same output and tables; "AAAABBBCCD" gives code lengths 1, 2, 3, 3, in both leaf orders. -/
def Obligations.HuffEncodeDependsOnlyOnInput : Prop :=
  (∀ s s' t t' : State, Inv s → Inv s' → s.session = .huffHist → s'.session = .huffHist →
    s'.huf.hist = s.huf.hist → s'.params.leafOrder = s.params.leafOrder →
    (s.params.leafOrder = .firstOccurrence → s'.huf.order = s.huf.order) →
    s'.params.singleCode = s.params.singleCode →
    exec .huffBuild s = .next t → exec .huffBuild s' = .next t' →
    t'.huf.code = t.huf.code ∧ t'.huf.clen = t.huf.clen) ∧
  (∀ s s' t t' : State, BaseInv s → BaseInv s' → inputBytes s'.input = inputBytes s.input →
    s'.params.leafOrder = s.params.leafOrder → s'.params.singleCode = s.params.singleCode →
    exec .huffEncode s = .next t → exec .huffEncode s' = .next t' → t'.out = t.out ∧ t'.huf = t.huf) ∧
  ∀ s : State, BaseInv s →
    inputBytes s.input =
      [0x41#8, 0x41#8, 0x41#8, 0x41#8, 0x42#8, 0x42#8, 0x42#8, 0x43#8, 0x43#8, 0x44#8] →
    ∃ t, exec .huffEncode s = .next t ∧ tableGet t.huf.clen 0x41#8 = 1 ∧ tableGet t.huf.clen 0x42#8 = 2 ∧
      tableGet t.huf.clen 0x43#8 = 3 ∧ tableGet t.huf.clen 0x44#8 = 3
end

