-- ==== Sys2Proof/Laws/Table.lean ====
section
/-! SUPPORT. The laws of the byte-indexed tables: read after write, and how a sum over a table changes with one entry. -/

namespace Sys2Proof.Machine

@[simp] theorem tableGet_tableAll {α : Type} (x : α) (b : Byte) : tableGet (tableAll x) b = x := by
  simp [tableGet, tableAll]

/-- A read after a write. -/
theorem tableGet_tableSet {α : Type} (t : Table α) (b : Byte) (x : α) (c : Byte) :
    tableGet (tableSet t b x) c = if b = c then x else tableGet t c := by
  simp only [tableGet, tableSet, Vector.getElem_set]
  by_cases h : b = c
  · simp [h]
  · have : b.toNat ≠ c.toNat := fun hn => h (BitVec.eq_of_toNat_eq hn)
    simp [h, this]

@[simp] theorem tableGet_tableSet_same {α : Type} (t : Table α) (b : Byte) (x : α) :
    tableGet (tableSet t b x) b = x := by simp [tableGet_tableSet]

theorem tableGet_tableSet_other {α : Type} (t : Table α) (b c : Byte) (x : α) (h : b ≠ c) :
    tableGet (tableSet t b x) c = tableGet t c := by simp [tableGet_tableSet, h]

/-- Tables with the same entries are the same. -/
theorem table_ext {α : Type} (t u : Table α) (h : ∀ b, tableGet t b = tableGet u b) : t = u := by
  refine Vector.ext fun i hi => ?_
  have := h (BitVec.ofNat 8 i)
  have hm : i % 256 = i := Nat.mod_eq_of_lt hi
  simpa [tableGet, BitVec.toNat_ofNat, hm] using this

/-- The sum of a list after one element changes. -/
theorem sum_set (l : List Nat) (i x : Nat) (h : i < l.length) : (l.set i x).sum + l[i] = l.sum + x := by
  induction l generalizing i with
  | nil => simp at h
  | cons a rest ih =>
    cases i with
    | zero => simp only [List.set_cons_zero, List.sum_cons, List.getElem_cons_zero]; omega
    | succ i =>
      have := ih i (by simpa using h)
      simp only [List.set_cons_succ, List.sum_cons, List.getElem_cons_succ]
      omega

/-- The sum of a table's entries, as FREQ's and HIST's totals take it. -/
def tableSum (t : Table Word64) : Nat := (t.toList.map BitVec.toNat).sum

theorem countTotal_eq (t : Table Word64) : countTotal t = tableSum t := rfl

theorem histTotal_eq (h : Huff) : histTotal h = tableSum h.hist := rfl

/-- One entry's change is the sum's change. -/
theorem tableSum_tableSet (t : Table Word64) (b : Byte) (x : Word64) :
    tableSum (tableSet t b x) + (tableGet t b).toNat = tableSum t + x.toNat := by
  have hlen : b.toNat < (t.toList.map BitVec.toNat).length := by
    have := b.isLt; simp only [List.length_map, Vector.length_toList]; omega
  have := sum_set (t.toList.map BitVec.toNat) b.toNat x.toNat hlen
  simpa [tableSum, tableSet, tableGet, Vector.toList_set, List.map_set] using this

/-- One entry is at most the sum. -/
theorem tableGet_le_tableSum (t : Table Word64) (b : Byte) : (tableGet t b).toNat ≤ tableSum t := by
  refine List.single_le_sum (by simp) _ ?_
  simp only [List.mem_map]
  exact ⟨tableGet t b, by simp [tableGet], rfl⟩

theorem tableSum_tableAll (x : Word64) : tableSum (tableAll x) = 256 * x.toNat := by
  simp only [tableSum, tableAll, Vector.toList_replicate, List.map_replicate, List.sum_replicate, smul_eq_mul]

/-- One more on an entry that does not overflow is one more on the sum. -/
theorem tableSum_increment (t : Table Word64) (b : Byte) (h : tableSum t < 2 ^ 64 - 1) :
    tableSum (tableSet t b (tableGet t b + 1)) = tableSum t + 1 := by
  have h1 := tableSum_tableSet t b (tableGet t b + 1)
  have h2 := tableGet_le_tableSum t b
  have h3 : (tableGet t b + 1).toNat = (tableGet t b).toNat + 1 := by
    rw [BitVec.toNat_add, Nat.mod_eq_of_lt] <;> simp
    omega
  omega

end Sys2Proof.Machine
end

