-- ==== Sys2Proof/Laws/Arithmetic.lean ====
section
/-! SUPPORT. The ranges of the arithmetic encoder's registers (spec/43_arithmetic.md R191, R193). -/

namespace Sys2Proof.Machine

/-- The first n entries of a table, by index. -/
theorem take_eq_range {α : Type} (t : Table α) (n : Nat) (hn : n ≤ 256) :
    t.toList.take n = (List.range n).map (fun v => tableGet t (BitVec.ofNat 8 v)) := by
  refine List.ext_getElem (by simp [hn]) fun i h1 h2 => ?_
  have hi : i < 256 := by simp at h1; omega
  simp [tableGet, Nat.mod_eq_of_lt hi]

/-- C as the sum of R183. -/
theorem countBelow_eq_freqSum (t : Table Word64) (b : Byte) : countBelow t b = freqSum t b.toNat := by
  simp [countBelow, freqSum, take_eq_range t b.toNat (by omega), Function.comp_def]

/-- T as the sum of R183. -/
theorem countTotal_eq_freqSum (t : Table Word64) : countTotal t = freqSum t 256 := by
  have h := take_eq_range t 256 le_rfl
  rw [List.take_of_length_le (by simp)] at h
  simp [countTotal, freqSum, h, Function.comp_def]

theorem reduceMod_lt (w : Nat) (v : Int) : reduceMod w v < 2 ^ w := by
  have h : (0 : Int) < 2 ^ w := by positivity
  have h1 := Int.emod_nonneg v h.ne'
  have h2 := Int.emod_lt_of_pos v h
  show (v % 2 ^ w).toNat < 2 ^ w
  zify
  rw [Int.toNat_of_nonneg h1]
  exact h2

theorem shiftLow_lt (w lo : Nat) : shiftLow w lo < 2 ^ w := Nat.mod_lt _ (by positivity)

theorem shiftHigh_lt (w hi : Nat) : shiftHigh w hi < 2 ^ w := Nat.mod_lt _ (by positivity)

/-- The loop keeps lo and hi within W bits (R191). -/
theorem renormalise_lt (w fuel lo hi : Nat) (h1 : lo < 2 ^ w) (h2 : hi < 2 ^ w) :
    (renormalise w fuel lo hi).2.1 < 2 ^ w ∧ (renormalise w fuel lo hi).2.2 < 2 ^ w := by
  induction fuel generalizing lo hi with
  | zero => exact ⟨h1, h2⟩
  | succ n ih =>
    unfold renormalise; split
    · exact ih _ _ (shiftLow_lt _ _) (shiftHigh_lt _ _)
    · exact ⟨h1, h2⟩

/-- One bit is emitted per turn (R191). -/
theorem renormalise_length_le (w fuel lo hi : Nat) : (renormalise w fuel lo hi).1.length ≤ fuel := by
  induction fuel generalizing lo hi with
  | zero => simp [renormalise]
  | succ n ih =>
    unfold renormalise; split
    · simpa using ih _ _
    · simp

theorem scanCount_le (floor lo hi n : Nat) : scanCount floor lo hi n ≤ n := by
  induction n with
  | zero => simp [scanCount]
  | succ n ih => unfold scanCount; split <;> omega

/-- The secondary shift leaves LOW and HIGH within W bits, whatever it starts from (R193). -/
theorem secondaryShift_lt (floor w lo hi : Nat) (hw : 1 ≤ w) :
    (secondaryShift floor w lo hi).1 < 2 ^ w ∧ (secondaryShift floor w lo hi).2 < 2 ^ w := by
  unfold secondaryShift
  refine ⟨Nat.mod_lt _ (by positivity), ?_⟩
  have h1 := scanCount_le floor lo hi (w - 1)
  have h2 : 2 ^ scanCount floor lo hi (w - 1) ≤ 2 ^ w := Nat.pow_le_pow_right (by omega) (by omega)
  have h3 : 0 < 2 ^ scanCount floor lo hi (w - 1) := by positivity
  exact Nat.or_lt_two_pow (Nat.mod_lt _ (by positivity)) (by omega)

end Sys2Proof.Machine
end

