-- ==== Sys2Proof/Laws/Memory.lean ====
section
/-! SUPPORT. The laws of storage: a read after a write, and the canonical form that every memory operation keeps. -/

namespace Sys2Proof.Machine

@[simp] theorem Memory.read_empty (a : Nat) : Memory.empty.read a = 0 := rfl

theorem Memory.wf_empty : Memory.empty.wf := ⟨.nil, by simp [Memory.empty]⟩

/-- Below every listed address storage reads as unlisted. -/
theorem readCells_below (l : List Host.Cell) (a : Nat) (h : ∀ c ∈ l, a < c.1) : readCells l a = unlistedByte := by
  induction l with
  | nil => rfl
  | cons c rest ih =>
    obtain ⟨k, x⟩ := c
    have hk : a < k := h (k, x) (by simp)
    simp only [readCells, if_neg (by omega : ¬ k = a)]
    exact ih fun c hc => h c (by simp [hc])

/-- A cell put in front of higher ones reads back, whether or not it is listed. -/
theorem readCells_consCell (l : List Host.Cell) (a : Nat) (v : Byte) (b : Nat) (h : ∀ c ∈ l, a < c.1) :
    readCells (consCell a v l) b = if a = b then v else readCells l b := by
  unfold consCell
  split
  · next hv =>
    split
    · next hab => subst hab hv; exact readCells_below l a h
    · rfl
  · rfl

/-- Writing one address of a sorted cell list: that address reads as written, every other one as before. -/
theorem readCells_writeCells (l : List Host.Cell) (a : Nat) (v : Byte) (b : Nat)
    (h : l.Pairwise (fun c d => c.1 < d.1)) :
    readCells (writeCells l a v) b = if a = b then v else readCells l b := by
  induction l with
  | nil => exact readCells_consCell [] a v b (by simp)
  | cons c rest ih =>
    obtain ⟨k, x⟩ := c
    obtain ⟨hk, hrest⟩ := List.pairwise_cons.mp h
    simp only [writeCells]
    split
    · next hlt =>
      refine readCells_consCell _ a v b fun c hc => ?_
      rcases List.mem_cons.mp hc with rfl | hc
      · exact hlt
      · have := hk c hc; simp only at this; omega
    · split
      · next heq =>
        subst heq
        rw [readCells_consCell rest a v b fun c hc => hk c hc]
        by_cases hab : a = b <;> simp [hab, readCells]
      · next hlt hne =>
        simp only [readCells, ih hrest]
        by_cases hkb : k = b <;> by_cases hab : a = b <;> simp [hkb, hab]
        omega

/-- The addresses a write lists are the written one and those listed before. -/
theorem mem_writeCells (l : List Host.Cell) (a : Nat) (v : Byte) (c : Host.Cell) (hc : c ∈ writeCells l a v) :
    (c = (a, v) ∧ v ≠ unlistedByte) ∨ c ∈ l := by
  induction l with
  | nil =>
    simp only [writeCells, consCell] at hc
    split at hc <;> simp_all
  | cons d rest ih =>
    obtain ⟨k, x⟩ := d
    simp only [writeCells, consCell] at hc
    split at hc
    · split at hc <;> simp_all
    · split at hc
      · split at hc <;> simp_all
        tauto
      · rcases List.mem_cons.mp hc with rfl | hc
        · simp
        · rcases ih hc with h | h
          · exact .inl h
          · simp [h]

/-- Writing keeps the addresses strictly rising. -/
theorem writeCells_sorted (l : List Host.Cell) (a : Nat) (v : Byte) (h : l.Pairwise (fun c d => c.1 < d.1)) :
    (writeCells l a v).Pairwise (fun c d => c.1 < d.1) := by
  induction l with
  | nil => simp only [writeCells, consCell]; split <;> simp
  | cons d rest ih =>
    obtain ⟨k, x⟩ := d
    obtain ⟨hk, hrest⟩ := List.pairwise_cons.mp h
    simp only [writeCells]
    split
    · next hlt =>
      unfold consCell
      split
      · exact h
      · refine List.pairwise_cons.mpr ⟨fun c hc => ?_, h⟩
        rcases List.mem_cons.mp hc with rfl | hc
        · exact hlt
        · have := hk c hc; simp only at this ⊢; omega
    · split
      · next heq =>
        subst heq
        unfold consCell
        split
        · exact hrest
        · exact List.pairwise_cons.mpr ⟨hk, hrest⟩
      · next hlt hne =>
        refine List.pairwise_cons.mpr ⟨fun c hc => ?_, ih hrest⟩
        rcases mem_writeCells rest a v c hc with ⟨rfl, -⟩ | hc
        · simp only; omega
        · exact hk c hc

/-- A write keeps the canonical form. -/
theorem Memory.wf_write (m : Memory) (a : Nat) (v : Byte) (h : m.wf) : (m.write a v).wf := by
  refine ⟨writeCells_sorted _ a v h.1, fun c hc => ?_⟩
  rcases mem_writeCells _ a v c hc with ⟨rfl, hv⟩ | hc
  · exact hv
  · exact h.2 c hc

/-- A read after a write. -/
theorem Memory.read_write (m : Memory) (a : Nat) (v : Byte) (b : Nat) (h : m.wf) :
    (m.write a v).read b = if a = b then v else m.read b := readCells_writeCells m.cells a v b h.1

theorem Memory.read_write_same (m : Memory) (a : Nat) (v : Byte) (h : m.wf) : (m.write a v).read a = v := by
  simp [Memory.read_write m a v a h]

theorem Memory.read_write_other (m : Memory) (a : Nat) (v : Byte) (b : Nat) (h : m.wf) (hab : a ≠ b) :
    (m.write a v).read b = m.read b := by
  simp [Memory.read_write m a v b h, hab]

/-- The OR of one bit keeps the canonical form. -/
theorem Memory.wf_setBit (m : Memory) (i j : Nat) (h : m.wf) : (m.setBit i j).wf := Memory.wf_write m _ _ h

/-- The OR of one bit: the byte it names gains that bit, every other byte is as before. -/
theorem Memory.read_setBit (m : Memory) (i j b : Nat) (h : m.wf) :
    (m.setBit i j).read b = if i = b then m.read b ||| 1#8 <<< j else m.read b := by
  unfold Memory.setBit
  rw [Memory.read_write m _ _ _ h]
  split
  · next hib => rw [hib]
  · rfl

/-- Bit k of a byte after the OR of bit j. -/
theorem getLsbD_or_bit (x : Byte) (j k : Nat) (hj : j < 8) :
    (x ||| 1#8 <<< j).getLsbD k = (x.getLsbD k || decide (j = k)) := by
  simp only [BitVec.getLsbD_or, BitVec.getLsbD_shiftLeft, BitVec.getLsbD_one]
  by_cases hk : k < 8
  · by_cases hjk : j = k
    · subst hjk; simp [hj]
    · by_cases hlt : k < j
      · simp [hlt, hjk]
      · have : k - j ≠ 0 := by omega
        simp [hjk, this]
  · have : j ≠ k := by omega
    simp [hk, this]

/-- Two cell lists in canonical form that read alike are the same list. -/
theorem cells_ext (l m : List Host.Cell) (hl : (⟨l⟩ : Memory).wf) (hm : (⟨m⟩ : Memory).wf)
    (h : ∀ a, readCells l a = readCells m a) : l = m := by
  induction l generalizing m with
  | nil =>
    cases m with
    | nil => rfl
    | cons d ms =>
      have := h d.1
      simp only [readCells, if_pos] at this
      exact absurd this.symm (hm.2 d (by simp))
  | cons c ls ih =>
    cases m with
    | nil =>
      have := h c.1
      simp only [readCells, if_pos] at this
      exact absurd this (hl.2 c (by simp))
    | cons d ms =>
      obtain ⟨hc, hls⟩ := List.pairwise_cons.mp hl.1
      obtain ⟨hd, hms⟩ := List.pairwise_cons.mp hm.1
      have hcd : c.1 = d.1 := by
        rcases Nat.lt_trichotomy c.1 d.1 with hlt | heq | hgt
        · have := h c.1
          rw [readCells_below (d :: ms) c.1 fun e he => by
            rcases List.mem_cons.mp he with rfl | he
            · exact hlt
            · exact lt_trans hlt (hd e he)] at this
          simp only [readCells, if_pos] at this
          exact absurd this (hl.2 c (by simp))
        · exact heq
        · have := h d.1
          rw [readCells_below (c :: ls) d.1 fun e he => by
            rcases List.mem_cons.mp he with rfl | he
            · exact hgt
            · exact lt_trans hgt (hc e he)] at this
          simp only [readCells, if_pos] at this
          exact absurd this.symm (hm.2 d (by simp))
      have hv : c.2 = d.2 := by
        have := h c.1
        simpa [readCells, hcd] using this
      have hcd' : c = d := Prod.ext hcd hv
      subst hcd'
      congr 1
      refine ih ms ⟨hls, fun e he => hl.2 e (by simp [he])⟩ ⟨hms, fun e he => hm.2 e (by simp [he])⟩ fun a => ?_
      by_cases ha : c.1 = a
      · subst ha
        rw [readCells_below ls c.1 hc, readCells_below ms c.1 hd]
      · simpa [readCells, ha] using h a

/-- Storage in canonical form is determined by what it reads. -/
theorem Memory.ext_read (m n : Memory) (hm : m.wf) (hn : n.wf) (h : ∀ a, m.read a = n.read a) : m = n := by
  cases m; cases n; congr 1; exact cells_ext _ _ hm hn h

end Sys2Proof.Machine
end

