-- ==== Sys2Proof/Laws/State.lean ====
section
/-! SUPPORT. One lemma per field per update of the state (each true by unfolding the update once), so that no later proof
unfolds a record update. -/

namespace Sys2Proof.Machine

/-! ## openSession -/

@[simp] theorem openSession_params (n : Session) (o : OutBuf) (s : State) : (openSession n o s).params = s.params := rfl
@[simp] theorem openSession_status (n : Session) (o : OutBuf) (s : State) : (openSession n o s).status = s.status := rfl
@[simp] theorem openSession_session (n : Session) (o : OutBuf) (s : State) : (openSession n o s).session = n := rfl
@[simp] theorem openSession_input (n : Session) (o : OutBuf) (s : State) : (openSession n o s).input = s.input := rfl
@[simp] theorem openSession_out (n : Session) (o : OutBuf) (s : State) : (openSession n o s).out = o := rfl
@[simp] theorem openSession_nsym (n : Session) (o : OutBuf) (s : State) : (openSession n o s).nsym = 0 := rfl
@[simp] theorem openSession_arithW (n : Session) (o : OutBuf) (s : State) : (openSession n o s).arithW = s.arithW := rfl
@[simp] theorem openSession_ari (n : Session) (o : OutBuf) (s : State) : (openSession n o s).ari = s.ari := rfl
@[simp] theorem openSession_huf (n : Session) (o : OutBuf) (s : State) : (openSession n o s).huf = s.huf := rfl
@[simp] theorem openSession_host (n : Session) (o : OutBuf) (s : State) : (openSession n o s).host = s.host := rfl

/-! ## raiseError -/

@[simp] theorem raiseError_params (c : ErrCode) (opc : Byte) (s : State) : (raiseError c opc s).params = s.params := rfl
@[simp] theorem raiseError_status (c : ErrCode) (opc : Byte) (s : State) : (raiseError c opc s).status = statusRecord c opc s.status := rfl
@[simp] theorem raiseError_session (c : ErrCode) (opc : Byte) (s : State) : (raiseError c opc s).session = s.session := rfl
@[simp] theorem raiseError_input (c : ErrCode) (opc : Byte) (s : State) : (raiseError c opc s).input = s.input := rfl
@[simp] theorem raiseError_out (c : ErrCode) (opc : Byte) (s : State) : (raiseError c opc s).out = s.out := rfl
@[simp] theorem raiseError_nsym (c : ErrCode) (opc : Byte) (s : State) : (raiseError c opc s).nsym = s.nsym := rfl
@[simp] theorem raiseError_arithW (c : ErrCode) (opc : Byte) (s : State) : (raiseError c opc s).arithW = s.arithW := rfl
@[simp] theorem raiseError_ari (c : ErrCode) (opc : Byte) (s : State) : (raiseError c opc s).ari = s.ari := rfl
@[simp] theorem raiseError_huf (c : ErrCode) (opc : Byte) (s : State) : (raiseError c opc s).huf = s.huf := rfl
@[simp] theorem raiseError_host (c : ErrCode) (opc : Byte) (s : State) : (raiseError c opc s).host = s.host := rfl

/-! ## clearError -/

@[simp] theorem clearError_params (s : State) : (clearError s).params = s.params := rfl
@[simp] theorem clearError_status (s : State) : (clearError s).status = statusClear s.status := rfl
@[simp] theorem clearError_session (s : State) : (clearError s).session = s.session := rfl
@[simp] theorem clearError_input (s : State) : (clearError s).input = s.input := rfl
@[simp] theorem clearError_out (s : State) : (clearError s).out = s.out := rfl
@[simp] theorem clearError_nsym (s : State) : (clearError s).nsym = s.nsym := rfl
@[simp] theorem clearError_arithW (s : State) : (clearError s).arithW = s.arithW := rfl
@[simp] theorem clearError_ari (s : State) : (clearError s).ari = s.ari := rfl
@[simp] theorem clearError_huf (s : State) : (clearError s).huf = s.huf := rfl
@[simp] theorem clearError_host (s : State) : (clearError s).host = s.host := rfl

/-! ## takeEvent -/

@[simp] theorem takeEvent_params (rest : List HostEvent) (s : State) : (takeEvent rest s).params = s.params := rfl
@[simp] theorem takeEvent_status (rest : List HostEvent) (s : State) : (takeEvent rest s).status = s.status := rfl
@[simp] theorem takeEvent_session (rest : List HostEvent) (s : State) : (takeEvent rest s).session = s.session := rfl
@[simp] theorem takeEvent_input (rest : List HostEvent) (s : State) : (takeEvent rest s).input = s.input := rfl
@[simp] theorem takeEvent_out (rest : List HostEvent) (s : State) : (takeEvent rest s).out = s.out := rfl
@[simp] theorem takeEvent_nsym (rest : List HostEvent) (s : State) : (takeEvent rest s).nsym = s.nsym := rfl
@[simp] theorem takeEvent_arithW (rest : List HostEvent) (s : State) : (takeEvent rest s).arithW = s.arithW := rfl
@[simp] theorem takeEvent_ari (rest : List HostEvent) (s : State) : (takeEvent rest s).ari = s.ari := rfl
@[simp] theorem takeEvent_huf (rest : List HostEvent) (s : State) : (takeEvent rest s).huf = s.huf := rfl
@[simp] theorem takeEvent_host (rest : List HostEvent) (s : State) : (takeEvent rest s).host = ⟨rest, s.host.replies⟩ := rfl

/-! ## answerRead -/

@[simp] theorem answerRead_params (a : Addr) (s : State) : (answerRead a s).params = s.params := rfl
@[simp] theorem answerRead_status (a : Addr) (s : State) : (answerRead a s).status = s.status := rfl
@[simp] theorem answerRead_session (a : Addr) (s : State) : (answerRead a s).session = s.session := rfl
@[simp] theorem answerRead_input (a : Addr) (s : State) : (answerRead a s).input = s.input := rfl
@[simp] theorem answerRead_out (a : Addr) (s : State) : (answerRead a s).out = s.out := rfl
@[simp] theorem answerRead_nsym (a : Addr) (s : State) : (answerRead a s).nsym = s.nsym := rfl
@[simp] theorem answerRead_arithW (a : Addr) (s : State) : (answerRead a s).arithW = s.arithW := rfl
@[simp] theorem answerRead_ari (a : Addr) (s : State) : (answerRead a s).ari = s.ari := rfl
@[simp] theorem answerRead_huf (a : Addr) (s : State) : (answerRead a s).huf = s.huf := rfl
@[simp] theorem answerRead_host (a : Addr) (s : State) : (answerRead a s).host = ⟨s.host.pending, s.host.replies ++ [readPort s a]⟩ := rfl

/-! ## sendWord -/

@[simp] theorem sendWord_params (w : CmdWord) (s : State) : (sendWord w s).params = s.params := rfl
@[simp] theorem sendWord_status (w : CmdWord) (s : State) : (sendWord w s).status = s.status := rfl
@[simp] theorem sendWord_session (w : CmdWord) (s : State) : (sendWord w s).session = s.session := rfl
@[simp] theorem sendWord_input (w : CmdWord) (s : State) : (sendWord w s).input = s.input := rfl
@[simp] theorem sendWord_out (w : CmdWord) (s : State) : (sendWord w s).out = s.out := rfl
@[simp] theorem sendWord_nsym (w : CmdWord) (s : State) : (sendWord w s).nsym = s.nsym := rfl
@[simp] theorem sendWord_arithW (w : CmdWord) (s : State) : (sendWord w s).arithW = s.arithW := rfl
@[simp] theorem sendWord_ari (w : CmdWord) (s : State) : (sendWord w s).ari = s.ari := rfl
@[simp] theorem sendWord_huf (w : CmdWord) (s : State) : (sendWord w s).huf = s.huf := rfl
@[simp] theorem sendWord_host (w : CmdWord) (s : State) : (sendWord w s).host = ⟨.word w :: s.host.pending, s.host.replies⟩ := rfl

/-! ## resetBlock -/

@[simp] theorem resetBlock_params (s : State) : (resetBlock s).params = s.params := rfl
@[simp] theorem resetBlock_host (s : State) : (resetBlock s).host = s.host := rfl
@[simp] theorem resetBlock_status (s : State) : (resetBlock s).status = ⟨0, 0, false⟩ := rfl
@[simp] theorem resetBlock_session (s : State) : (resetBlock s).session = .none := rfl
@[simp] theorem resetBlock_input (s : State) : (resetBlock s).input = ⟨Memory.empty, 0⟩ := rfl
@[simp] theorem resetBlock_out (s : State) : (resetBlock s).out = packInit := rfl
@[simp] theorem resetBlock_nsym (s : State) : (resetBlock s).nsym = 0 := rfl
@[simp] theorem resetBlock_arithW (s : State) : (resetBlock s).arithW = 0 := rfl
@[simp] theorem resetBlock_ari (s : State) : (resetBlock s).ari = ⟨0, 0, tableAll 0⟩ := rfl
@[simp] theorem resetBlock_huf (s : State) : (resetBlock s).huf = huffFresh := rfl

/-! ## STATUS -/

@[simp] theorem statusRecord_err (c : ErrCode) (opc : Byte) (t : Status) : (statusRecord c opc t).err = errValue c := rfl
@[simp] theorem statusRecord_errOp (c : ErrCode) (opc : Byte) (t : Status) : (statusRecord c opc t).errOp = opc := rfl
@[simp] theorem statusRecord_degen (c : ErrCode) (opc : Byte) (t : Status) : (statusRecord c opc t).degen = t.degen := rfl
@[simp] theorem statusClear_err (t : Status) : (statusClear t).err = 0 := rfl
@[simp] theorem statusClear_errOp (t : Status) : (statusClear t).errOp = 0 := rfl
@[simp] theorem statusClear_degen (t : Status) : (statusClear t).degen = t.degen := rfl
@[simp] theorem degenClear_err (t : Status) : (degenClear t).err = t.err := rfl
@[simp] theorem degenClear_errOp (t : Status) : (degenClear t).errOp = t.errOp := rfl
@[simp] theorem degenClear_degen (t : Status) : (degenClear t).degen = false := rfl
@[simp] theorem degenUpdate_err (d : Bool) (t : Status) : (degenUpdate d t).err = t.err := rfl
@[simp] theorem degenUpdate_errOp (d : Bool) (t : Status) : (degenUpdate d t).errOp = t.errOp := rfl
@[simp] theorem degenUpdate_degen (d : Bool) (t : Status) : (degenUpdate d t).degen = (t.degen || d) := rfl

/-- Every error code is one of 1 to 7, so recording an error always enters lockout (R261, R264). -/
theorem errValue_range (c : ErrCode) : 1 ≤ (errValue c).toNat ∧ (errValue c).toNat ≤ 7 := by cases c <;> decide

/-- No error code has the value 0. -/
theorem errValue_ne_zero (c : ErrCode) : errValue c ≠ 0 := by cases c <;> decide

/-! ## The output buffer -/

@[simp] theorem appendZero_mem (o : OutBuf) : (appendZero o).mem = o.mem.write o.len.toNat 0 := rfl
@[simp] theorem appendZero_len (o : OutBuf) : (appendZero o).len = o.len + 1 := rfl
@[simp] theorem appendZero_bits (o : OutBuf) : (appendZero o).bits = o.bits := rfl
@[simp] theorem appendZero_byteOff (o : OutBuf) : (appendZero o).byteOff = o.byteOff := rfl
@[simp] theorem appendZero_bitOff (o : OutBuf) : (appendZero o).bitOff = o.bitOff := rfl
@[simp] theorem packInit_mem : packInit.mem = Memory.empty := rfl
@[simp] theorem packInit_len : packInit.len = 0 := rfl
@[simp] theorem packInit_bits : packInit.bits = 0 := rfl
@[simp] theorem packInit_byteOff : packInit.byteOff = 0 := rfl
@[simp] theorem packInit_bitOff : packInit.bitOff = 7 := rfl
@[simp] theorem sinkInit_mem : sinkInit.mem = Memory.empty := rfl
@[simp] theorem sinkInit_len : sinkInit.len = 1 := rfl
@[simp] theorem sinkInit_bits : sinkInit.bits = 0 := rfl
@[simp] theorem sinkInit_byteOff : sinkInit.byteOff = 0 := rfl
@[simp] theorem sinkInit_bitOff : sinkInit.bitOff = 7 := rfl
@[simp] theorem sinkOrBit_len (x : Bool) (o : OutBuf) : (sinkOrBit x o).len = o.len := by cases x <;> rfl
@[simp] theorem sinkOrBit_bits (x : Bool) (o : OutBuf) : (sinkOrBit x o).bits = o.bits := by cases x <;> rfl
@[simp] theorem sinkOrBit_byteOff (x : Bool) (o : OutBuf) : (sinkOrBit x o).byteOff = o.byteOff := by cases x <;> rfl
@[simp] theorem sinkOrBit_bitOff (x : Bool) (o : OutBuf) : (sinkOrBit x o).bitOff = o.bitOff := by cases x <;> rfl
@[simp] theorem packOpen_bits (o : OutBuf) : (packOpen o).bits = o.bits := by unfold packOpen; split <;> rfl
@[simp] theorem packOrBit_len (x : Bool) (o : OutBuf) : (packOrBit x o).len = o.len := by cases x <;> rfl
@[simp] theorem packOrBit_bits (x : Bool) (o : OutBuf) : (packOrBit x o).bits = o.bits := by cases x <;> rfl
@[simp] theorem packAdvance_mem (o : OutBuf) : (packAdvance o).mem = o.mem := rfl
@[simp] theorem packAdvance_len (o : OutBuf) : (packAdvance o).len = o.len := rfl
@[simp] theorem packAdvance_bits (o : OutBuf) : (packAdvance o).bits = o.bits + 1 := rfl

end Sys2Proof.Machine
end

