-- ==== Sys2Proof/Laws/Sink.lean ====
section
/-! SUPPORT. The laws of the bit sink and of the packer: what writing bits does to OUT, its cursor and its length
(spec/41_bit_sink.md R144, R145; 44_huffman.md R221, R235). -/

namespace Sys2Proof.Machine

/-- The j-th bit of some storage, as `outBitAt` reads it from OUT's. -/
def memBit (m : Memory) (j : Nat) : Bool := (m.read (j / 8)).getLsbD (7 - j % 8)

theorem outBitAt_eq (o : OutBuf) (j : Nat) : outBitAt o j = memBit o.mem j := rfl

@[simp] theorem memBit_empty (j : Nat) : memBit Memory.empty j = false := by simp [memBit]

/-- A byte is determined by its eight bits of the stream. -/
theorem Memory.read_eq_of_bits (m n : Memory) (a : Nat) (h : ∀ j, j / 8 = a → memBit m j = memBit n j) :
    m.read a = n.read a := by
  refine BitVec.eq_of_getLsbD_eq fun i hi => ?_
  have hj := h (8 * a + (7 - i)) (by omega)
  have h1 : (8 * a + (7 - i)) / 8 = a := by omega
  have h2 : 7 - (8 * a + (7 - i)) % 8 = i := by omega
  unfold memBit at hj
  rw [h1, h2] at hj
  exact hj

/-- Two stream positions are the same when their byte and their place in it are. -/
theorem stream_pos_eq (i j : Nat) : i = j ↔ i / 8 = j / 8 ∧ 7 - i % 8 = 7 - j % 8 := by omega

/-- The stream after the OR of the bit at stream position i. -/
theorem memBit_setBit (m : Memory) (i j : Nat) (h : m.wf) :
    memBit (m.setBit (i / 8) (7 - i % 8)) j = (memBit m j || decide (i = j)) := by
  unfold memBit
  rw [Memory.read_setBit m _ _ _ h]
  by_cases hb : i / 8 = j / 8
  · rw [if_pos hb, getLsbD_or_bit _ _ _ (by omega)]
    congr 1
    exact decide_eq_decide.mpr (by rw [stream_pos_eq i j]; simp [hb])
  · have : i ≠ j := fun h => hb (by rw [h])
    simp [hb, this]

/-- The stream after a zero byte is written: that byte's bits are 0, the others as before. -/
theorem memBit_writeZero (m : Memory) (a j : Nat) (h : m.wf) :
    memBit (m.write a 0) j = if a = j / 8 then false else memBit m j := by
  unfold memBit
  rw [Memory.read_write m _ _ _ h]
  split <;> simp

/-- A zero byte written where the stream is already 0 changes no bit. -/
theorem memBit_writeZero_clean (m : Memory) (a j : Nat) (h : m.wf) (hc : ∀ i, i / 8 = a → memBit m i = false) :
    memBit (m.write a 0) j = memBit m j := by
  rw [memBit_writeZero m a j h]
  split
  · next ha => rw [hc j ha.symm]
  · rfl

/-- A sink between two writes: canonical storage, the cursor at BITS, no 1 at or beyond BITS, one byte beyond the full ones. -/
structure SinkReady (o : OutBuf) : Prop where
  wf : o.mem.wf
  cursor : CursorInv o
  clean : CleanTail o
  len : o.len.toNat = o.bits.toNat / 8 + 1

theorem sinkReady_init : SinkReady sinkInit where
  wf := Memory.wf_empty
  cursor := by simp [CursorInv]
  clean := by intro j _; simp [outBitAt_eq]
  len := by simp

/-- BITS after one more bit. -/
theorem bits_succ (x : Word64) (h : x.toNat + 1 < 2 ^ 64) : (x + 1).toNat = x.toNat + 1 := by
  rw [BitVec.toNat_add]; simp; omega

@[simp] theorem sinkWriteBit_bits (x : Bool) (o : OutBuf) : (sinkWriteBit x o).bits = o.bits + 1 := by
  unfold sinkWriteBit sinkAdvance; split <;> simp

/-- The storage the OR of a bit leaves (R141). -/
theorem sinkOrBit_mem (x : Bool) (o : OutBuf) (h : CursorInv o) :
    (sinkOrBit x o).mem = if x then o.mem.setBit (o.bits.toNat / 8) (7 - o.bits.toNat % 8) else o.mem := by
  cases x <;> simp [sinkOrBit, h.1, h.2]

/-- One bit through the sink (R141, R144): the stream gains exactly that bit at position BITS, the sink is ready again. -/
theorem sinkWriteBit_spec (x : Bool) (o : OutBuf) (h : SinkReady o) (hb : o.bits.toNat + 1 < 2 ^ 63) :
    SinkReady (sinkWriteBit x o) ∧
    ∀ j, outBitAt (sinkWriteBit x o) j = if j = o.bits.toNat then x else outBitAt o j := by
  obtain ⟨hwf, ⟨hby, hbi⟩, hclean, hlen⟩ := h
  have hmem := sinkOrBit_mem x o ⟨hby, hbi⟩
  have hwf1 : (sinkOrBit x o).mem.wf := by
    rw [hmem]; split
    · exact Memory.wf_setBit _ _ _ hwf
    · exact hwf
  have hbit1 : ∀ j, memBit (sinkOrBit x o).mem j = if j = o.bits.toNat then x else outBitAt o j := by
    intro j
    rw [hmem]
    have hc := hclean j
    by_cases hj : j = o.bits.toNat
    · have := hc (by omega)
      cases x <;> simp_all [memBit_setBit _ _ _ hwf, outBitAt_eq]
    · have hj' : o.bits.toNat ≠ j := fun h => hj h.symm
      cases x <;> simp [memBit_setBit _ _ _ hwf, outBitAt_eq, hj, hj']
  have hbits := bits_succ o.bits (by omega)
  have hclean1 : ∀ j, o.bits.toNat + 1 ≤ j → memBit (sinkOrBit x o).mem j = false := by
    intro j hj
    rw [hbit1 j, if_neg (by omega)]
    exact hclean j (by omega)
  by_cases hz : o.bitOff = 0
  · have hmod : o.bits.toNat % 8 = 7 := by rw [hz] at hbi; simp at hbi; omega
    have heq : sinkWriteBit x o = appendZero { sinkOrBit x o with
        bits := o.bits + 1, byteOff := o.byteOff + 1, bitOff := 7 } := by
      simp [sinkWriteBit, sinkAdvance, hz]
    have hzero : ∀ j, memBit ((sinkOrBit x o).mem.write o.len.toNat 0) j = memBit (sinkOrBit x o).mem j := by
      intro j
      exact memBit_writeZero_clean _ _ _ hwf1 fun i hi => hclean1 i (by omega)
    have hbyte : (o.byteOff + 1).toNat = o.byteOff.toNat + 1 := bits_succ _ (by omega)
    have hl : (o.len + 1).toNat = o.len.toNat + 1 := bits_succ _ (by omega)
    refine ⟨⟨?_, ⟨?_, ?_⟩, ?_, ?_⟩, ?_⟩
    · rw [heq]; simpa using Memory.wf_write _ _ _ hwf1
    · rw [heq]; simp only [appendZero_byteOff, appendZero_bits]; omega
    · rw [heq]; simp only [appendZero_bitOff, appendZero_bits, hbits]; simp; omega
    · intro j hj
      rw [heq] at hj ⊢
      simp only [appendZero_bits, hbits] at hj
      simp only [outBitAt_eq, appendZero_mem, sinkOrBit_len, hzero]
      exact hclean1 j hj
    · rw [heq]; simp only [appendZero_len, appendZero_bits, sinkOrBit_len]; omega
    · intro j
      rw [heq, ← hbit1 j]
      simp only [outBitAt_eq, appendZero_mem, sinkOrBit_len, hzero]
  · have hmod : o.bits.toNat % 8 ≠ 7 := by
      intro h; apply hz; apply BitVec.eq_of_toNat_eq; simp; omega
    have heq : sinkWriteBit x o = { sinkOrBit x o with bits := o.bits + 1, bitOff := o.bitOff - 1 } := by
      unfold sinkWriteBit sinkAdvance
      rw [if_neg (by rwa [sinkOrBit_bitOff]), sinkOrBit_bits, sinkOrBit_bitOff]
    have hoff : (o.bitOff - 1).toNat = o.bitOff.toNat - 1 := by
      rw [BitVec.toNat_sub]; simp; omega
    refine ⟨⟨?_, ⟨?_, ?_⟩, ?_, ?_⟩, ?_⟩
    · rw [heq]; exact hwf1
    · rw [heq]; simp only [sinkOrBit_byteOff]; omega
    · rw [heq]; simp only [hoff, hbits]; omega
    · intro j hj
      rw [heq] at hj ⊢
      simp only [hbits] at hj
      exact hclean1 j hj
    · rw [heq]; simp only [sinkOrBit_len]; omega
    · intro j; rw [heq]; exact hbit1 j

@[simp] theorem sinkWriteBits_nil (o : OutBuf) : sinkWriteBits [] o = o := rfl

@[simp] theorem sinkWriteBits_cons (x : Bool) (s : BitString) (o : OutBuf) :
    sinkWriteBits (x :: s) o = sinkWriteBits s (sinkWriteBit x o) := rfl

theorem sinkWriteBits_append (s t : BitString) (o : OutBuf) :
    sinkWriteBits (s ++ t) o = sinkWriteBits t (sinkWriteBits s o) := by simp [sinkWriteBits]

/-- A bit string through the sink (R143, R144): BITS advances by its length, the stream gains its bits at BITS, every other
bit is as before, and the sink is ready again. -/
theorem sinkWriteBits_spec (s : BitString) (o : OutBuf) (h : SinkReady o) (hb : o.bits.toNat + s.length < 2 ^ 63) :
    SinkReady (sinkWriteBits s o) ∧
    (sinkWriteBits s o).bits.toNat = o.bits.toNat + s.length ∧
    ∀ j, outBitAt (sinkWriteBits s o) j =
      if o.bits.toNat ≤ j ∧ j < o.bits.toNat + s.length then s.getD (j - o.bits.toNat) false else outBitAt o j := by
  induction s generalizing o with
  | nil =>
    refine ⟨h, by simp, fun j => ?_⟩
    rw [if_neg (by simp only [List.length_nil]; omega)]; rfl
  | cons x rest ih =>
    simp only [List.length_cons] at hb ⊢
    obtain ⟨h1, hbit⟩ := sinkWriteBit_spec x o h (by omega)
    have hbits : (sinkWriteBit x o).bits.toNat = o.bits.toNat + 1 := by
      rw [sinkWriteBit_bits]; exact bits_succ _ (by omega)
    obtain ⟨h2, hlen, hall⟩ := ih (sinkWriteBit x o) h1 (by omega)
    rw [hbits] at hlen hall
    refine ⟨h2, by rw [sinkWriteBits_cons, hlen]; omega, fun j => ?_⟩
    rw [sinkWriteBits_cons, hall j, hbit j]
    by_cases hj : j = o.bits.toNat
    · subst hj; simp
    · by_cases hr : o.bits.toNat + 1 ≤ j ∧ j < o.bits.toNat + 1 + rest.length
      · have hs : j - o.bits.toNat = (j - (o.bits.toNat + 1)) + 1 := by omega
        rw [if_pos hr, if_pos (by omega), hs, List.getD_cons_succ]
      · rw [if_neg hr, if_neg hj, if_neg (by omega)]

/-- The bytes the sink leaves alone: those before the cursor's and those beyond the last it reaches. -/
theorem sinkWriteBits_read_other (s : BitString) (o : OutBuf) (h : SinkReady o) (hb : o.bits.toNat + s.length < 2 ^ 63)
    (a : Nat) (ha : a < o.bits.toNat / 8 ∨ (o.bits.toNat + s.length) / 8 < a) :
    (sinkWriteBits s o).mem.read a = o.mem.read a := by
  refine Memory.read_eq_of_bits _ _ a fun j hj => ?_
  have := (sinkWriteBits_spec s o h hb).2.2 j
  rw [if_neg (by omega)] at this
  exact this

/-! ## The packer -/

/-- A packer between two writes: as a ready sink, but with no byte beyond the one BITS ends in (R235). -/
structure PackReady (o : OutBuf) : Prop where
  wf : o.mem.wf
  cursor : CursorInv o
  clean : CleanTail o
  len : o.len.toNat = (o.bits.toNat + 7) / 8

theorem packReady_init : PackReady packInit where
  wf := Memory.wf_empty
  cursor := by simp [CursorInv]
  clean := by intro j _; simp [outBitAt_eq]
  len := by simp

@[simp] theorem packBit_bits (x : Bool) (o : OutBuf) : (packBit x o).bits = o.bits + 1 := by simp [packBit]

/-- One bit through the packer (R221): the stream gains exactly that bit at position BITS, the packer is ready again. -/
theorem packBit_spec (x : Bool) (o : OutBuf) (h : PackReady o) (hb : o.bits.toNat + 1 < 2 ^ 63) :
    PackReady (packBit x o) ∧ ∀ j, outBitAt (packBit x o) j = if j = o.bits.toNat then x else outBitAt o j := by
  obtain ⟨hwf, -, hclean, hlen⟩ := h
  have hbits := bits_succ o.bits (by omega)
  have hopen : (packOpen o).mem.wf ∧ (∀ j, memBit (packOpen o).mem j = outBitAt o j) ∧
      (packOpen o).len.toNat = o.bits.toNat / 8 + 1 := by
    unfold packOpen
    split
    · next hz =>
      have hl : (o.len + 1).toNat = o.len.toNat + 1 := bits_succ _ (by omega)
      refine ⟨Memory.wf_write _ _ _ hwf, fun j => ?_, by rw [appendZero_len, hl]; omega⟩
      exact memBit_writeZero_clean _ _ _ hwf fun i hi => hclean i (by omega)
    · exact ⟨hwf, fun j => rfl, by omega⟩
  obtain ⟨hwf1, hsame, hlen1⟩ := hopen
  have hmem : (packBit x o).mem =
      if x then (packOpen o).mem.setBit (o.bits.toNat / 8) (7 - o.bits.toNat % 8) else (packOpen o).mem := by
    cases x <;> simp [packBit, packOrBit]
  have hbit : ∀ j, outBitAt (packBit x o) j = if j = o.bits.toNat then x else outBitAt o j := by
    intro j
    rw [outBitAt_eq, hmem]
    by_cases hj : j = o.bits.toNat
    · have := hclean j (by omega)
      cases x <;> simp_all [memBit_setBit _ _ _ hwf1]
    · have hj' : o.bits.toNat ≠ j := fun h => hj h.symm
      cases x <;> simp [memBit_setBit _ _ _ hwf1, hsame, hj, hj']
  refine ⟨⟨?_, ⟨?_, ?_⟩, ?_, ?_⟩, hbit⟩
  · rw [hmem]; split
    · exact Memory.wf_setBit _ _ _ hwf1
    · exact hwf1
  · simp only [packBit, packAdvance, packOrBit_bits, packOpen_bits, hbits, BitVec.toNat_ofNat]
    omega
  · simp only [packBit, packAdvance, packOrBit_bits, packOpen_bits, hbits, BitVec.toNat_ofNat]
    omega
  · intro j hj
    rw [packBit_bits, hbits] at hj
    rw [hbit j, if_neg (by omega)]
    exact hclean j (by omega)
  · simp only [packBit, packAdvance_len, packOrBit_len, packAdvance_bits, packOrBit_bits, packOpen_bits, hbits, hlen1]
    omega

@[simp] theorem packBits_nil (o : OutBuf) : packBits [] o = o := rfl

@[simp] theorem packBits_cons (x : Bool) (s : BitString) (o : OutBuf) :
    packBits (x :: s) o = packBits s (packBit x o) := rfl

/-- A bit string through the packer (R221, R235): BITS advances by its length, the stream gains its bits at BITS, every other
bit is as before, and the packer is ready again. -/
theorem packBits_spec (s : BitString) (o : OutBuf) (h : PackReady o) (hb : o.bits.toNat + s.length < 2 ^ 63) :
    PackReady (packBits s o) ∧
    (packBits s o).bits.toNat = o.bits.toNat + s.length ∧
    ∀ j, outBitAt (packBits s o) j =
      if o.bits.toNat ≤ j ∧ j < o.bits.toNat + s.length then s.getD (j - o.bits.toNat) false else outBitAt o j := by
  induction s generalizing o with
  | nil =>
    refine ⟨h, by simp, fun j => ?_⟩
    rw [if_neg (by simp only [List.length_nil]; omega)]; rfl
  | cons x rest ih =>
    simp only [List.length_cons] at hb ⊢
    obtain ⟨h1, hbit⟩ := packBit_spec x o h (by omega)
    have hbits : (packBit x o).bits.toNat = o.bits.toNat + 1 := by
      rw [packBit_bits]; exact bits_succ _ (by omega)
    obtain ⟨h2, hlen, hall⟩ := ih (packBit x o) h1 (by omega)
    rw [hbits] at hlen hall
    refine ⟨h2, by rw [packBits_cons, hlen]; omega, fun j => ?_⟩
    rw [packBits_cons, hall j, hbit j]
    by_cases hj : j = o.bits.toNat
    · subst hj; simp
    · by_cases hr : o.bits.toNat + 1 ≤ j ∧ j < o.bits.toNat + 1 + rest.length
      · have hs : j - o.bits.toNat = (j - (o.bits.toNat + 1)) + 1 := by omega
        rw [if_pos hr, if_pos (by omega), hs, List.getD_cons_succ]
      · rw [if_neg hr, if_neg hj, if_neg (by omega)]

/-- The bytes the packer leaves alone: those before the one BITS stands in and those from the end of its bits on. -/
theorem packBits_read_other (s : BitString) (o : OutBuf) (h : PackReady o) (hb : o.bits.toNat + s.length < 2 ^ 63)
    (a : Nat) (ha : a < o.bits.toNat / 8 ∨ (o.bits.toNat + s.length + 7) / 8 ≤ a) :
    (packBits s o).mem.read a = o.mem.read a := by
  refine Memory.read_eq_of_bits _ _ a fun j hj => ?_
  have := (packBits_spec s o h hb).2.2 j
  rw [if_neg (by omega)] at this
  exact this

end Sys2Proof.Machine
end

