-- ==== Sys2Proof/Laws/Commands.lean ====
section
/-! SUPPORT. How commands end: the laws of `andThen`, `forEach` and `finish`, and one inversion lemma per command body, which
says everything the body can do. -/

namespace Sys2Proof.Machine

@[simp] theorem andThen_done (s : State) (k : State → CmdResult) : (CmdResult.done s).andThen k = k s := rfl

@[simp] theorem andThen_raised (c : ErrCode) (s : State) (k : State → CmdResult) :
    (CmdResult.raised c s).andThen k = .raised c s := rfl

/-- A sequence runs to completion exactly when both its parts do. -/
theorem andThen_eq_done (r : CmdResult) (k : State → CmdResult) (t : State) :
    r.andThen k = .done t ↔ ∃ s, r = .done s ∧ k s = .done t := by
  cases r <;> simp [CmdResult.andThen]

@[simp] theorem finish_done (opc : Byte) (s : State) : finish opc (.done s) = .next s := rfl

@[simp] theorem finish_raised (opc : Byte) (c : ErrCode) (s : State) :
    finish opc (.raised c s) = .next (raiseError c opc s) := rfl

/-- The state a command leaves, but for STATUS when it raised an error. -/
def CmdResult.state : CmdResult → State
  | .done s => s
  | .raised _ s => s

/-- Every command end is a next state: its own, or its own with the error recorded (R262). -/
theorem finish_cases (opc : Byte) (r : CmdResult) (t : State) (h : finish opc r = .next t) :
    r = .done t ∨ ∃ c s, r = .raised c s ∧ t = raiseError c opc s := by
  cases r with
  | done s => simp only [finish_done, Host.Outcome.next.injEq] at h; exact .inl (by rw [h])
  | raised c s => simp only [finish_raised, Host.Outcome.next.injEq] at h; exact .inr ⟨c, s, rfl, h.symm⟩

@[simp] theorem forEach_nil (f : Byte → State → CmdResult) (s : State) : forEach f [] s = .done s := rfl

@[simp] theorem forEach_cons (f : Byte → State → CmdResult) (b : Byte) (bs : List Byte) (s : State) :
    forEach f (b :: bs) s = (f b s).andThen (forEach f bs) := rfl

/-- What every sub-step keeps, the loop keeps, whether it ends by itself or by an error. -/
theorem forEach_keeps (f : Byte → State → CmdResult) (P : State → Prop)
    (hf : ∀ b s, P s → P (f b s).state) (bs : List Byte) (s : State) (hs : P s) : P (forEach f bs s).state := by
  induction bs generalizing s with
  | nil => exact hs
  | cons b rest ih =>
    have := hf b s hs
    rw [forEach_cons]
    cases hb : f b s with
    | done t => rw [hb] at this; exact ih t this
    | raised c t => rw [hb] at this; exact this

/-- A loop whose every sub-step completes completes. `P` says what holds with the given bytes still to come. -/
theorem forEach_completes (f : Byte → State → CmdResult) (P : List Byte → State → Prop)
    (hf : ∀ b bs s, P (b :: bs) s → ∃ t, f b s = .done t ∧ P bs t) (bs : List Byte) (s : State) (hs : P bs s) :
    ∃ t, forEach f bs s = .done t ∧ P [] t := by
  induction bs generalizing s with
  | nil => exact ⟨s, rfl, hs⟩
  | cons b rest ih =>
    obtain ⟨t, ht, hp⟩ := hf b rest s hs
    rw [forEach_cons, ht]
    exact ih t hp

/-- IN_PUSH (R124). -/
theorem inPushBody_cases (b : Byte) (s : State) :
    (s.input.len.toNat = s.params.inCap ∧ inPushBody b s = .raised .inFull s) ∨
    (s.input.len.toNat ≠ s.params.inCap ∧
      inPushBody b s = .done { s with input := ⟨s.input.mem.write s.input.len.toNat b, s.input.len + 1⟩ }) := by
  unfold inPushBody; split <;> simp_all

/-- SINK_WRITE (R148). -/
theorem sinkWriteBody_cases (x : Byte) (s : State) :
    (sinkLive s.session = false ∧ sinkWriteBody x s = .raised .sequence s) ∨
    (sinkLive s.session = true ∧ sinkFits s.params s.out 1 = false ∧ sinkWriteBody x s = .raised .outFull s) ∨
    (sinkLive s.session = true ∧ sinkFits s.params s.out 1 = true ∧
      sinkWriteBody x s = .done { s with out := sinkWriteBit (bitOperand x) s.out }) := by
  unfold sinkWriteBody; split
  · simp_all
  · split <;> simp_all

/-- UNIV_STEP (R164). -/
theorem univStepBody_cases (b : Byte) (s : State) :
    (s.session ≠ .univ ∧ univStepBody b s = .raised .sequence s) ∨
    (s.session = .univ ∧ symbolsExhausted s = true ∧ univStepBody b s = .raised .symLimit s) ∨
    (s.session = .univ ∧ symbolsExhausted s = false ∧ sinkFits s.params s.out (elias b).length = false ∧
      univStepBody b s = .raised .outFull s) ∨
    (s.session = .univ ∧ symbolsExhausted s = false ∧ sinkFits s.params s.out (elias b).length = true ∧
      univStepBody b s = .done { s with out := sinkWriteBits (elias b) s.out, nsym := s.nsym + 1 }) := by
  unfold univStepBody; split
  · simp_all
  · split
    · simp_all
    · split <;> simp_all

/-- ARITH_CONFIG (R181). -/
theorem arithConfigBody_cases (w : Byte) (s : State) :
    (s.session = .arith ∧ arithConfigBody w s = .raised .sequence s) ∨
    (s.session ≠ .arith ∧ (w.toNat < 2 ∨ wMax < w.toNat) ∧ arithConfigBody w s = .raised .config { s with arithW := 0 }) ∨
    (s.session ≠ .arith ∧ 2 ≤ w.toNat ∧ w.toNat ≤ wMax ∧ arithConfigBody w s = .done { s with arithW := w }) := by
  unfold arithConfigBody widthOperand
  by_cases h1 : s.session = .arith
  · simp [h1]
  · by_cases h2 : w.toNat < 2 ∨ wMax < w.toNat
    · rw [if_neg h1, if_pos h2]
      exact .inr (.inl ⟨h1, h2, rfl⟩)
    · rw [if_neg h1, if_neg h2]
      exact .inr (.inr ⟨h1, by omega, by omega, rfl⟩)

/-- ARITH_BEGIN (R182). -/
theorem arithBeginBody_cases (s : State) :
    (s.arithW = 0 ∧ arithBeginBody s = .raised .config s) ∨
    (s.arithW ≠ 0 ∧ arithBeginBody s = .done
      { openSession .arith sinkInit s with ari := arithStart (windowWidth s), status := degenClear s.status }) := by
  unfold arithBeginBody; split <;> simp_all

/-- The state a committed ARITH_STEP leaves (R195). -/
def arithCommit (b : Byte) (s : State) : State :=
  let r := arithCompute s.params (windowWidth s) s.ari b
  { s with
    out := sinkWriteBits r.bits s.out
    status := degenUpdate r.degenerate s.status
    ari := ⟨BitVec.ofNat 64 r.low, BitVec.ofNat 64 r.high, freqIncrement s.ari.freq b⟩
    nsym := s.nsym + 1 }

/-- ARITH_STEP (R195). -/
theorem arithStepBody_cases (b : Byte) (s : State) :
    (s.session ≠ .arith ∧ arithStepBody b s = .raised .sequence s) ∨
    (s.session = .arith ∧ symbolsExhausted s = true ∧ arithStepBody b s = .raised .symLimit s) ∨
    (s.session = .arith ∧ symbolsExhausted s = false ∧
      sinkFits s.params s.out (arithCompute s.params (windowWidth s) s.ari b).bits.length = false ∧
      arithStepBody b s = .raised .outFull s) ∨
    (s.session = .arith ∧ symbolsExhausted s = false ∧
      sinkFits s.params s.out (arithCompute s.params (windowWidth s) s.ari b).bits.length = true ∧
      arithStepBody b s = .done (arithCommit b s)) := by
  unfold arithStepBody arithCommit; dsimp only; split
  · simp_all
  · split
    · simp_all
    · split <;> simp_all

/-- HUFF_COUNT (R224). -/
theorem huffCountBody_cases (b : Byte) (s : State) :
    (s.session ≠ .huffHist ∧ huffCountBody b s = .raised .sequence s) ∨
    (s.session = .huffHist ∧ symbolsExhausted s = true ∧ huffCountBody b s = .raised .symLimit s) ∨
    (s.session = .huffHist ∧ symbolsExhausted s = false ∧
      huffCountBody b s = .done { s with huf := histCount b s.huf, nsym := s.nsym + 1 }) := by
  unfold huffCountBody; split
  · simp_all
  · split <;> simp_all

/-- HUFF_BUILD (R230). -/
theorem huffBuildBody_cases (s : State) :
    (s.session ≠ .huffHist ∧ huffBuildBody s = .raised .sequence s) ∨
    (s.session = .huffHist ∧
      huffBuildBody s = .done { s with huf := huffBuildTables s.params s.huf, session := .huffEmit }) := by
  unfold huffBuildBody; split <;> simp_all

/-- HUFF_EMIT (R233). -/
theorem huffEmitBody_cases (b : Byte) (s : State) :
    (s.session ≠ .huffEmit ∧ huffEmitBody b s = .raised .sequence s) ∨
    (s.session = .huffEmit ∧ tableGet s.huf.clen b = 0 ∧ huffEmitBody b s = .raised .noCode s) ∨
    (s.session = .huffEmit ∧ tableGet s.huf.clen b ≠ 0 ∧
      packFits s.params s.out (tableGet s.huf.clen b).toNat = false ∧ huffEmitBody b s = .raised .outFull s) ∨
    (s.session = .huffEmit ∧ tableGet s.huf.clen b ≠ 0 ∧
      packFits s.params s.out (tableGet s.huf.clen b).toNat = true ∧
      huffEmitBody b s = .done { s with out := packBits (codeBits s.huf b) s.out }) := by
  unfold huffEmitBody; split
  · simp_all
  · split
    · simp_all
    · split <;> simp_all

end Sys2Proof.Machine
end

