-- ==== Sys2Proof/Laws/Huffman.lean ====
section
/-! SUPPORT. The laws of the Huffman encoder's operations: popping the least node, prepending a bit, assigning the codes
(spec/44_huffman.md R226, R227, R230). -/

namespace Sys2Proof.Machine

/-- Nothing to pop only from an empty structure. -/
theorem popLeast_eq_none (l : List HuffNode) : popLeast l = none ↔ l = [] := by
  cases l with
  | nil => simp [popLeast]
  | cons x xs =>
    simp only [popLeast, reduceCtorEq, iff_false]
    split
    · simp
    · split <;> simp

/-- Popping takes one node out and keeps the others. -/
theorem popLeast_perm (l : List HuffNode) (x : HuffNode) (rest : List HuffNode) (h : popLeast l = some (x, rest)) :
    l.Perm (x :: rest) := by
  induction l generalizing x rest with
  | nil => simp [popLeast] at h
  | cons y ys ih =>
    simp only [popLeast] at h
    split at h
    · rename_i hn
      rw [popLeast_eq_none] at hn
      simp only [Option.some.injEq, Prod.mk.injEq] at h
      obtain ⟨rfl, rfl⟩ := h
      rw [hn]
    · rename_i z zs hz
      split at h <;> simp only [Option.some.injEq, Prod.mk.injEq] at h <;> obtain ⟨rfl, rfl⟩ := h
      · rfl
      · exact ((ih _ _ hz).cons y).trans (List.Perm.swap _ _ _)

/-- The node order, as the rule writes it (R226). -/
theorem nodeBefore_iff (x y : HuffNode) :
    nodeBefore x y = true ↔ x.freq < y.freq ∨ x.freq = y.freq ∧ x.seq < y.seq := by
  simp [nodeBefore]

theorem nodeBefore_trans {x y z : HuffNode} (h1 : nodeBefore y x = false) (h2 : nodeBefore z y = false) :
    nodeBefore z x = false := by
  rw [← Bool.not_eq_true, nodeBefore_iff] at *
  omega

theorem nodeBefore_asymm {x y : HuffNode} (h : nodeBefore x y = true) : nodeBefore y x = false := by
  rw [← Bool.not_eq_true]; rw [nodeBefore_iff] at *
  omega

/-- No other node comes before the popped one (R227). -/
theorem popLeast_least (l : List HuffNode) (x : HuffNode) (rest : List HuffNode) (h : popLeast l = some (x, rest)) :
    ∀ y ∈ rest, nodeBefore y x = false := by
  induction l generalizing x rest with
  | nil => simp [popLeast] at h
  | cons y ys ih =>
    simp only [popLeast] at h
    split at h
    · simp only [Option.some.injEq, Prod.mk.injEq] at h
      obtain ⟨rfl, rfl⟩ := h
      simp
    · rename_i z zs hz
      have hp := popLeast_perm _ _ _ hz
      split at h <;> rename_i hb <;> simp only [Option.some.injEq, Prod.mk.injEq] at h <;> obtain ⟨rfl, rfl⟩ := h
      · intro u hu
        rcases List.mem_cons.mp (hp.mem_iff.mp hu) with rfl | hu
        · exact nodeBefore_asymm hb
        · exact nodeBefore_trans (nodeBefore_asymm hb) (ih _ _ hz u hu)
      · intro u hu
        rcases List.mem_cons.mp hu with rfl | hu
        · simpa using hb
        · exact ih _ _ hz u hu

/-- Everything one turn of the merge loop can do (R227). -/
theorem mergeStep_some (m m' : Merge) (h : mergeStep m = some m') :
    ∃ x y rest, m.queue.Perm (x :: y :: rest) ∧ (∀ z ∈ y :: rest, nodeBefore z x = false) ∧
      (∀ z ∈ rest, nodeBefore z y = false) ∧ m' = mergePair x y rest m := by
  unfold mergeStep at h
  split at h
  · simp at h
  · rename_i x q hx
    split at h
    · simp at h
    · rename_i y rest hy
      have hq := popLeast_perm _ _ _ hy
      refine ⟨x, y, rest, (popLeast_perm _ _ _ hx).trans (hq.cons x), fun z hz => ?_, popLeast_least _ _ _ hy, ?_⟩
      · exact popLeast_least _ _ _ hx z (hq.mem_iff.mpr hz)
      · simpa using h.symm

/-- A turn of the merge loop is possible exactly when the structure holds at least two nodes (R227). -/
theorem mergeStep_eq_none (m : Merge) : mergeStep m = none ↔ m.queue.length ≤ 1 := by
  unfold mergeStep
  split
  · rename_i h
    rw [popLeast_eq_none] at h
    simp [h]
  · rename_i x q hx
    have hl := (popLeast_perm _ _ _ hx).length_eq
    split
    · rename_i hy
      rw [popLeast_eq_none] at hy
      simp [hl, hy]
    · rename_i y rest hy
      have hl2 := (popLeast_perm _ _ _ hy).length_eq
      simp [hl, hl2]

/-- Prepending a bit to the codes of distinct values (R227). -/
theorem tableGet_prependBit (bit : Bool) (syms : List Byte) (codes : Table BitString) (hn : syms.Nodup) (v : Byte) :
    tableGet (prependBit bit syms codes) v = if v ∈ syms then bit :: tableGet codes v else tableGet codes v := by
  unfold prependBit
  induction syms generalizing codes with
  | nil => simp
  | cons x xs ih =>
    obtain ⟨hx, hxs⟩ := List.nodup_cons.mp hn
    simp only [List.foldl_cons, ih _ hxs, tableGet_tableSet, List.mem_cons]
    by_cases hv : v ∈ xs
    · have : x ≠ v := fun h => hx (h ▸ hv)
      simp [hv, this]
    · by_cases h : x = v
      · subst h; simp [hv]
      · simp [hv, h, Ne.symm h]

/-- The two ways of saying the node order agree where sequence numbers differ (R226). -/
theorem nodeBefore_eq_false_iff (x z : HuffNode) (hs : x.seq ≠ z.seq) :
    nodeBefore z x = false ↔ NodePrecedes x z := by
  rw [← Bool.not_eq_true, nodeBefore_iff]; unfold NodePrecedes; omega

/-- What every merge keeps: sequence numbers are unique and already given out, and the subtrees share no value (R226). -/
def MergeOk (m : Merge) : Prop :=
  (m.queue.map (·.seq)).Nodup ∧ (∀ x ∈ m.queue, x.seq < m.nextSeq) ∧ (m.queue.flatMap (·.syms)).Nodup

/-- Under that invariant a turn of the loop is a merge as the rule describes it, and keeps the invariant (R227). -/
theorem mergeStep_mergesTo (m m' : Merge) (hq : MergeOk m) (h : mergeStep m = some m') : MergesTo m m' ∧ MergeOk m' := by
  obtain ⟨x, y, rest, hp, hx, hy, rfl⟩ := mergeStep_some m m' h
  obtain ⟨h1, h2, h3⟩ := hq
  have h1' := (hp.map (·.seq)).nodup_iff.mp h1
  have h3' := (hp.flatMap_right (·.syms)).nodup_iff.mp h3
  simp only [List.map_cons, List.nodup_cons, List.mem_cons, List.mem_map, not_or, not_exists, not_and] at h1'
  simp only [List.flatMap_cons] at h3'
  have hxs : x.syms.Nodup := (List.nodup_append.mp h3').1
  have hys : y.syms.Nodup := (List.nodup_append.mp (List.nodup_append.mp h3').2.1).1
  have hd : ∀ v ∈ x.syms, v ∉ y.syms := fun v hv hv' => (List.nodup_append.mp h3').2.2 v hv v (by simp [hv']) rfl
  refine ⟨⟨x, y, rest, hp, ?_, ?_, List.Perm.refl _, rfl, ?_⟩, ?_, ?_, ?_⟩
  · intro z hz
    refine (nodeBefore_eq_false_iff x z ?_).mp (hx z hz)
    rcases List.mem_cons.mp hz with rfl | hz
    · exact fun h => h1'.1.1 h
    · exact fun h => h1'.1.2 z hz h.symm
  · intro z hz
    exact (nodeBefore_eq_false_iff y z fun h => h1'.2.1 z hz h.symm).mp (hy z hz)
  · intro v
    simp only [mergePair, tableGet_prependBit _ _ _ hys, tableGet_prependBit _ _ _ hxs]
    by_cases hv : v ∈ x.syms
    · simp [hv, hd v hv]
    · simp [hv]
  · show ((_ :: rest).map _).Nodup
    simp only [List.map_cons, List.nodup_cons]
    refine ⟨?_, h1'.2.2⟩
    simp only [List.mem_map, not_exists, not_and]
    intro z hz h
    have := h2 z (hp.mem_iff.mpr (by simp [hz])); omega
  · intro z hz
    show z.seq < m.nextSeq + 1
    rcases List.mem_cons.mp hz with rfl | hz
    · exact Nat.lt_succ_self _
    · have := h2 z (hp.mem_iff.mpr (by simp [hz])); omega
  · show ((_ :: rest).flatMap _).Nodup
    simpa [List.flatMap_cons, List.append_assoc] using h3'

/-- Assigning codes leaves HIST, ORDER and HUFF_M (R230). -/
theorem assignCodes_frame (codes : Table BitString) (leaves : List Byte) (h : Huff) :
    (leaves.foldl (assignCode codes) h).hist = h.hist ∧ (leaves.foldl (assignCode codes) h).order = h.order ∧
      (leaves.foldl (assignCode codes) h).m = h.m := by
  induction leaves generalizing h with
  | nil => simp
  | cons v vs ih => simpa [assignCode] using ih (assignCode codes h v)

/-- Assigning codes writes the leaves' entries of CODE and CLEN and no other (R230). -/
theorem assignCodes_get (codes : Table BitString) (leaves : List Byte) (h : Huff) (v : Byte) :
    tableGet (leaves.foldl (assignCode codes) h).code v = (if v ∈ leaves then tableGet codes v else tableGet h.code v) ∧
    tableGet (leaves.foldl (assignCode codes) h).clen v =
      (if v ∈ leaves then BitVec.ofNat 9 (tableGet codes v).length else tableGet h.clen v) := by
  induction leaves generalizing h with
  | nil => simp
  | cons x xs ih =>
    simp only [List.foldl_cons, List.mem_cons]
    rw [(ih _).1, (ih _).2]
    by_cases hv : v ∈ xs
    · simp [hv]
    · by_cases hx : x = v
      · subst hx; simp [assignCode]
      · simp [assignCode, tableGet_tableSet, hv, hx, Ne.symm hx]

end Sys2Proof.Machine
end

