-- ==== Sys2Proof/Laws/PerInstr.lean ====
section
/-! SUPPORT. Laws of every command as syntax, one lemma per constructor. -/

namespace Sys2Proof.Laws

open Sys2Proof.Machine

/-- The fields of a command's word are the command's OPC and IMM8, its OPC is assigned, and a form-N command's IMM8 is 0
(R90, R91, R95). -/
def Fields.Statement (i : Instr) : Prop :=
  opcField (encode i) = i.opc ∧ immField (encode i) = i.imm ∧ reservedOpc i.opc = false ∧
    (i.opc ∈ formNOpcodes → i.imm = 0)

/-- R90: the two fields of OPC ++ IMM8. -/
theorem fields_of_append (o b : Byte) : opcField (o ++ b) = o ∧ immField (o ++ b) = b := by
  constructor <;> refine BitVec.eq_of_getLsbD_eq fun i hi => ?_
  · rw [opcField, BitVec.getLsbD_extractLsb', BitVec.getLsbD_append]
    simp [hi, show ¬ 8 + i < 8 by omega]
  · rw [immField, BitVec.getLsbD_extractLsb', BitVec.getLsbD_append]
    simp [hi]

/-- The fields of any command, from the two facts about its OPC. -/
theorem Fields.intro (i : Instr) (hr : reservedOpc i.opc = false) (hn : i.opc ∈ formNOpcodes → i.imm = 0) :
    Fields.Statement i := ⟨(fields_of_append _ _).1, (fields_of_append _ _).2, hr, hn⟩

theorem Fields.nop : Fields.Statement .nop := Fields.intro _ (by decide) fun _ => rfl
theorem Fields.clrErr : Fields.Statement .clrErr := Fields.intro _ (by decide) fun _ => rfl
theorem Fields.softReset : Fields.Statement .softReset := Fields.intro _ (by decide) fun _ => rfl
theorem Fields.inClear : Fields.Statement .inClear := Fields.intro _ (by decide) fun _ => rfl
theorem Fields.inPush (b : Byte) : Fields.Statement (.inPush b) :=
  Fields.intro _ (show reservedOpc 0x09#8 = false by decide) fun h => absurd h (show 0x09#8 ∉ formNOpcodes by decide)
theorem Fields.sinkInit : Fields.Statement .sinkInit := Fields.intro _ (by decide) fun _ => rfl
theorem Fields.sinkWrite (x : Byte) : Fields.Statement (.sinkWrite x) :=
  Fields.intro _ (show reservedOpc 0x11#8 = false by decide) fun h => absurd h (show 0x11#8 ∉ formNOpcodes by decide)
theorem Fields.univBegin : Fields.Statement .univBegin := Fields.intro _ (by decide) fun _ => rfl
theorem Fields.univStep (b : Byte) : Fields.Statement (.univStep b) :=
  Fields.intro _ (show reservedOpc 0x21#8 = false by decide) fun h => absurd h (show 0x21#8 ∉ formNOpcodes by decide)
theorem Fields.univEncode : Fields.Statement .univEncode := Fields.intro _ (by decide) fun _ => rfl
theorem Fields.arithConfig (w : Byte) : Fields.Statement (.arithConfig w) :=
  Fields.intro _ (show reservedOpc 0x30#8 = false by decide) fun h => absurd h (show 0x30#8 ∉ formNOpcodes by decide)
theorem Fields.arithBegin : Fields.Statement .arithBegin := Fields.intro _ (by decide) fun _ => rfl
theorem Fields.arithStep (b : Byte) : Fields.Statement (.arithStep b) :=
  Fields.intro _ (show reservedOpc 0x32#8 = false by decide) fun h => absurd h (show 0x32#8 ∉ formNOpcodes by decide)
theorem Fields.arithEncode : Fields.Statement .arithEncode := Fields.intro _ (by decide) fun _ => rfl
theorem Fields.huffBegin : Fields.Statement .huffBegin := Fields.intro _ (by decide) fun _ => rfl
theorem Fields.huffCount (b : Byte) : Fields.Statement (.huffCount b) :=
  Fields.intro _ (show reservedOpc 0x41#8 = false by decide) fun h => absurd h (show 0x41#8 ∉ formNOpcodes by decide)
theorem Fields.huffBuild : Fields.Statement .huffBuild := Fields.intro _ (by decide) fun _ => rfl
theorem Fields.huffEmit (b : Byte) : Fields.Statement (.huffEmit b) :=
  Fields.intro _ (show reservedOpc 0x43#8 = false by decide) fun h => absurd h (show 0x43#8 ∉ formNOpcodes by decide)
theorem Fields.huffEncode : Fields.Statement .huffEncode := Fields.intro _ (by decide) fun _ => rfl

end Sys2Proof.Laws
end

