-- ==== Sys2Proof/Laws/Step.lean ====
section
/-! SUPPORT. What a command and a step can do, said once: a property that the parts keep, every command and every step keeps. -/

namespace Sys2Proof.Machine

/-- A sequence keeps what both its parts keep. -/
theorem andThen_keeps (P : State → Prop) (r : CmdResult) (k : State → CmdResult) (hr : P r.state)
    (hk : ∀ s, P s → P (k s).state) : P (r.andThen k).state := by
  cases r with
  | done s => exact hk s hr
  | raised c s => exact hr

/-- The state a command answers keeps what its end keeps, recorded error or not. -/
theorem finish_keeps (P : State → Prop) (hraise : ∀ c o s, P s → P (raiseError c o s)) (opc : Byte) (r : CmdResult)
    (t : State) (hr : P r.state) (h : finish opc r = .next t) : P t := by
  rcases finish_cases opc r t h with h | ⟨c, s, h, h'⟩
  · subst h; exact hr
  · subst h h'; exact hraise _ _ _ hr

/-- The parts every command is made of keep a property. -/
structure PartsKeep (P : State → Prop) : Prop where
  raise : ∀ c o s, P s → P (raiseError c o s)
  clear : ∀ s, P s → P (clearError s)
  reset : ∀ s, P s → P (resetBlock s)
  inClear : ∀ s : State, P s → P { s with input := ⟨Memory.empty, 0⟩ }
  inPush : ∀ b s, P s → P (inPushBody b s).state
  sinkOpen : ∀ s, P s → P (openSession .sink sinkInit s)
  sinkWrite : ∀ x s, P s → P (sinkWriteBody x s).state
  univBegin : ∀ s, P s → P (univBeginBody s)
  univStep : ∀ b s, P s → P (univStepBody b s).state
  arithConfig : ∀ w s, P s → P (arithConfigBody w s).state
  arithBegin : ∀ s, P s → P (arithBeginBody s).state
  arithStep : ∀ b s, P s → P (arithStepBody b s).state
  huffBegin : ∀ s, P s → P (huffBeginBody s)
  huffCount : ∀ b s, P s → P (huffCountBody b s).state
  huffBuild : ∀ s, P s → P (huffBuildBody s).state
  huffEmit : ∀ b s, P s → P (huffEmitBody b s).state

/-- A property the parts keep, every command keeps. -/
theorem exec_keeps (P : State → Prop) (hp : PartsKeep P) (i : Instr) (s t : State) (hs : P s) (h : exec i s = .next t) :
    P t := by
  have hfin := finish_keeps P hp.raise
  cases i with
  | nop => cases h; exact hs
  | clrErr => cases h; exact hp.clear _ hs
  | softReset => cases h; exact hp.reset _ hs
  | inClear => cases h; exact hp.inClear _ hs
  | inPush b => exact hfin _ _ _ (hp.inPush b s hs) h
  | sinkInit => cases h; exact hp.sinkOpen _ hs
  | sinkWrite x => exact hfin _ _ _ (hp.sinkWrite x s hs) h
  | univBegin => cases h; exact hp.univBegin _ hs
  | univStep b => exact hfin _ _ _ (hp.univStep b s hs) h
  | univEncode => exact hfin _ _ _ (forEach_keeps _ P hp.univStep _ _ (hp.univBegin _ hs)) h
  | arithConfig w => exact hfin _ _ _ (hp.arithConfig w s hs) h
  | arithBegin => exact hfin _ _ _ (hp.arithBegin s hs) h
  | arithStep b => exact hfin _ _ _ (hp.arithStep b s hs) h
  | arithEncode =>
    exact hfin _ _ _ (andThen_keeps P _ _ (hp.arithBegin s hs) fun s hs => forEach_keeps _ P hp.arithStep _ _ hs) h
  | huffBegin => cases h; exact hp.huffBegin _ hs
  | huffCount b => exact hfin _ _ _ (hp.huffCount b s hs) h
  | huffBuild => exact hfin _ _ _ (hp.huffBuild s hs) h
  | huffEmit b => exact hfin _ _ _ (hp.huffEmit b s hs) h
  | huffEncode =>
    exact hfin _ _ _ (andThen_keeps P _ _
      (andThen_keeps P _ _ (forEach_keeps _ P hp.huffCount _ _ (hp.huffBegin _ hs)) hp.huffBuild)
      fun s hs => forEach_keeps _ P hp.huffEmit _ _ hs) h

/-- Every command answers a next state: no command stops the machine (R260). -/
theorem exec_answers (i : Instr) (s : State) : ∃ t, exec i s = .next t := by
  have hfin : ∀ opc r, ∃ t, finish opc r = .next t := fun opc r => by cases r <;> exact ⟨_, rfl⟩
  cases i <;> first | exact hfin _ _ | exact ⟨_, rfl⟩

/-- Everything a step can do: nothing, a discarded word, an ILLEGAL word, a command, a read, a reset (R98, R65, R290). -/
theorem step_cases (s t : State) (h : step s = .next t) :
    (s.host.pending = [] ∧ t = s) ∨
    (∃ w rest, s.host.pending = .word w :: rest ∧ lockedOut s.status = true ∧ t = takeEvent rest s) ∨
    (∃ w rest why, s.host.pending = .word w :: rest ∧ decode w = .illegal why ∧ lockedOut s.status = false ∧
      t = raiseError .illegal (opcField w) (takeEvent rest s)) ∨
    (∃ w rest i, s.host.pending = .word w :: rest ∧ decode w = .command i ∧ exec i (takeEvent rest s) = .next t) ∨
    (∃ a rest, s.host.pending = .read a :: rest ∧ t = answerRead a (takeEvent rest s)) ∨
    (∃ rest, s.host.pending = .reset :: rest ∧ t = resetBlock (takeEvent rest s)) := by
  unfold step hostTurn at h
  split at h
  · rename_i hp; cases h; exact .inl ⟨hp, rfl⟩
  · rename_i w rest hp
    unfold acceptWord at h; dsimp only at h
    split at h
    · rename_i hl
      simp only [takeEvent_status, Bool.and_eq_true] at hl
      cases h; exact .inr (.inl ⟨w, rest, hp, hl.1, rfl⟩)
    · rename_i hl
      split at h
      · rename_i why hd
        simp only [takeEvent_status, runsInLockout, hd] at hl
        cases h
        exact .inr (.inr (.inl ⟨w, rest, why, hp, hd, by simpa using hl, rfl⟩))
      · rename_i i hd
        exact .inr (.inr (.inr (.inl ⟨w, rest, i, hp, hd, h⟩)))
  · rename_i a rest hp; cases h; exact .inr (.inr (.inr (.inr (.inl ⟨a, rest, hp, rfl⟩))))
  · rename_i rest hp; cases h; exact .inr (.inr (.inr (.inr (.inr ⟨rest, hp, rfl⟩))))

/-- Every step answers a next state. -/
theorem step_answers (s : State) : ∃ t, step s = .next t := by
  unfold step hostTurn
  split
  · exact ⟨_, rfl⟩
  · unfold acceptWord; dsimp only
    split
    · exact ⟨_, rfl⟩
    · split
      · exact ⟨_, rfl⟩
      · exact exec_answers _ _
  · exact ⟨_, rfl⟩
  · exact ⟨_, rfl⟩

/-- A property that the commands and the host's events keep, every step keeps. -/
theorem step_keeps (P : State → Prop) (hp : PartsKeep P) (hev : ∀ r s, P s → P (takeEvent r s))
    (hrd : ∀ a s, P s → P (answerRead a s)) (s t : State) (hs : P s) (h : step s = .next t) : P t := by
  rcases step_cases s t h with ⟨_, rfl⟩ | ⟨_, r, _, _, rfl⟩ | ⟨_, r, _, _, _, _, rfl⟩ | ⟨_, r, i, _, _, h⟩ |
    ⟨a, r, _, rfl⟩ | ⟨r, _, rfl⟩
  · exact hs
  · exact hev _ _ hs
  · exact hp.raise _ _ _ (hev _ _ hs)
  · exact exec_keeps P hp i _ t (hev _ _ hs) h
  · exact hrd _ _ (hev _ _ hs)
  · exact hp.reset _ (hev _ _ hs)

end Sys2Proof.Machine
end

