-- ==== Sys2Proof/Tests/Slice0.lean ====
section
/-! SUPPORT. The model's own tests. Expected values come from spec/95_test_vectors.md (the vector is named) or from the rule
named; the witnesses show that the hypotheses of the statements can be met. -/

namespace Sys2Proof.Tests

open Sys2Proof Sys2Proof.Machine

/- One theorem after the other: evaluated all at once, they need more threads than the check has room for. -/
set_option Elab.async false

/-! ## Well-formedness: form T's reserved bits are the one check (R94) -/

theorem test_wf_sink_write_bit1 : (Instr.sinkWrite 0x02#8).wellFormed = false := by decide
theorem test_wf_sink_write_bit7 : (Instr.sinkWrite 0x80#8).wellFormed = false := by decide
theorem test_wf_sink_write_one : (Instr.sinkWrite 0x01#8).wellFormed = true := by decide

/-! ## Decoding: one word per command, written out from the opcode map (R93) -/

theorem test_decode_nop : decode 0b00000000_00000000#16 = .command .nop := by decide
theorem test_decode_clr_err : decode 0b00000001_00000000#16 = .command .clrErr := by decide
theorem test_decode_soft_reset : decode 0b00000010_00000000#16 = .command .softReset := by decide
theorem test_decode_in_clear : decode 0b00001000_00000000#16 = .command .inClear := by decide
theorem test_decode_in_push : decode 0b00001001_01000001#16 = .command (.inPush 0x41#8) := by decide
theorem test_decode_sink_init : decode 0b00010000_00000000#16 = .command .sinkInit := by decide
theorem test_decode_sink_write : decode 0b00010001_00000001#16 = .command (.sinkWrite 1#8) := by decide
theorem test_decode_univ_begin : decode 0b00100000_00000000#16 = .command .univBegin := by decide
theorem test_decode_univ_step : decode 0b00100001_11111111#16 = .command (.univStep 0xFF#8) := by decide
theorem test_decode_univ_encode : decode 0b00100010_00000000#16 = .command .univEncode := by decide
theorem test_decode_arith_config : decode 0b00110000_01000001#16 = .command (.arithConfig 65#8) := by decide
theorem test_decode_arith_begin : decode 0b00110001_00000000#16 = .command .arithBegin := by decide
theorem test_decode_arith_step : decode 0b00110010_10000000#16 = .command (.arithStep 0x80#8) := by decide
theorem test_decode_arith_encode : decode 0b00110011_00000000#16 = .command .arithEncode := by decide
theorem test_decode_huff_begin : decode 0b01000000_00000000#16 = .command .huffBegin := by decide
theorem test_decode_huff_count : decode 0b01000001_00000111#16 = .command (.huffCount 7#8) := by decide
theorem test_decode_huff_build : decode 0b01000010_00000000#16 = .command .huffBuild := by decide
theorem test_decode_huff_emit : decode 0b01000011_01000100#16 = .command (.huffEmit 0x44#8) := by decide
theorem test_decode_huff_encode : decode 0b01000100_00000000#16 = .command .huffEncode := by decide

/-- E-vectors: a reserved OPC, and IMM8 breaking forms N and T (R94, R95). -/
theorem test_decode_illegal :
    decode 0x0300#16 = .illegal (.reservedOpcode 0x03#8) ∧
    decode 0x4401#16 = .illegal (.malformedImmediate 0x44#8 0x01#8) ∧
    decode 0x1180#16 = .illegal (.malformedImmediate 0x11#8 0x80#8) := by decide

/-- The host's view of a table row is the same decoder. -/
theorem test_decode_table_word :
    decodeTableWord 16 0x0941 = some (.inPush 0x41#8) ∧ decodeTableWord 16 0x1102 = none := by decide

/-! ## Small states -/

/-- A freshly reset instance of capacity `cap`, the other parameters at R6's defaults, with nothing from the host. -/
def dev (cap : Nat) : State := State.initial ⟨cap, .float64, 0, .firstOccurrence, false⟩ ⟨[], []⟩

/-- The next state of a command; the fallback is never taken (`after_spec`). -/
def after (i : Instr) (s : State) : State :=
  match exec i s with
  | .next t => t
  | .fault _ => s
  | .refused _ => s

theorem after_spec (i : Instr) (s : State) : exec i s = .next (after i s) := by
  obtain ⟨t, ht⟩ := exec_answers i s
  simp [after, ht]

/-- A few commands, one after the other. -/
def runs (l : List Instr) (s : State) : State := l.foldl (fun s i => after i s) s

/-- `s` with the host about to do `e`. -/
def about (e : HostEvent) (s : State) : State := { s with host := { s.host with pending := [e] } }

/-- The state after one step. -/
def stepped (s : State) : State :=
  match step s with
  | .next t => t
  | .fault _ => s
  | .refused _ => s

theorem stepped_spec (s : State) : step s = .next (stepped s) := by
  obtain ⟨t, ht⟩ := step_answers s
  simp [stepped, ht]

/-- The output as the host sees it: the bytes and BITS. -/
def seen (s : State) : List Byte × Nat := (outputBytes s.out, s.out.bits.toNat)

/-- The STATUS word as a number. -/
def statusOf (s : State) : Nat := (statusWord s.status).toNat

/-! ## One command at a time -/

/-- R120: NOP runs in lockout and keeps the error. -/
theorem test_nop_in_lockout : let t := stepped (about (.word 0x0000#16) (after (.sinkWrite 1#8) (dev 1)))
    statusOf t = 0x1103 ∧ t.session = .none ∧ t.out.len = 0 := by decide +kernel

/-- R121: CLR_ERR clears ERR and ERR_OP and keeps DEGEN. -/
theorem test_clr_err : statusOf (after .clrErr { dev 1 with status := ⟨3#4, 0x11#8, true⟩ }) = 0x10000 := by
  decide +kernel

/-- E30: SOFT_RESET executes in lockout and leaves the reset state. -/
theorem test_soft_reset : let t := stepped (about (.word 0x0200#16) (runs [.inPush 5#8, .sinkInit, .huffBuild] (dev 2)))
    statusOf t = 0 ∧ t.session = .none ∧ t.input.len = 0 ∧ t.out = (dev 2).out := by decide +kernel

/-- R123. -/
theorem test_in_clear : (after .inClear (after (.inPush 0x41#8) (dev 1))).input = ⟨⟨[]⟩, 0⟩ := by decide +kernel

/-- RS5: IN = [0x41] reads back, and the byte beyond IN_LEN reads 0. -/
theorem test_in_push : let t := after (.inPush 0x41#8) (dev 2)
    readPort t 0x10000000#32 = 0x41#64 ∧ readPort t 0x10000001#32 = 0 ∧ t.input.len = 1 := by decide +kernel

/-- R124: IN_PUSH on a full IN reports IN_FULL and keeps IN. -/
theorem test_in_push_full : let t := after (.inPush 0x42#8) (after (.inPush 0x41#8) (dev 1))
    statusOf t = 0x0906 ∧ inputBytes t.input = [0x41#8] := by decide +kernel

/-- S1. -/
theorem test_sink_init : let t := after .sinkInit (dev 1)
    seen t = ([0x00#8], 0) ∧ readPort t 0x6#32 = 7 ∧ t.session = .sink := by decide +kernel

/-- S3, its last bit: leaving a byte appends the next zero byte at once. -/
theorem test_sink_write_byte_end :
    let t := after (.sinkWrite 1#8) (runs [.sinkInit, .sinkWrite 1#8, .sinkWrite 0#8, .sinkWrite 1#8, .sinkWrite 1#8,
      .sinkWrite 0#8, .sinkWrite 0#8, .sinkWrite 1#8] (dev 1))
    seen t = ([0xB3#8, 0x00#8], 8) ∧ t.out.byteOff = 1 ∧ t.out.bitOff = 7 := by decide +kernel

/-- S7: with no session. -/
theorem test_sink_write_no_session : let t := after (.sinkWrite 1#8) (dev 1)
    statusOf t = 0x1103 ∧ t.out = (dev 1).out := by decide +kernel

/-- U1's state: UNIV_BEGIN leaves a fresh sink. -/
theorem test_univ_begin : let t := after .univBegin (after (.sinkWrite 1#8) (after .sinkInit (dev 1)))
    seen t = ([0x00#8], 0) ∧ readPort t 0x1#32 = 2 := by decide +kernel

/-- U8. -/
theorem test_univ_step : let t := after (.univStep 0xFF#8) (after .univBegin (dev 1))
    seen t = ([0x12#8, 0x00#8], 15) ∧ t.out.byteOff = 1 ∧ t.out.bitOff = 0 ∧ t.nsym = 1 := by decide +kernel

/-- U3. -/
theorem test_univ_encode : seen (after .univEncode (runs [.inPush 0#8, .inPush 1#8] (dev 2))) = ([0xA0#8], 5) := by
  decide +kernel

/-- E5c (X14): width 1 is a configuration error and leaves the encoder unconfigured. -/
theorem test_arith_config_one : let t := after (.arithConfig 1#8) (after (.arithConfig 8#8) (dev 1))
    statusOf t = 0x3002 ∧ t.arithW = 0 := by decide +kernel

/-- P3: inside a session ARITH_CONFIG reports SEQUENCE and ARITH_W stays. -/
theorem test_arith_config_in_session : let t := after (.arithConfig 12#8) (runs [.arithConfig 8#8, .arithBegin] (dev 1))
    statusOf t = 0x3003 ∧ t.arithW = 8 := by decide +kernel

/-- X13. -/
theorem test_arith_begin : let t := after .arithBegin (after (.arithConfig 8#8) (dev 1))
    t.ari.low = 0 ∧ t.ari.high = 0xFF ∧ tableGet t.ari.freq 0xFF#8 = 1 ∧ seen t = ([0x00#8], 0) := by decide +kernel

/-- A1. -/
theorem test_arith_step : let t := after (.arithStep 0x41#8) (runs [.arithConfig 8#8, .arithBegin] (dev 1))
    seen t = ([0x41#8, 0x00#8], 8) ∧ t.ari.low = 0 ∧ t.ari.high = 0xFF ∧ tableGet t.ari.freq 0x41#8 = 2 ∧
      statusOf t = 0 := by decide +kernel

/-- A5, step 2: no secondary shift. -/
theorem test_arith_step_second :
    let t := after (.arithStep 0x42#8) (runs [.arithConfig 32#8, .arithBegin, .arithStep 0x41#8] (dev 2))
    seen t = ([0x41#8, 0x42#8], 15) ∧ t.ari.low = 0x5EA15E80 ∧ t.ari.high = 0xDE21DDFF := by decide +kernel

/-- P5's ARITH_ENCODE: degenerate steps at the smallest width. -/
theorem test_arith_encode :
    let t := after .arithEncode (runs [.inPush 0#8, .inPush 255#8, .inPush 100#8, .arithConfig 2#8] (dev 3))
    seen t = ([0xC0#8], 3) ∧ statusOf t = 0x10000 ∧ t.ari.low = 0 ∧ t.ari.high = 3 := by decide +kernel

/-- P2: HUFF_BEGIN leaves an empty output. -/
theorem test_huff_begin : let t := after .huffBegin (after .sinkInit (dev 1))
    seen t = ([], 0) ∧ readPort t 0x1#32 = 4 ∧ t.out.bitOff = 7 := by decide +kernel

/-- P2: the second value takes rank 1 of ORDER. -/
theorem test_huff_count : let t := after (.huffCount 0x41#8) (runs [.huffBegin, .huffCount 0x42#8] (dev 3))
    readPort t 0x241#32 = 1 ∧ readPort t 0x401#32 = 0x41 ∧ readPort t 0xB#32 = 2 ∧ t.nsym = 2 := by decide +kernel

/-- P2: A (frequency 1) pops before B (frequency 2). -/
theorem test_huff_build :
    let t := after .huffBuild (runs [.huffBegin, .huffCount 0x42#8, .huffCount 0x41#8, .huffCount 0x42#8] (dev 3))
    tableGet t.huf.code 0x41#8 = [false] ∧ tableGet t.huf.code 0x42#8 = [true] ∧ t.session = .huffEmit := by
  decide +kernel

/-- P2: the first emission. -/
theorem test_huff_emit :
    let t := after (.huffEmit 0x42#8)
      (runs [.huffBegin, .huffCount 0x42#8, .huffCount 0x41#8, .huffCount 0x42#8, .huffBuild] (dev 3))
    seen t = ([0x80#8], 1) := by decide +kernel

/-- H3: one distinct value. -/
theorem test_huff_encode_one_value :
    seen (after .huffEncode (runs [.inPush 0x5A#8, .inPush 0x5A#8, .inPush 0x5A#8] (dev 3))) = ([0x00#8], 3) := by
  decide +kernel

/-- H1: four values. -/
theorem test_huff_encode :
    seen (after .huffEncode (runs ([0x41#8, 0x41#8, 0x41#8, 0x41#8, 0x42#8, 0x42#8, 0x42#8, 0x43#8, 0x43#8, 0x44#8].map
      .inPush) (dev 10))) = ([0x0A#8, 0xBF#8, 0xC0#8], 19) := by decide +kernel

/-! ## The ports, reset and the assembler -/

/-- RS2, on the state after reset. -/
theorem test_param_reads :
    [0x10#32, 0x11#32, 0x12#32, 0x13#32].map (readPort State.reset) = [16#64, 129#64, 64#64, 0#64] := by decide +kernel

/-- RS3. -/
theorem test_mode_word : modeWord ⟨16, .integer, 1, .ascendingValue, true⟩ = 0xF#64 := by decide

/-- P1's last listing line by line (R99 to R101). -/
theorem test_assemble : assemble "IN_LOAD \"AB\"\nARITH_RUN 16 ; width\nSINK_WRITE 1".toList =
    some [0x0800#16, 0x0941#16, 0x0942#16, 0x3010#16, 0x3300#16, 0x1101#16] := by decide +kernel

/-- Log 17: a comma inside a character literal is an item of the list, not a separator (R100, R101). -/
theorem test_assemble_comma_literal : assemble "IN_LOAD_BYTES ',', 65".toList =
    some [0x0800#16, 0x092C#16, 0x0941#16] := by decide +kernel

/-! ## The invariant, computed -/

/-- OUT_LEN as `LengthInv` gives it. -/
def lengthOf (s : State) : Nat :=
  match s.session with
  | .sink | .univ | .arith => s.out.bits.toNat / 8 + 1
  | .huffEmit => (s.out.bits.toNat + 7) / 8
  | .huffHist | .none => 0

/-- A property of every entry of a table, in one pass over it. -/
def entries {α : Type} (p : Byte → α → Bool) (t : Table α) : Bool :=
  t.toList.zipIdx.all (fun xi => p (BitVec.ofNat 8 xi.2) xi.1)

theorem entries_get {α : Type} (p : Byte → α → Bool) (t : Table α) (h : entries p t = true) (v : Byte) :
    p v (tableGet t v) = true := by
  have hm : (tableGet t v, v.toNat) ∈ t.toList.zipIdx := by
    rw [List.mem_zipIdx_iff_getElem?]
    simp [tableGet, v.isLt]
  simpa using List.all_eq_true.mp h _ hm

/-- A property of the entries of two tables, side by side. -/
def entries2 {α β : Type} (p : α → β → Bool) (t : Table α) (u : Table β) : Bool :=
  (t.toList.zip u.toList).all (fun xy => p xy.1 xy.2)

theorem entries2_get {α β : Type} (p : α → β → Bool) (t : Table α) (u : Table β) (h : entries2 p t u = true) (v : Byte) :
    p (tableGet t v) (tableGet u v) = true := by
  refine List.all_eq_true.mp h (tableGet t v, tableGet u v) ?_
  rw [List.mem_iff_getElem?]
  exact ⟨v.toNat, by simp [tableGet, v.isLt]⟩

/-- `BaseInv` as a computation over the listed cells. -/
def baseOk (s : State) : Bool := decide (
  s.params.Legal ∧ (s.status.err.toNat ≤ 7 ∧ (s.status.err = 0 → s.status.errOp = 0)) ∧
  (s.input.mem.wf ∧ s.input.len.toNat ≤ s.params.inCap) ∧ s.out.mem.wf ∧
  (s.out.byteOff.toNat = s.out.bits.toNat / 8 ∧ s.out.bitOff.toNat = 7 - s.out.bits.toNat % 8) ∧
  (∀ c ∈ s.out.mem.cells, ∀ i : Fin 8, s.out.bits.toNat ≤ 8 * c.1 + i.val → c.2.getLsbD (7 - i.val) = false) ∧
  (s.out.len.toNat = lengthOf s ∧ (s.session = .huffHist ∨ s.session = .none → s.out.bits = 0)) ∧
  s.out.len.toNat ≤ outCap s.params ∧ s.nsym.toNat ≤ symMax s.params ∧
  (s.arithW = 0 ∨ (2 ≤ windowWidth s ∧ windowWidth s ≤ wMax)) ∧
  (s.session = .arith → s.arithW ≠ 0 ∧ s.ari.low.toNat < 2 ^ windowWidth s ∧ s.ari.high.toNat < 2 ^ windowWidth s ∧
    entries (fun _ f => 1 ≤ f.toNat) s.ari.freq = true ∧ countTotal s.ari.freq = 256 + s.nsym.toNat))

/-- A byte of storage is unlisted or a listed cell's. -/
theorem readCells_mem (l : List Host.Cell) (a : Nat) : readCells l a = 0#8 ∨ (a, readCells l a) ∈ l := by
  induction l with
  | nil => exact .inl rfl
  | cons c rest ih =>
    obtain ⟨k, x⟩ := c
    by_cases h : k = a
    · subst h; simp [readCells]
    · rcases ih with ih | ih
      · exact .inl (by simpa [readCells, h] using ih)
      · exact .inr (by simpa [readCells, h] using .inr ih)

theorem base_of_ok (s : State) (h : baseOk s = true) : BaseInv s := by
  obtain ⟨h1, h2, h3, h4, h5, h6, h7, h8, h9, h10, h11⟩ := of_decide_eq_true h
  refine ⟨h1, h2, h3, ⟨h4, h5, ?_, ?_, h8⟩, h9, h10, fun hs => ?_⟩
  rotate_right
  · obtain ⟨k1, k2, k3, k4, k5⟩ := h11 hs
    exact ⟨k1, k2, k3, fun v => by simpa using entries_get _ _ k4 v, k5⟩
  · intro j hj
    rcases readCells_mem s.out.mem.cells (j / 8) with hc | hc
    · simp [outBitAt, Memory.read, hc]
    · exact h6 _ hc ⟨j % 8, by omega⟩ (by dsimp only; omega)
  · unfold LengthInv
    unfold lengthOf at h7
    cases hs : s.session <;> rw [hs] at h7 <;> simp only at h7 ⊢
    · exact ⟨BitVec.eq_of_toNat_eq h7.1, h7.2 (by simp)⟩
    · exact h7.1
    · exact h7.1
    · exact h7.1
    · exact ⟨BitVec.eq_of_toNat_eq h7.1, h7.2 (by simp)⟩
    · exact h7.1

/-- `HuffInv` as a computation. -/
def huffOk (s : State) : Bool :=
  let ranks := s.huf.order.toList.take s.huf.m.toNat
  decide (
    ranks.Nodup ∧ s.huf.m.toNat = presentCount s.huf ∧ (∀ v ∈ ranks, tableGet s.huf.hist v ≠ 0) ∧
    entries (fun v x => x == 0 || ranks.contains v) s.huf.hist = true ∧
    (s.huf.order.toList.drop s.huf.m.toNat).all (fun x => x == 0#8) = true ∧
    entries2 (fun c n => c.length == n.toNat && n.toNat ≤ 255) s.huf.code s.huf.clen = true ∧
    (huffSession s.session = true → histTotal s.huf = s.nsym.toNat) ∧
    (s.session = .huffHist → entries (fun _ c => c == 0) s.huf.clen = true) ∧
    (s.session = .huffEmit → entries2 (fun n x => (n == 0) == (x == 0)) s.huf.clen s.huf.hist = true))

theorem inv_of_ok (s : State) (hb : baseOk s = true) (h : huffOk s = true) : Inv s := by
  obtain ⟨h1, h2, h3, h4, h5, h6, h7, h8, h9⟩ := of_decide_eq_true h
  refine ⟨base_of_ok s hb, ⟨h1, h2, fun v => ⟨h3 v, fun hv => ?_⟩, by simpa using h5⟩, fun v => ?_, h7, fun hs v => ?_, fun hs v => ?_⟩
  · have := entries_get _ _ h4 v
    simp only [Bool.or_eq_true, beq_iff_eq, List.contains_iff_mem] at this
    exact this.resolve_left hv
  · have := entries2_get _ _ _ h6 v
    simpa using this
  · have := entries_get _ _ (h8 hs) v
    simpa using this
  · have := entries2_get _ _ _ (h9 hs) v
    simp only [beq_iff_eq] at this
    rw [not_iff_not]
    rw [Bool.eq_iff_iff] at this
    simpa using this

/-! ## Witnesses: the hypotheses of every statement that has some, met together; each clause at the edge of its range -/

/-- An empty session `n` whose output holds `k` zero bits, as `k` writes of a 0 bit leave it. -/
def zeroBits (n : Session) (k : Nat) (s : State) : State :=
  { s with session := n
           out := { mem := ⟨[]⟩, len := BitVec.ofNat 64 (if n = .huffEmit then (k + 7) / 8 else k / 8 + 1)
                    bits := BitVec.ofNat 64 k, byteOff := BitVec.ofNat 64 (k / 8), bitOff := BitVec.ofNat 3 (7 - k % 8) } }

/-- A legal instance's other extreme: the parameters away from their defaults, the largest IN_CAP. -/
def wide : State := State.initial ⟨2 ^ 25 - 1, .integer, 1, .ascendingValue, true⟩ ⟨[], []⟩

/-- `dev 1` configured for W = 8. -/
def eight : State := after (.arithConfig 8#8) (dev 1)

/-- An error is pending. -/
def locked : State := after (.sinkWrite 1#8) (dev 1)

theorem witness_reset_meets_inv : Inv (dev 1) := inv_of_ok _ (by decide +kernel) (by decide +kernel)

theorem witness_DecodeOfEncodeIsTheCommand :
    (Instr.sinkWrite 1#8).wellFormed = true ∧ (Instr.arithConfig 0xFF#8).wellFormed = true := by decide

theorem witness_EncodeOfDecodeIsTheWord : decode 0x09FF#16 = .command (.inPush 0xFF#8) := by decide

theorem witness_DecodingFollowsTheOpcodeMap :
    (∃ r ∈ opcodeTable, 0x09FF#16 &&& r.mask = r.pattern) ∧ (∀ r ∈ opcodeTable, 0x0300#16 &&& r.mask ≠ r.pattern) ∧
    ∀ r ∈ opcodeTable, 0x1102#16 &&& r.mask ≠ r.pattern := by decide

theorem witness_MalformedImmediateIsIllegal :
    (∀ o ∈ formNOpcodes, opcField (o ++ 1#8) ∈ formNOpcodes ∧ immField (o ++ 1#8) ≠ 0) ∧
    (opcField 0x1102#16 = 0x11#8 ∧ immField 0x1102#16 &&& 0xFE#8 ≠ 0) ∧
    (opcField 0x1180#16 = 0x11#8 ∧ immField 0x1180#16 &&& 0xFE#8 ≠ 0) := by decide

theorem witness_ReservedOpcodeRaisesIllegal :
    (∀ o ∈ [0x03#8, 0x07#8, 0x0A#8, 0x0F#8, 0x12#8, 0x1F#8, 0x23#8, 0x2F#8, 0x34#8, 0x3F#8, 0x45#8, 0xFF#8],
      reservedOpc (opcField (o ++ 0#8)) = true) ∧ (dev 1).status.err = 0 ∧ locked.status.err ≠ 0 := by decide +kernel

theorem witness_AssembledWordsAreCommands : ∃ ws, assemble "SINK_BITS \"10\"\nNOP".toList = some ws ∧ 0x1101#16 ∈ ws :=
  ⟨[0x1101#16, 0x1100#16, 0x0000#16], by decide +kernel, by decide⟩

theorem witness_StepRunsTheDecodedCommand :
    ((about (.word 0x0941#16) (dev 1)).host.pending = .word 0x0941#16 :: [] ∧
      decode 0x0941#16 = .command (.inPush 0x41#8) ∧ (about (.word 0x0941#16) (dev 1)).status.err = 0) ∧
    ((about (.word 0x0100#16) locked).host.pending = .word 0x0100#16 :: [] ∧ decode 0x0100#16 = .command .clrErr ∧
      (about (.word 0x0100#16) locked).status.err ≠ 0) := by decide +kernel

theorem witness_LockoutDiscardsEveryOtherWord :
    locked.status.err ≠ 0 ∧ (0x0941#16 ≠ 0x0000#16 ∧ 0x0941#16 ≠ 0x0100#16 ∧ 0x0941#16 ≠ 0x0200#16) ∧
    (0x0101#16 ≠ 0x0000#16 ∧ 0x0101#16 ≠ 0x0100#16 ∧ 0x0101#16 ≠ 0x0200#16) := by decide +kernel

theorem witness_AcceptedWordsFollowTheCommandCycle :
    (locked.status.err ≠ 0 ∧ decode 0x0200#16 = .command .softReset) ∧
    (locked.status.err ≠ 0 ∧ decode 0x1102#16 = .illegal (.malformedImmediate 0x11#8 0x02#8)) ∧
    ((dev 1).status.err = 0 ∧ decode 0x1102#16 = .illegal (.malformedImmediate 0x11#8 0x02#8)) ∧
    ((dev 1).status.err = 0 ∧ decode 0x4400#16 = .command .huffEncode) := by decide +kernel

theorem witness_ReadAnswersAndChangesNothing :
    (about (.read 0x1#32) locked).host.pending = .read 0x1#32 :: [] ∧ (about (.read 0x1#32) locked).status.err ≠ 0 := by
  decide +kernel

theorem witness_ResetInputEqualsSoftReset : (about .reset locked).host.pending = .reset :: [] := by decide +kernel

theorem witness_UnmappedAddressesReadZero :
    (∀ a ∈ [0xC#32, 0xF#32], 0xC ≤ a.toNat ∧ a.toNat < 0x10) ∧ (∀ a ∈ [0x14#32, 0xFF#32], 0x14 ≤ a.toNat ∧ a.toNat < 0x100) ∧
    (∀ a ∈ [0x500#32, 0x7FF#32], 0x500 ≤ a.toNat ∧ a.toNat < 0x800) ∧
    (∀ a ∈ [0xC00#32, 0xFFFFFFF#32], 0xC00 ≤ a.toNat ∧ a.toNat < 0x10000000) ∧
    (∀ a ∈ [0x30000000#32, 0xFFFFFFFF#32], 0x30000000 ≤ a.toNat) ∧
    (∀ a ∈ [0x10000000#32, 0x1FFFFFFF#32], 0x10000000 + (dev 1).input.len.toNat ≤ a.toNat ∧ a.toNat < 0x20000000) ∧
    ∀ a ∈ [0x20000000#32, 0x2FFFFFFF#32], 0x20000000 + (dev 1).out.len.toNat ≤ a.toNat ∧ a.toNat < 0x30000000 := by
  simp [dev, State.initial]

theorem witness_ParameterRegistersReflectTheInstance : BaseInv (dev 1) := base_of_ok _ (by decide +kernel)

theorem witness_CodeWordLayout : (0 < 64 ∧ 64 * 0 + 0 < 1) ∧ 63 < 64 := by decide

theorem witness_InputCommandsEffects :
    ((dev 1).input.mem.wf ∧ (dev 1).input.len.toNat ≠ (dev 1).params.inCap) ∧
    ((after (.inPush 9#8) (dev 1)).input.mem.wf ∧
      (after (.inPush 9#8) (dev 1)).input.len.toNat = (after (.inPush 9#8) (dev 1)).params.inCap) := by decide +kernel

theorem witness_ArithConfigEffects :
    ((dev 1).session ≠ .arith ∧ 2 ≤ (2#8).toNat ∧ (2#8).toNat ≤ 64) ∧ (2 ≤ (64#8).toNat ∧ (64#8).toNat ≤ 64) ∧
    (after .arithBegin eight).session = .arith ∧ ((1#8).toNat < 2 ∧ 64 < (65#8).toNat) := by decide +kernel

theorem witness_ArithBeginEffects : (BaseInv eight ∧ eight.arithW ≠ 0) ∧ (BaseInv (dev 1) ∧ (dev 1).arithW = 0) :=
  ⟨⟨base_of_ok _ (by decide +kernel), by decide +kernel⟩, base_of_ok _ (by decide +kernel), by decide +kernel⟩

/-- One bit below the capacity of nine bytes, and at it. -/
theorem witness_SinkWriteEffects :
    (BaseInv (zeroBits .sink 70 (dev 1)) ∧ (zeroBits .sink 70 (dev 1)).session = .sink ∧
      ((zeroBits .sink 70 (dev 1)).out.bits.toNat + 1) / 8 + 1 ≤ outCap (zeroBits .sink 70 (dev 1)).params) ∧
    (BaseInv (dev 1) ∧ (dev 1).session = .none) ∧
    (BaseInv (zeroBits .univ 71 (dev 1)) ∧ (zeroBits .univ 71 (dev 1)).session = .univ ∧
      outCap (zeroBits .univ 71 (dev 1)).params < ((zeroBits .univ 71 (dev 1)).out.bits.toNat + 1) / 8 + 1) :=
  ⟨⟨base_of_ok _ (by decide +kernel), by decide +kernel⟩, ⟨base_of_ok _ (by decide +kernel), by decide +kernel⟩,
    base_of_ok _ (by decide +kernel), by decide +kernel⟩

theorem witness_EliasCodesAreSelfDelimiting :
    elias 255#8 <+: elias 255#8 ∧ [0#8, 255#8].flatMap elias = [0#8, 255#8].flatMap elias := ⟨List.prefix_refl _, rfl⟩

/-- elias(255) has 15 bits: it ends at bit 71 of 72, or one bit too far. -/
theorem witness_UnivStepEffects :
    (BaseInv (zeroBits .univ 56 (dev 1)) ∧ (zeroBits .univ 56 (dev 1)).session = .univ ∧
      (zeroBits .univ 56 (dev 1)).nsym.toNat ≠ symMax (zeroBits .univ 56 (dev 1)).params ∧
      ((zeroBits .univ 56 (dev 1)).out.bits.toNat + (elias 255#8).length) / 8 + 1 ≤ outCap (dev 1).params) ∧
    (BaseInv (dev 1) ∧ (dev 1).session ≠ .univ) ∧
    (BaseInv (runs [.univBegin, .univStep 0#8] (dev 1)) ∧ (runs [.univBegin, .univStep 0#8] (dev 1)).session = .univ ∧
      (runs [.univBegin, .univStep 0#8] (dev 1)).nsym.toNat = symMax (dev 1).params) ∧
    (BaseInv (zeroBits .univ 57 (dev 1)) ∧ (zeroBits .univ 57 (dev 1)).session = .univ ∧
      (zeroBits .univ 57 (dev 1)).nsym.toNat ≠ symMax (dev 1).params ∧
      outCap (dev 1).params < ((zeroBits .univ 57 (dev 1)).out.bits.toNat + (elias 255#8).length) / 8 + 1) :=
  ⟨⟨base_of_ok _ (by decide +kernel), by decide +kernel⟩, ⟨base_of_ok _ (by decide +kernel), by decide +kernel⟩,
    ⟨base_of_ok _ (by decide +kernel), by decide +kernel⟩, base_of_ok _ (by decide +kernel), by decide +kernel⟩

theorem witness_UnivEncodeWritesEveryCode : BaseInv (runs [.inPush 7#8, .inPush 8#8] (dev 2)) :=
  base_of_ok _ (by decide +kernel)

theorem witness_UnivEncodeDependsOnlyOnInput : ∃ s s' t t' : State, s.session ≠ s'.session ∧ BaseInv s ∧ BaseInv s' ∧
    inputBytes s.input = inputBytes s'.input ∧ exec .univEncode s = .next t ∧ exec .univEncode s' = .next t' :=
  ⟨after (.inPush 7#8) (dev 1), runs [.inPush 7#8, .sinkInit] (dev 2), _, _, by decide +kernel,
    base_of_ok _ (by decide +kernel), base_of_ok _ (by decide +kernel), by decide +kernel, after_spec _ _, after_spec _ _⟩

/-- An ARITH session of width 8 whose output holds `k` zero bits. -/
def arithZeros (k : Nat) : State := zeroBits .arith k (after .arithBegin eight)

/-- A1's step emits 8 bits: it ends at bit 71 of 72, or one bit too far. -/
theorem witness_ArithStepEffects :
    (BaseInv (arithZeros 63) ∧ (arithZeros 63).session = .arith ∧ (arithZeros 63).nsym.toNat ≠ symMax (arithZeros 63).params ∧
      ((arithZeros 63).out.bits.toNat + (arithCompute (arithZeros 63).params 8 (arithZeros 63).ari 0x41#8).bits.length) / 8 + 1
        ≤ outCap (arithZeros 63).params) ∧
    (BaseInv (dev 1) ∧ (dev 1).session ≠ .arith) ∧
    (BaseInv (runs [.arithBegin, .arithStep 0x41#8] eight) ∧
      (runs [.arithBegin, .arithStep 0x41#8] eight).session = .arith ∧
      (runs [.arithBegin, .arithStep 0x41#8] eight).nsym.toNat = symMax eight.params) ∧
    (BaseInv (arithZeros 64) ∧ (arithZeros 64).session = .arith ∧ (arithZeros 64).nsym.toNat ≠ symMax (arithZeros 64).params ∧
      outCap (arithZeros 64).params <
        ((arithZeros 64).out.bits.toNat + (arithCompute (arithZeros 64).params 8 (arithZeros 64).ari 0x41#8).bits.length) / 8
          + 1) :=
  ⟨⟨base_of_ok _ (by decide +kernel), by decide +kernel⟩, ⟨base_of_ok _ (by decide +kernel), by decide +kernel⟩,
    ⟨base_of_ok _ (by decide +kernel), by decide +kernel⟩, base_of_ok _ (by decide +kernel), by decide +kernel⟩

theorem witness_ArithEncodeEffects :
    (BaseInv (after (.inPush 0x41#8) eight) ∧ (after (.inPush 0x41#8) eight).arithW ≠ 0) ∧
    (BaseInv (after (.inPush 0x41#8) (dev 1)) ∧ (after (.inPush 0x41#8) (dev 1)).arithW = 0) :=
  ⟨⟨base_of_ok _ (by decide +kernel), by decide +kernel⟩, base_of_ok _ (by decide +kernel), by decide +kernel⟩

theorem witness_ArithEncodeDependsOnlyOnInputAndWidth : ∃ s s' t t' : State, s.session ≠ s'.session ∧ BaseInv s ∧
    BaseInv s' ∧ s.arithW ≠ 0 ∧ s'.arithW = s.arithW ∧ s'.params.scaleMode = s.params.scaleMode ∧
    s'.params.scanFloor = s.params.scanFloor ∧ inputBytes s'.input = inputBytes s.input ∧
    exec .arithEncode s = .next t ∧ exec .arithEncode s' = .next t' :=
  ⟨after (.inPush 7#8) eight, runs [.arithConfig 8#8, .inPush 7#8, .sinkInit] (dev 2), _, _, by decide +kernel,
    base_of_ok _ (by decide +kernel), base_of_ok _ (by decide +kernel), by decide +kernel, by decide +kernel, by decide +kernel,
    by decide +kernel, by decide +kernel, after_spec _ _, after_spec _ _⟩

theorem witness_RenormalisationEndsWithinTheWidth :
    (1 ≤ 1 ∧ 0 < 2 ^ 1 ∧ 1 < 2 ^ 1) ∧ (1 ≤ 64 ∧ 2 ^ 64 - 1 < 2 ^ 64) := by norm_num

theorem witness_ReductionIsFaithfulToTheSource : 1 ≤ 1 ∧ 1 ≤ 64 := by decide

/-- A quotient of 2^−1000, a negative integer, a product of 3·2^−1000 and a zero one, and a table. -/
theorem witness_RoundingIsToNearest :
    (0 < 2 ^ 1000 ∧ 0 < 1 ∧ 2 ^ 1000 ≤ 1 * 2 ^ 1000 ∧ 1 ≤ 2 ^ 1000 * 2 ^ 1000) ∧
    ((-1 : Int) ≠ 0 ∧ (-1 : Int).natAbs ≤ 2 ^ 1000 ∧ (-1 : Int).natAbs ≤ 2 ^ 53) ∧
    (1 ≤ |binaryValue ⟨-3, -1000⟩ * binaryValue ⟨1, 0⟩| * 2 ^ 1000 ∧
      |binaryValue ⟨-3, -1000⟩ * binaryValue ⟨1, 0⟩| ≤ 2 ^ 1000) ∧
    binaryValue ⟨0, 0⟩ * binaryValue ⟨1, 0⟩ = 0 ∧ 1 ≤ freqSum (tableAll 1#64) 256 := by
  have hv : |binaryValue ⟨-3, -1000⟩ * binaryValue ⟨1, 0⟩| = 3 * ((2 : ℚ) ^ 1000)⁻¹ := by simp [binaryValue, abs_mul]
  have h1 : (1 : ℚ) ≤ 2 ^ 1000 := one_le_pow₀ (by norm_num)
  have h2 : ((2 : ℚ) ^ 1000)⁻¹ * 2 ^ 1000 = 1 := inv_mul_cancel₀ (by positivity)
  have h3 : ((2 : ℚ) ^ 1000)⁻¹ ≤ 1 := inv_le_one_of_one_le₀ h1
  refine ⟨⟨by positivity, by decide, le_of_eq (Nat.one_mul _).symm, Nat.one_le_iff_ne_zero.mpr (by positivity)⟩,
    ⟨by decide, le_trans (b := 1) (le_of_eq rfl) (Nat.one_le_pow 1000 2 (by decide)), by norm_num⟩, ⟨?_, ?_⟩, ?_, ?_⟩
  · rw [hv, mul_assoc, h2]; norm_num
  · rw [hv]
    have h4 : (3 : ℚ) ≤ 2 ^ 1000 := (by norm_num : (3 : ℚ) ≤ 2 ^ 2).trans (pow_le_pow_right₀ (by norm_num) (by norm_num))
    exact (mul_le_of_le_one_right (by norm_num) h3).trans h4
  · simp [binaryValue]
  · rw [← countTotal_eq_freqSum]; decide +kernel

theorem witness_FloatScalingIsExactAtTheEnds : 1 ≤ 1 ∧ (2 ^ 53 : Int).natAbs ≤ 2 ^ 53 ∧ (-2 ^ 53 : Int).natAbs ≤ 2 ^ 53 := by
  norm_num

theorem witness_IntegerNarrowingStaysInside :
    1 ≤ freqSum (arithStart 8).freq 256 ∧ (arithStart 8).low.toNat ≤ (arithStart 8).high.toNat ∧
    (⟨5, 5, tableAll 1#64⟩ : Arith).low.toNat ≤ (⟨5, 5, tableAll 1#64⟩ : Arith).high.toNat := by
  rw [← countTotal_eq_freqSum]; decide +kernel

theorem witness_InvertedIntervalIsDegenerate :
    1 ≤ countTotal (tableAll 1#64) ∧ (⟨6, 5, tableAll 1#64⟩ : Arith).high.toNat < (⟨6, 5, tableAll 1#64⟩ : Arith).low.toNat := by
  decide +kernel

/-- A7: the source's invariant fails. -/
theorem witness_LowCanExceedHigh : let s := runs [.inPush 0x00#8, .inPush 0x01#8, .arithConfig 32#8] (dev 2)
    BaseInv s ∧ s.arithW = 32#8 ∧ s.params.scaleMode = .float64 ∧ s.params.scanFloor = 0 ∧
    inputBytes s.input = [0x00#8, 0x01#8] ∧ (after .arithEncode s).ari.low = 0xFF00FF00#64 ∧
    (after .arithEncode s).ari.high = 0x7E817E7F#64 :=
  ⟨base_of_ok _ (by decide +kernel), by decide +kernel⟩

theorem witness_HuffCountEffects :
    (Inv (after .huffBegin (dev 1)) ∧ (after .huffBegin (dev 1)).session = .huffHist ∧
      (after .huffBegin (dev 1)).nsym.toNat ≠ symMax (after .huffBegin (dev 1)).params ∧
      tableGet (after .huffBegin (dev 1)).huf.hist 7#8 = 0) ∧
    (Inv (runs [.huffBegin, .huffCount 7#8] (dev 2)) ∧ (runs [.huffBegin, .huffCount 7#8] (dev 2)).session = .huffHist ∧
      (runs [.huffBegin, .huffCount 7#8] (dev 2)).nsym.toNat ≠ symMax (dev 2).params ∧
      tableGet (runs [.huffBegin, .huffCount 7#8] (dev 2)).huf.hist 7#8 ≠ 0) ∧
    (Inv (dev 1) ∧ (dev 1).session ≠ .huffHist) ∧
    (Inv (runs [.huffBegin, .huffCount 7#8] (dev 1)) ∧ (runs [.huffBegin, .huffCount 7#8] (dev 1)).session = .huffHist ∧
      (runs [.huffBegin, .huffCount 7#8] (dev 1)).nsym.toNat = symMax (dev 1).params) :=
  ⟨⟨inv_of_ok _ (by decide +kernel) (by decide +kernel), by decide +kernel⟩,
    ⟨inv_of_ok _ (by decide +kernel) (by decide +kernel), by decide +kernel⟩,
    ⟨inv_of_ok _ (by decide +kernel) (by decide +kernel), by decide +kernel⟩,
    inv_of_ok _ (by decide +kernel) (by decide +kernel), by decide +kernel⟩

/-- Two values counted. -/
def twoCounted : State := runs [.huffBegin, .huffCount 7#8, .huffCount 0#8] (dev 2)

/-- One value counted. -/
def oneCounted : State := runs [.huffBegin, .huffCount 7#8] (dev 1)

theorem inv_twoCounted : Inv twoCounted := inv_of_ok _ (by decide +kernel) (by decide +kernel)
theorem inv_oneCounted : Inv oneCounted := inv_of_ok _ (by decide +kernel) (by decide +kernel)

theorem witness_LeafListHoldsThePresentValues : OrderInv twoCounted.huf ∧ twoCounted.huf.m = 2 :=
  ⟨inv_twoCounted.2.order, by decide +kernel⟩

theorem witness_HuffBuildEffects :
    (Inv twoCounted ∧ twoCounted.session = .huffHist ∧ tableGet twoCounted.huf.hist 0#8 ≠ 0 ∧
      tableGet twoCounted.huf.hist 1#8 = 0 ∧ 2 ≤ twoCounted.huf.m.toNat) ∧
    (Inv oneCounted ∧ oneCounted.session = .huffHist ∧ oneCounted.huf.m.toNat = 1) ∧
    (Inv (dev 1) ∧ (dev 1).session ≠ .huffHist) :=
  ⟨⟨inv_twoCounted, by decide +kernel⟩, ⟨inv_oneCounted, by decide +kernel⟩,
    inv_of_ok _ (by decide +kernel) (by decide +kernel), by decide +kernel⟩

theorem witness_SmallHistogramsHaveTheirCodes :
    (∃ t, Inv oneCounted ∧ oneCounted.session = .huffHist ∧ exec .huffBuild oneCounted = .next t ∧
      ∀ u, tableGet oneCounted.huf.hist u ≠ 0 ↔ u = 7#8) ∧
    ∃ t, Inv (after .huffBegin (dev 1)) ∧ (after .huffBegin (dev 1)).session = .huffHist ∧
      exec .huffBuild (after .huffBegin (dev 1)) = .next t ∧ ∀ u, tableGet (after .huffBegin (dev 1)).huf.hist u = 0 :=
  ⟨⟨_, inv_oneCounted, by decide +kernel, after_spec _ _, fun u => by
      have := entries_get (fun u x => (x != 0) == (u == 7#8)) oneCounted.huf.hist (by decide +kernel) u
      rw [beq_iff_eq, Bool.eq_iff_iff] at this
      simpa using this⟩,
    _, inv_of_ok _ (by decide +kernel) (by decide +kernel), by decide +kernel, after_spec _ _, fun u => by
      simpa using entries_get (fun _ x => x == 0) (after .huffBegin (dev 1)).huf.hist (by decide +kernel) u⟩

/-- Also of HuffmanCodesArePrefixFree, for the values 7 and 0. -/
theorem witness_CodeLengthsFillTheTree : Inv twoCounted ∧ twoCounted.session = .huffHist ∧
    exec .huffBuild twoCounted = .next (after .huffBuild twoCounted) ∧ 2 ≤ (after .huffBuild twoCounted).huf.m.toNat ∧
    (Inv oneCounted ∧ oneCounted.session = .huffHist ∧ (after .huffBuild oneCounted).huf.m.toNat = 1) :=
  ⟨inv_twoCounted, by decide +kernel, after_spec _ _, by decide +kernel, inv_oneCounted, by decide +kernel⟩

theorem witness_HuffmanCodesArePrefixFree : tableGet (after .huffBuild twoCounted).huf.hist 7#8 ≠ 0 ∧
    tableGet (after .huffBuild twoCounted).huf.hist 0#8 ≠ 0 ∧ (7#8 : Byte) ≠ 0#8 := by decide +kernel

/-- A HUFF_EMIT session of one value with a one-bit code whose output holds `k` zero bits. -/
def emitZeros (k : Nat) : State := zeroBits .huffEmit k (after .huffBuild oneCounted)

theorem witness_HuffEmitEffects :
    (Inv (emitZeros 71) ∧ (emitZeros 71).session = .huffEmit ∧ tableGet (emitZeros 71).huf.clen 7#8 ≠ 0 ∧
      ((emitZeros 71).out.bits.toNat + (tableGet (emitZeros 71).huf.clen 7#8).toNat + 7) / 8 ≤ outCap (emitZeros 71).params) ∧
    (Inv oneCounted ∧ oneCounted.session ≠ .huffEmit) ∧
    (Inv (emitZeros 0) ∧ (emitZeros 0).session = .huffEmit ∧ tableGet (emitZeros 0).huf.clen 8#8 = 0) ∧
    (Inv (emitZeros 72) ∧ (emitZeros 72).session = .huffEmit ∧ tableGet (emitZeros 72).huf.clen 7#8 ≠ 0 ∧
      outCap (emitZeros 72).params < ((emitZeros 72).out.bits.toNat + (tableGet (emitZeros 72).huf.clen 7#8).toNat + 7) / 8) :=
  ⟨⟨inv_of_ok _ (by decide +kernel) (by decide +kernel), by decide +kernel⟩, ⟨inv_oneCounted, by decide +kernel⟩,
    ⟨inv_of_ok _ (by decide +kernel) (by decide +kernel), by decide +kernel⟩,
    inv_of_ok _ (by decide +kernel) (by decide +kernel), by decide +kernel⟩

theorem witness_HuffEncodeWritesEveryCode : BaseInv (runs [.inPush 7#8, .inPush 8#8] (dev 2)) :=
  base_of_ok _ (by decide +kernel)

/-- One byte in IN and a configured width. -/
def loaded : State := after (.inPush 7#8) eight

theorem witness_CompositeEncodeIsItsSingleSteps :
    ((after .univEncode loaded).status.err = 0 ∧ exec .univEncode loaded = .next (after .univEncode loaded)) ∧
    ((after .arithEncode loaded).status.err = 0 ∧ exec .arithEncode loaded = .next (after .arithEncode loaded)) ∧
    ((after .huffEncode loaded).status.err = 0 ∧ exec .huffEncode loaded = .next (after .huffEncode loaded)) :=
  ⟨⟨by decide +kernel, after_spec _ _⟩, ⟨by decide +kernel, after_spec _ _⟩, by decide +kernel, after_spec _ _⟩

theorem witness_StateIsWrittenOnlyByItsCommands : exec (.inPush 7#8) eight = .next loaded ∧
    (writesOutput (.inPush 7#8) = false ∧ writesNsym (.inPush 7#8) = false ∧ writesSession (.inPush 7#8) = false ∧
      writesWidth (.inPush 7#8) = false ∧ writesArith (.inPush 7#8) = false ∧ writesHuff (.inPush 7#8) = false ∧
      writesDegen (.inPush 7#8) = false) ∧ writesInput .huffEncode = false :=
  ⟨after_spec _ _, by decide, by decide⟩

theorem witness_ErrorsArePrecise :
    (composite (.arithConfig 1#8) = false ∧ eight.status.err = 0 ∧
      exec (.arithConfig 1#8) eight = .next (after (.arithConfig 1#8) eight) ∧
      (after (.arithConfig 1#8) eight).status.err ≠ 0 ∧ (after (.arithConfig 1#8) eight).arithW ≠ eight.arithW) ∧
    (composite (.univStep 1#8) = false ∧ (after (.univStep 1#8) eight).status.err ≠ 0) :=
  ⟨⟨by decide, by decide +kernel, after_spec _ _, by decide +kernel, by decide +kernel⟩, by decide, by decide +kernel⟩

theorem witness_FirstErrorIsKept : (about (.word 0x0100#16) locked).status.err ≠ 0 ∧
    step (about (.word 0x0100#16) locked) = .next (stepped (about (.word 0x0100#16) locked)) :=
  ⟨by decide +kernel, stepped_spec _⟩

/-- A sink with one bit, and it is 1. -/
def oneBit : State := runs [.sinkInit, .sinkWrite 1#8] (dev 1)

theorem witness_OutputBitsStaySet : BaseInv oneBit ∧ exec (.sinkWrite 0#8) oneBit = .next (after (.sinkWrite 0#8) oneBit) ∧
    opensSession (.sinkWrite 0#8) = false ∧ outBitAt oneBit.out 0 = true :=
  ⟨base_of_ok _ (by decide +kernel), after_spec _ _, by decide, by decide +kernel⟩

theorem witness_InvariantHoldsAtReset : resetParams.Legal ∧ (dev 1).params.Legal ∧ wide.params.Legal := by decide

theorem witness_StepKeepsStorageCanonical : oneBit.input.mem.wf ∧ oneBit.out.mem.wf ∧
    step (about (.word 0x1101#16) oneBit) = .next (stepped (about (.word 0x1101#16) oneBit)) :=
  ⟨by decide +kernel, by decide +kernel, stepped_spec _⟩

theorem witness_StepKeepsTheBaseInvariant : BaseInv (about (.word 0x1101#16) oneBit) ∧
    step (about (.word 0x1101#16) oneBit) = .next (stepped (about (.word 0x1101#16) oneBit)) :=
  ⟨base_of_ok _ (by decide +kernel), stepped_spec _⟩

theorem witness_StepKeepsTheHuffmanInvariant : Inv (about (.word 0x4200#16) twoCounted) ∧
    step (about (.word 0x4200#16) twoCounted) = .next (stepped (about (.word 0x4200#16) twoCounted)) :=
  ⟨inv_of_ok _ (by decide +kernel) (by decide +kernel), stepped_spec _⟩

/-- Configuration before the load, an ENCODE between loads, and no configuration at all; IN full at its last push. -/
theorem witness_ValidUseRaisesNoError : BaseInv (dev 1) ∧ (dev 1).status.err = 0 ∧
    validUse (dev 1).params.inCap (dev 1).input.len.toNat (decide ((dev 1).arithW ≠ 0)) (decide ((dev 1).session = .arith))
      [.arithConfig 64#8, .inPush 7#8, .arithEncode, .inClear, .inPush 8#8, .univEncode, .arithConfig 2#8, .huffEncode,
        .arithEncode] = true ∧
    validUse (dev 1).params.inCap (dev 1).input.len.toNat (decide ((dev 1).arithW ≠ 0)) (decide ((dev 1).session = .arith))
      [.univEncode, .huffEncode] = true :=
  ⟨base_of_ok _ (by decide +kernel), by decide +kernel, by decide +kernel, by decide +kernel⟩

/-- H1's input. -/
def scenario : State := runs ([0x41#8, 0x41#8, 0x41#8, 0x41#8, 0x42#8, 0x42#8, 0x42#8, 0x43#8, 0x43#8, 0x44#8].map .inPush)
  (dev 10)

theorem witness_HuffEncodeDependsOnlyOnInput :
    (∃ s s' t t' : State, s.params ≠ s'.params ∧ Inv s ∧ Inv s' ∧ s.session = .huffHist ∧ s'.session = .huffHist ∧
      s'.huf.hist = s.huf.hist ∧ s'.params.leafOrder = s.params.leafOrder ∧ s'.huf.order = s.huf.order ∧
      s'.params.singleCode = s.params.singleCode ∧ exec .huffBuild s = .next t ∧ exec .huffBuild s' = .next t') ∧
    (∃ s s' t t' : State, s.session ≠ s'.session ∧ BaseInv s ∧ BaseInv s' ∧ inputBytes s'.input = inputBytes s.input ∧
      s'.params.leafOrder = s.params.leafOrder ∧ s'.params.singleCode = s.params.singleCode ∧
      exec .huffEncode s = .next t ∧ exec .huffEncode s' = .next t') ∧
    (BaseInv scenario ∧ inputBytes scenario.input =
      [0x41#8, 0x41#8, 0x41#8, 0x41#8, 0x42#8, 0x42#8, 0x42#8, 0x43#8, 0x43#8, 0x44#8]) :=
  ⟨⟨oneCounted, runs [.huffBegin, .huffCount 7#8] (dev 2), _, _, by decide +kernel, inv_oneCounted,
      inv_of_ok _ (by decide +kernel) (by decide +kernel), by decide +kernel, by decide +kernel,
      Vector.toList_inj.mp (by decide +kernel), by decide +kernel, Vector.toList_inj.mp (by decide +kernel), by decide +kernel,
      after_spec _ _, after_spec _ _⟩,
    ⟨after (.inPush 7#8) (dev 1), runs [.inPush 7#8, .sinkInit] (dev 2), _, _, by decide +kernel,
      base_of_ok _ (by decide +kernel), base_of_ok _ (by decide +kernel), by decide +kernel, by decide +kernel,
      by decide +kernel, after_spec _ _, after_spec _ _⟩,
    base_of_ok _ (by decide +kernel), by decide +kernel⟩

end Sys2Proof.Tests
end

/-! PROOF. The canonical form of storage (log 8) through the sink, the packer and every part of a command (00_scope.md R8,
20_memory.md R60, R61). No hypothesis on the cursor or the lengths is needed: a write anywhere keeps the form. -/

namespace Sys2Proof.Machine

/-! ## Writing bits -/

/-- An appended zero byte keeps the canonical form (R141). -/
theorem wf_appendZero (o : OutBuf) (h : o.mem.wf) : (appendZero o).mem.wf := Memory.wf_write _ _ _ h

theorem wf_sinkInit : sinkInit.mem.wf := Memory.wf_empty

theorem wf_packInit : packInit.mem.wf := Memory.wf_empty

/-- One bit through the sink keeps the canonical form, wherever the cursor stands (R141). -/
theorem wf_sinkWriteBit (x : Bool) (o : OutBuf) (h : o.mem.wf) : (sinkWriteBit x o).mem.wf := by
  have hor : (sinkOrBit x o).mem.wf := by
    cases x with
    | false => exact h
    | true => exact Memory.wf_setBit _ _ _ h
  unfold sinkWriteBit sinkAdvance
  split
  · exact wf_appendZero _ hor
  · exact hor

/-- One bit through the packer keeps the canonical form, whatever BITS is (R221). -/
theorem wf_packBit (x : Bool) (o : OutBuf) (h : o.mem.wf) : (packBit x o).mem.wf := by
  have hopen : (packOpen o).mem.wf := by
    unfold packOpen
    split
    · exact wf_appendZero _ h
    · exact h
  cases x with
  | false => exact hopen
  | true => exact Memory.wf_setBit _ _ _ hopen

theorem wf_sinkWriteBits (l : BitString) (o : OutBuf) (h : o.mem.wf) : (sinkWriteBits l o).mem.wf :=
  List.foldlRecOn (motive := fun o : OutBuf => o.mem.wf) l _ h fun o ho x _ => wf_sinkWriteBit x o ho

theorem wf_packBits (l : BitString) (o : OutBuf) (h : o.mem.wf) : (packBits l o).mem.wf :=
  List.foldlRecOn (motive := fun o : OutBuf => o.mem.wf) l _ h fun o ho x _ => wf_packBit x o ho

/-! ## The parts of the commands -/

/-- IN and OUT in canonical form, with the parameters `p`. -/
structure StorageCanonical (p : Params) (s : State) : Prop where
  input : s.input.mem.wf
  out : s.out.mem.wf
  params : s.params = p

/-- A new session over canonical storage (R22, R31). -/
theorem storageCanonical_openSession {p : Params} {s : State} (n : Session) (o : OutBuf) (ho : o.mem.wf)
    (h : StorageCanonical p s) : StorageCanonical p (openSession n o s) := ⟨h.input, ho, h.params⟩

/-- IN_PUSH writes one byte of IN or nothing (R124). -/
theorem storageCanonical_inPushBody {p : Params} {s : State} (b : Byte) (h : StorageCanonical p s) :
    StorageCanonical p (inPushBody b s).state := by
  obtain ⟨_, e⟩ | ⟨_, e⟩ := inPushBody_cases b s <;> rw [e]
  · exact h
  · exact ⟨Memory.wf_write _ _ _ h.input, h.out, h.params⟩

/-- SINK_WRITE writes one bit through the sink or nothing (R148). -/
theorem storageCanonical_sinkWriteBody {p : Params} {s : State} (x : Byte) (h : StorageCanonical p s) :
    StorageCanonical p (sinkWriteBody x s).state := by
  obtain ⟨_, e⟩ | ⟨_, _, e⟩ | ⟨_, _, e⟩ := sinkWriteBody_cases x s <;> rw [e]
  · exact h
  · exact h
  · exact ⟨h.input, wf_sinkWriteBit _ _ h.out, h.params⟩

/-- UNIV_STEP writes bits through the sink or nothing (R164). -/
theorem storageCanonical_univStepBody {p : Params} {s : State} (b : Byte) (h : StorageCanonical p s) :
    StorageCanonical p (univStepBody b s).state := by
  obtain ⟨_, e⟩ | ⟨_, _, e⟩ | ⟨_, _, _, e⟩ | ⟨_, _, _, e⟩ := univStepBody_cases b s <;> rw [e]
  · exact h
  · exact h
  · exact h
  · exact ⟨h.input, wf_sinkWriteBits _ _ h.out, h.params⟩

/-- ARITH_CONFIG writes neither IN nor OUT (R181). -/
theorem storageCanonical_arithConfigBody {p : Params} {s : State} (w : Byte) (h : StorageCanonical p s) :
    StorageCanonical p (arithConfigBody w s).state := by
  obtain ⟨_, e⟩ | ⟨_, _, e⟩ | ⟨_, _, _, e⟩ := arithConfigBody_cases w s <;> rw [e]
  · exact h
  · exact ⟨h.input, h.out, h.params⟩
  · exact ⟨h.input, h.out, h.params⟩

/-- ARITH_BEGIN opens a sink or writes nothing (R182). -/
theorem storageCanonical_arithBeginBody {p : Params} {s : State} (h : StorageCanonical p s) :
    StorageCanonical p (arithBeginBody s).state := by
  obtain ⟨_, e⟩ | ⟨_, e⟩ := arithBeginBody_cases s <;> rw [e]
  · exact h
  · exact ⟨h.input, wf_sinkInit, h.params⟩

/-- ARITH_STEP writes bits through the sink or nothing (R195). -/
theorem storageCanonical_arithStepBody {p : Params} {s : State} (b : Byte) (h : StorageCanonical p s) :
    StorageCanonical p (arithStepBody b s).state := by
  obtain ⟨_, e⟩ | ⟨_, _, e⟩ | ⟨_, _, _, e⟩ | ⟨_, _, _, e⟩ := arithStepBody_cases b s <;> rw [e]
  · exact h
  · exact h
  · exact h
  · exact ⟨h.input, wf_sinkWriteBits _ _ h.out, h.params⟩

/-- HUFF_COUNT writes neither IN nor OUT (R224). -/
theorem storageCanonical_huffCountBody {p : Params} {s : State} (b : Byte) (h : StorageCanonical p s) :
    StorageCanonical p (huffCountBody b s).state := by
  obtain ⟨_, e⟩ | ⟨_, _, e⟩ | ⟨_, _, e⟩ := huffCountBody_cases b s <;> rw [e]
  · exact h
  · exact h
  · exact ⟨h.input, h.out, h.params⟩

/-- HUFF_BUILD writes neither IN nor OUT (R230). -/
theorem storageCanonical_huffBuildBody {p : Params} {s : State} (h : StorageCanonical p s) :
    StorageCanonical p (huffBuildBody s).state := by
  obtain ⟨_, e⟩ | ⟨_, e⟩ := huffBuildBody_cases s <;> rw [e]
  · exact h
  · exact ⟨h.input, h.out, h.params⟩

/-- HUFF_EMIT writes bits through the packer or nothing (R233). -/
theorem storageCanonical_huffEmitBody {p : Params} {s : State} (b : Byte) (h : StorageCanonical p s) :
    StorageCanonical p (huffEmitBody b s).state := by
  obtain ⟨_, e⟩ | ⟨_, _, e⟩ | ⟨_, _, _, e⟩ | ⟨_, _, _, e⟩ := huffEmitBody_cases b s <;> rw [e]
  · exact h
  · exact h
  · exact h
  · exact ⟨h.input, wf_packBits _ _ h.out, h.params⟩

/-- Every part of a command keeps the storage canonical and the parameters. -/
theorem partsKeep_storageCanonical (p : Params) : PartsKeep (StorageCanonical p) where
  raise _ _ _ h := ⟨h.input, h.out, h.params⟩
  clear _ h := ⟨h.input, h.out, h.params⟩
  reset _ h := ⟨Memory.wf_empty, wf_packInit, h.params⟩
  inClear _ h := ⟨Memory.wf_empty, h.out, h.params⟩
  inPush b _ h := storageCanonical_inPushBody b h
  sinkOpen _ h := storageCanonical_openSession _ _ wf_sinkInit h
  sinkWrite x _ h := storageCanonical_sinkWriteBody x h
  univBegin _ h := storageCanonical_openSession _ _ wf_sinkInit h
  univStep b _ h := storageCanonical_univStepBody b h
  arithConfig w _ h := storageCanonical_arithConfigBody w h
  arithBegin _ h := storageCanonical_arithBeginBody h
  arithStep b _ h := storageCanonical_arithStepBody b h
  huffBegin _ h := ⟨h.input, wf_packInit, h.params⟩
  huffCount b _ h := storageCanonical_huffCountBody b h
  huffBuild _ h := storageCanonical_huffBuildBody h
  huffEmit b _ h := storageCanonical_huffEmitBody b h

/-- Settles O56: the canonical form is kept by every part of a command, so by every step; a word taken off or a read answered
changes only the host's side. -/
theorem stepKeepsStorageCanonical : Obligations.StepKeepsStorageCanonical := by
  unfold Obligations.StepKeepsStorageCanonical
  intro s t hin hout h
  have hs : StorageCanonical s.params s := ⟨hin, hout, rfl⟩
  have htake : ∀ r u, StorageCanonical s.params u → StorageCanonical s.params (takeEvent r u) :=
    fun _ _ hu => ⟨hu.input, hu.out, hu.params⟩
  have hread : ∀ a u, StorageCanonical s.params u → StorageCanonical s.params (answerRead a u) :=
    fun _ _ hu => ⟨hu.input, hu.out, hu.params⟩
  obtain ⟨hin', hout', hparams⟩ := step_keeps _ (partsKeep_storageCanonical s.params) htake hread s t hs h
  exact ⟨hin', hout', hparams⟩

end Sys2Proof.Machine

/-! PROOF. The invariant of the machine but for the Huffman tables, through every part of a command (10_state.md R44). -/

namespace Sys2Proof.Machine

/-! ## The output state, session by session -/

/-- With a live sink the output state's invariant is a ready sink within the capacity (R44 items 2, 3). -/
theorem outputInv_iff_sinkReady {s : State} (hl : sinkLive s.session = true) :
    OutputInv s ↔ SinkReady s.out ∧ s.out.len.toNat ≤ outCap s.params := by
  have hlen : LengthInv s ↔ s.out.len.toNat = s.out.bits.toNat / 8 + 1 := by
    unfold LengthInv
    cases hn : s.session <;> simp [hn, sinkLive] at hl ⊢
  constructor
  · rintro ⟨hwf, hcur, hclean, hlength, hcap⟩
    exact ⟨⟨hwf, hcur, hclean, hlen.mp hlength⟩, hcap⟩
  · rintro ⟨⟨hwf, hcur, hclean, hlength⟩, hcap⟩
    exact ⟨hwf, hcur, hclean, hlen.mpr hlength, hcap⟩

/-- In a HUFF_EMIT session it is a ready packer within the capacity (R44 item 4). -/
theorem outputInv_iff_packReady {s : State} (he : s.session = .huffEmit) :
    OutputInv s ↔ PackReady s.out ∧ s.out.len.toNat ≤ outCap s.params := by
  have hlen : LengthInv s ↔ s.out.len.toNat = (s.out.bits.toNat + 7) / 8 := by simp [LengthInv, he]
  constructor
  · rintro ⟨hwf, hcur, hclean, hlength, hcap⟩
    exact ⟨⟨hwf, hcur, hclean, hlen.mp hlength⟩, hcap⟩
  · rintro ⟨⟨hwf, hcur, hclean, hlength⟩, hcap⟩
    exact ⟨hwf, hcur, hclean, hlen.mpr hlength, hcap⟩

/-- An empty output meets the invariant where no byte has been written (R44 item 4, R290). -/
theorem outputInv_of_packInit {s : State} (ho : s.out = packInit) (hn : s.session = .none ∨ s.session = .huffHist) :
    OutputInv s := by
  have hlen : LengthInv s := by
    unfold LengthInv
    obtain hn | hn := hn <;> simp [hn, ho]
  obtain ⟨hwf, hcur, hclean, -⟩ := packReady_init
  rw [← ho] at hwf hcur hclean
  exact ⟨hwf, hcur, hclean, hlen, by simp [ho]⟩

/-- OUT_CAP is far below the counters' range (R6). -/
theorem outCap_le {p : Params} (hp : p.Legal) : outCap p ≤ 2 ^ 29 := by
  obtain ⟨_, hp⟩ := hp
  unfold outCap
  omega

/-- SYM_MAX is far below the counters' range (R6). -/
theorem symMax_le {p : Params} (hp : p.Legal) : symMax p ≤ 2 ^ 25 := by
  obtain ⟨_, hp⟩ := hp
  unfold symMax
  omega

/-- A bit string that fits keeps BITS within the counters' range (R142). -/
theorem bits_lt_of_sinkFits {p : Params} {o : OutBuf} {e : Nat} (hp : p.Legal) (hf : sinkFits p o e = true) :
    o.bits.toNat + e < 2 ^ 63 := by
  have hcap := outCap_le hp
  simp only [sinkFits, decide_eq_true_eq] at hf
  omega

/-- The packer's form of `bits_lt_of_sinkFits` (R222). -/
theorem bits_lt_of_packFits {p : Params} {o : OutBuf} {e : Nat} (hp : p.Legal) (hf : packFits p o e = true) :
    o.bits.toNat + e < 2 ^ 63 := by
  have hcap := outCap_le hp
  simp only [packFits, decide_eq_true_eq] at hf
  omega

/-- A bit string that fits, written through a live sink, keeps the output state's invariant (R142, R144). -/
theorem outputInv_of_sinkWriteBits {s t : State} {l : BitString} (h : BaseInv s) (hl : sinkLive s.session = true)
    (hf : sinkFits s.params s.out l.length = true) (hout : t.out = sinkWriteBits l s.out) (hn : t.session = s.session)
    (hp : t.params = s.params) : OutputInv t := by
  obtain ⟨hready, -⟩ := (outputInv_iff_sinkReady hl).mp h.output
  obtain ⟨hready', hbits, -⟩ := sinkWriteBits_spec l s.out hready (bits_lt_of_sinkFits h.legal hf)
  simp only [sinkFits, decide_eq_true_eq] at hf
  rw [outputInv_iff_sinkReady (by rw [hn]; exact hl), hout, hp]
  exact ⟨hready', by rw [hready'.len, hbits]; exact hf⟩

/-- A code that fits, packed in a HUFF_EMIT session, keeps the output state's invariant (R222, R235). -/
theorem outputInv_of_packBits {s t : State} {l : BitString} (h : BaseInv s) (he : s.session = .huffEmit)
    (hf : packFits s.params s.out l.length = true) (hout : t.out = packBits l s.out) (hn : t.session = s.session)
    (hp : t.params = s.params) : OutputInv t := by
  obtain ⟨hready, -⟩ := (outputInv_iff_packReady he).mp h.output
  obtain ⟨hready', hbits, -⟩ := packBits_spec l s.out hready (bits_lt_of_packFits h.legal hf)
  simp only [packFits, decide_eq_true_eq] at hf
  rw [outputInv_iff_packReady (hn.trans he), hout, hp]
  exact ⟨hready', by rw [hready'.len, hbits]; exact hf⟩

/-! ## The symbol count -/

/-- NSYM + 1 after a symbol that was allowed: no overflow, and within SYM_MAX (R33, R261 code 4). -/
theorem nsym_succ {s : State} (h : BaseInv s) (hx : symbolsExhausted s = false) :
    (s.nsym + 1).toNat = s.nsym.toNat + 1 ∧ s.nsym.toNat + 1 ≤ symMax s.params := by
  have hle := h.nsym
  obtain ⟨-, hp⟩ := h.legal
  simp only [symbolsExhausted, beq_eq_false_iff_ne, ne_eq] at hx
  simp only [symMax] at hx hle ⊢
  exact ⟨bits_succ _ (by omega), by omega⟩

/-! ## The arithmetic encoder -/

/-- The invariant of the arithmetic registers says nothing outside an ARITH session (log 12). -/
theorem arithInv_of_session_ne {s : State} (h : s.session ≠ .arith) : ArithInv s := fun ha => absurd ha h

/-- A number below 2^W is what a 64-bit register of it holds (R35). -/
theorem toNat_ofNat_of_lt_width {w x : Nat} (hw : w ≤ 64) (hx : x < 2 ^ w) : (BitVec.ofNat 64 x).toNat = x := by
  rw [BitVec.toNat_ofNat, Nat.mod_eq_of_lt (lt_of_lt_of_le hx (Nat.pow_le_pow_right (by omega) hw))]

/-- What a step computes lies within W bits (R193). -/
theorem arithCompute_lt (p : Params) (w : Nat) (a : Arith) (b : Byte) (hw : 1 ≤ w) :
    (arithCompute p w a b).low < 2 ^ w ∧ (arithCompute p w a b).high < 2 ^ w := secondaryShift_lt _ _ _ _ hw

/-- A session starts with LOW and HIGH within W bits and every frequency 1 (R182, R44). -/
theorem arithInv_arithStart {s : State} (hw : WidthInv s) (h0 : s.arithW ≠ 0) (ha : s.ari = arithStart (windowWidth s))
    (hn : s.nsym = 0) : ArithInv s := by
  intro _
  obtain h | ⟨_, hmax⟩ := hw
  · exact absurd h h0
  have hpos : 0 < 2 ^ windowWidth s := by positivity
  have hhigh : 2 ^ windowWidth s - 1 < 2 ^ windowWidth s := by omega
  refine ⟨h0, ?_, ?_, fun v => ?_, ?_⟩
  · simp [ha, arithStart]
  · rw [ha, arithStart, toNat_ofNat_of_lt_width hmax hhigh]
    exact hhigh
  · simp [ha, arithStart]
  · rw [ha, arithStart, countTotal_eq, tableSum_tableAll, hn]
    rfl

/-- A committed step keeps LOW and HIGH within W bits, every frequency at least 1 and their sum 256 + NSYM (R193, R194). -/
theorem arithInv_arithCommit {s : State} (b : Byte) (h : BaseInv s) (ha : s.session = .arith)
    (hx : symbolsExhausted s = false) : ArithInv (arithCommit b s) := by
  intro _
  obtain ⟨hw0, -, -, hfreq, htotal⟩ := h.arith ha
  obtain hw | ⟨hw2, hw64⟩ := h.width
  · exact absurd hw hw0
  obtain ⟨hlow, hhigh⟩ := arithCompute_lt s.params (windowWidth s) s.ari b (by omega)
  obtain ⟨hn, hle⟩ := nsym_succ h hx
  have hcap := symMax_le h.legal
  rw [countTotal_eq] at htotal
  have hsum := tableSum_increment s.ari.freq b (by omega)
  have hentry := tableGet_le_tableSum s.ari.freq b
  refine ⟨hw0, ?_, ?_, fun v => ?_, ?_⟩
  · exact (toNat_ofNat_of_lt_width hw64 hlow).trans_lt hlow
  · exact (toNat_ofNat_of_lt_width hw64 hhigh).trans_lt hhigh
  · show 1 ≤ (tableGet (freqIncrement s.ari.freq b) v).toNat
    rw [freqIncrement, tableGet_tableSet]
    split
    · rw [bits_succ _ (by omega)]
      omega
    · exact hfreq v
  · show tableSum (freqIncrement s.ari.freq b) = 256 + (s.nsym + 1).toNat
    rw [freqIncrement, hsum, hn]
    omega

/-! ## The parts of the commands -/

/-- A recorded error is a legal code (R261, R262). -/
theorem statusInv_raiseError (c : ErrCode) (opc : Byte) (s : State) : StatusInv (raiseError c opc s) :=
  ⟨(errValue_range c).2, fun h => absurd h (errValue_ne_zero c)⟩

/-- The reset state meets the invariant (R43, R290). -/
theorem baseInv_initial {p : Params} (hp : p.Legal) (h : HostSide) : BaseInv (State.initial p h) where
  legal := hp
  status := ⟨by simp [State.initial], fun _ => rfl⟩
  input := ⟨Memory.wf_empty, by simp [State.initial]⟩
  output := outputInv_of_packInit rfl (.inl rfl)
  nsym := by simp [State.initial]
  width := .inl rfl
  arith := arithInv_of_session_ne (by simp [State.initial])

/-- A session over a fresh sink, but for the ARITH registers (R140, R147, R163). -/
theorem baseInv_openSession {s : State} {n : Session} (hn : sinkLive n = true) (hna : n ≠ .arith) (h : BaseInv s) :
    BaseInv (openSession n sinkInit s) where
  legal := h.legal
  status := h.status
  input := h.input
  output := (outputInv_iff_sinkReady hn).mpr ⟨sinkReady_init, by simp [outCap]⟩
  nsym := by simp
  width := h.width
  arith := arithInv_of_session_ne hna

/-- IN_PUSH appends one byte within IN_CAP or changes nothing (R124). -/
theorem baseInv_inPushBody {s : State} (b : Byte) (h : BaseInv s) : BaseInv (inPushBody b s).state := by
  obtain ⟨-, e⟩ | ⟨hne, e⟩ := inPushBody_cases b s <;> rw [e]
  · exact h
  · obtain ⟨hwf, hlen⟩ := h.input
    have hcap := h.legal.2
    have hsucc := bits_succ s.input.len (by omega)
    refine { h with input := ⟨Memory.wf_write _ _ _ hwf, ?_⟩ }
    show (s.input.len + 1).toNat ≤ s.params.inCap
    omega

/-- SINK_WRITE writes one bit that fits through a live sink, or nothing (R148). -/
theorem baseInv_sinkWriteBody {s : State} (x : Byte) (h : BaseInv s) : BaseInv (sinkWriteBody x s).state := by
  obtain ⟨-, e⟩ | ⟨-, -, e⟩ | ⟨hl, hf, e⟩ := sinkWriteBody_cases x s <;> rw [e]
  · exact h
  · exact h
  · exact { h with output := outputInv_of_sinkWriteBits (l := [bitOperand x]) h hl hf rfl rfl rfl }

/-- UNIV_STEP writes a code that fits and counts one symbol, or changes nothing (R164). -/
theorem baseInv_univStepBody {s : State} (b : Byte) (h : BaseInv s) : BaseInv (univStepBody b s).state := by
  obtain ⟨-, e⟩ | ⟨-, -, e⟩ | ⟨-, -, -, e⟩ | ⟨hu, hx, hf, e⟩ := univStepBody_cases b s <;> rw [e]
  · exact h
  · exact h
  · exact h
  · have hl : sinkLive s.session = true := by rw [hu]; rfl
    obtain ⟨hn, hle⟩ := nsym_succ h hx
    exact { h with
      output := outputInv_of_sinkWriteBits h hl hf rfl rfl rfl
      nsym := hn.trans_le hle
      arith := arithInv_of_session_ne (by simp [CmdResult.state, hu]) }

/-- ARITH_CONFIG changes the width outside ARITH sessions only (R181). -/
theorem baseInv_arithConfigBody {s : State} (w : Byte) (h : BaseInv s) : BaseInv (arithConfigBody w s).state := by
  obtain ⟨-, e⟩ | ⟨hna, -, e⟩ | ⟨hna, h2, hmax, e⟩ := arithConfigBody_cases w s <;> rw [e]
  · exact h
  · exact { h with width := .inl rfl, arith := arithInv_of_session_ne hna }
  · exact { h with width := .inr ⟨h2, hmax⟩, arith := arithInv_of_session_ne hna }

/-- ARITH_BEGIN opens an ARITH session over a fresh sink, or changes nothing (R182). -/
theorem baseInv_arithBeginBody {s : State} (h : BaseInv s) : BaseInv (arithBeginBody s).state := by
  obtain ⟨-, e⟩ | ⟨hw0, e⟩ := arithBeginBody_cases s <;> rw [e]
  · exact h
  · exact {
      legal := h.legal
      status := h.status
      input := h.input
      output := (outputInv_iff_sinkReady rfl).mpr ⟨sinkReady_init, by simp [CmdResult.state, outCap]⟩
      nsym := by simp [CmdResult.state]
      width := h.width
      arith := arithInv_arithStart h.width hw0 rfl rfl }

/-- ARITH_STEP commits a step whose bits fit, or changes nothing (R195). -/
theorem baseInv_arithStepBody {s : State} (b : Byte) (h : BaseInv s) : BaseInv (arithStepBody b s).state := by
  obtain ⟨-, e⟩ | ⟨-, -, e⟩ | ⟨-, -, -, e⟩ | ⟨ha, hx, hf, e⟩ := arithStepBody_cases b s <;> rw [e]
  · exact h
  · exact h
  · exact h
  · have hl : sinkLive s.session = true := by rw [ha]; rfl
    obtain ⟨hn, hle⟩ := nsym_succ h hx
    exact { h with
      output := outputInv_of_sinkWriteBits h hl hf rfl rfl rfl
      nsym := hn.trans_le hle
      arith := arithInv_arithCommit b h ha hx }

/-- HUFF_BEGIN opens a session over an empty output (R223). -/
theorem baseInv_huffBeginBody {s : State} (h : BaseInv s) : BaseInv (huffBeginBody s) where
  legal := h.legal
  status := h.status
  input := h.input
  output := outputInv_of_packInit rfl (.inr rfl)
  nsym := by simp [huffBeginBody]
  width := h.width
  arith := arithInv_of_session_ne (by simp [huffBeginBody])

/-- HUFF_COUNT counts one symbol or changes nothing (R224). -/
theorem baseInv_huffCountBody {s : State} (b : Byte) (h : BaseInv s) : BaseInv (huffCountBody b s).state := by
  obtain ⟨-, e⟩ | ⟨-, -, e⟩ | ⟨hs, hx, e⟩ := huffCountBody_cases b s <;> rw [e]
  · exact h
  · exact h
  · obtain ⟨hn, hle⟩ := nsym_succ h hx
    exact { h with nsym := hn.trans_le hle, arith := arithInv_of_session_ne (by simp [CmdResult.state, hs]) }

/-- HUFF_BUILD leaves the empty output, which a packer can begin with (R230, R44 item 4). -/
theorem baseInv_huffBuildBody {s : State} (h : BaseInv s) : BaseInv (huffBuildBody s).state := by
  obtain ⟨-, e⟩ | ⟨hs, e⟩ := huffBuildBody_cases s <;> rw [e]
  · exact h
  · obtain ⟨hwf, hcur, hclean, hlength, hcap⟩ := h.output
    simp only [LengthInv, hs] at hlength
    obtain ⟨hlen, hbits⟩ := hlength
    have hready : PackReady s.out := ⟨hwf, hcur, hclean, by simp [hlen, hbits]⟩
    exact { h with
      output := (outputInv_iff_packReady rfl).mpr ⟨hready, hcap⟩
      arith := arithInv_of_session_ne (by simp [CmdResult.state]) }

@[simp] theorem codeBits_length (h : Huff) (b : Byte) : (codeBits h b).length = (tableGet h.clen b).toNat := by
  simp [codeBits]

/-- HUFF_EMIT packs a code that fits, or changes nothing (R233). -/
theorem baseInv_huffEmitBody {s : State} (b : Byte) (h : BaseInv s) : BaseInv (huffEmitBody b s).state := by
  obtain ⟨-, e⟩ | ⟨-, -, e⟩ | ⟨-, -, -, e⟩ | ⟨hs, -, hf, e⟩ := huffEmitBody_cases b s <;> rw [e]
  · exact h
  · exact h
  · exact h
  · rw [← codeBits_length] at hf
    exact { h with output := outputInv_of_packBits h hs hf rfl rfl rfl }

/-- Every part of a command keeps the base invariant. -/
theorem partsKeep_baseInv : PartsKeep BaseInv where
  raise c o s h := { h with status := statusInv_raiseError c o s }
  clear s h := { h with status := ⟨by simp, fun _ => rfl⟩ }
  reset s h := baseInv_initial h.legal s.host
  inClear s h := { h with input := ⟨Memory.wf_empty, by simp⟩ }
  inPush b _ h := baseInv_inPushBody b h
  sinkOpen _ h := baseInv_openSession rfl (by simp) h
  sinkWrite x _ h := baseInv_sinkWriteBody x h
  univBegin _ h := baseInv_openSession rfl (by simp) h
  univStep b _ h := baseInv_univStepBody b h
  arithConfig w _ h := baseInv_arithConfigBody w h
  arithBegin _ h := baseInv_arithBeginBody h
  arithStep b _ h := baseInv_arithStepBody b h
  huffBegin _ h := baseInv_huffBeginBody h
  huffCount b _ h := baseInv_huffCountBody b h
  huffBuild _ h := baseInv_huffBuildBody h
  huffEmit b _ h := baseInv_huffEmitBody b h

/-- Settles O57: every part of a command keeps the base invariant, and a word taken off or a read answered changes only the
host's side. -/
theorem stepKeepsTheBaseInvariant : Obligations.StepKeepsTheBaseInvariant := by
  unfold Obligations.StepKeepsTheBaseInvariant
  exact step_keeps BaseInv partsKeep_baseInv (fun _ _ h => { h with }) (fun _ _ h => { h with })

end Sys2Proof.Machine

/-! PROOF. Which commands write which state (10_state.md R22 to R40, 70_reset_and_hazards.md R298): one frame per part of a
command, and what the composites' parts write together. -/

namespace Sys2Proof.Machine

/-! ## The frame of a command -/

/-- `t` differs from `s` only in what `i` writes, and in ERR and ERR_OP. -/
structure Frame (i : Instr) (s t : State) : Prop where
  params : t.params = s.params
  host : t.host = s.host
  input : writesInput i = false → t.input = s.input
  out : writesOutput i = false → t.out = s.out
  nsym : writesNsym i = false → t.nsym = s.nsym
  session : writesSession i = false → t.session = s.session
  width : writesWidth i = false → t.arithW = s.arithW
  ari : writesArith i = false → t.ari = s.ari
  huf : writesHuff i = false → t.huf = s.huf
  degen : writesDegen i = false → t.status.degen = s.status.degen

theorem Frame.refl (i : Instr) (s : State) : Frame i s s := by constructor <;> intros <;> rfl

theorem Frame.trans {i : Instr} {s t u : State} (h : Frame i s t) (h' : Frame i t u) : Frame i s u where
  params := h'.params.trans h.params
  host := h'.host.trans h.host
  input w := (h'.input w).trans (h.input w)
  out w := (h'.out w).trans (h.out w)
  nsym w := (h'.nsym w).trans (h.nsym w)
  session w := (h'.session w).trans (h.session w)
  width w := (h'.width w).trans (h.width w)
  ari w := (h'.ari w).trans (h.ari w)
  huf w := (h'.huf w).trans (h.huf w)
  degen w := (h'.degen w).trans (h.degen w)

/-- Recording an error writes ERR and ERR_OP only (R262). -/
theorem frame_raiseError (i : Instr) (c : ErrCode) (opc : Byte) (s : State) : Frame i s (raiseError c opc s) := by
  constructor <;> intros <;> rfl

/-- The frame of a command's body is the command's (R262). -/
theorem Frame.of_finish {i : Instr} {s t : State} {opc : Byte} {r : CmdResult} (hr : Frame i s r.state)
    (h : finish opc r = .next t) : Frame i s t :=
  finish_keeps (Frame i s) (fun c o _ hu => hu.trans (frame_raiseError i c o _)) opc r t hr h

/-- The frame of a loop is that of its sub-steps (R267). -/
theorem frame_forEach {i : Instr} {f : Byte → State → CmdResult} (hf : ∀ b s, Frame i s (f b s).state) (bs : List Byte)
    (s : State) : Frame i s (forEach f bs s).state :=
  forEach_keeps f (Frame i s) (fun b u hu => hu.trans (hf b u)) bs s (.refl i s)

/-- The frame of a sequence is that of its parts (R267). -/
theorem frame_andThen {i : Instr} {s : State} {r : CmdResult} {k : State → CmdResult} (hr : Frame i s r.state)
    (hk : ∀ u, Frame i u (k u).state) : Frame i s (r.andThen k).state :=
  andThen_keeps (Frame i s) r k hr fun u hu => hu.trans (hk u)

/-! ## The parts

Each for every command that may write what the part writes, so that the composites share them. -/

section
variable {i : Instr}

/-- Opening a session writes OUT, NSYM and SESSION (R22, R31, R33). -/
theorem frame_openSession (hi : opensSession i = true) (n : Session) (o : OutBuf) (s : State) :
    Frame i s (openSession n o s) := by
  constructor <;> simp [writesOutput, writesNsym, writesSession, hi]

/-- IN_PUSH writes IN (R124). -/
theorem frame_inPushBody (hi : writesInput i = true) (b : Byte) (s : State) : Frame i s (inPushBody b s).state := by
  obtain ⟨-, e⟩ | ⟨-, e⟩ := inPushBody_cases b s <;> rw [e]
  · exact .refl i s
  · constructor <;> simp [CmdResult.state, hi]

/-- SINK_WRITE writes OUT (R148). -/
theorem frame_sinkWriteBody (hi : writesOutput i = true) (x : Byte) (s : State) :
    Frame i s (sinkWriteBody x s).state := by
  obtain ⟨-, e⟩ | ⟨-, -, e⟩ | ⟨-, -, e⟩ := sinkWriteBody_cases x s <;> rw [e]
  · exact .refl i s
  · exact .refl i s
  · constructor <;> simp [CmdResult.state, hi]

/-- UNIV_STEP writes OUT and NSYM (R164). -/
theorem frame_univStepBody (ho : writesOutput i = true) (hn : writesNsym i = true) (b : Byte) (s : State) :
    Frame i s (univStepBody b s).state := by
  obtain ⟨-, e⟩ | ⟨-, -, e⟩ | ⟨-, -, -, e⟩ | ⟨-, -, -, e⟩ := univStepBody_cases b s <;> rw [e]
  · exact .refl i s
  · exact .refl i s
  · exact .refl i s
  · constructor <;> simp [CmdResult.state, ho, hn]

/-- ARITH_CONFIG writes ARITH_W (R181). -/
theorem frame_arithConfigBody (hi : writesWidth i = true) (w : Byte) (s : State) :
    Frame i s (arithConfigBody w s).state := by
  obtain ⟨-, e⟩ | ⟨-, -, e⟩ | ⟨-, -, -, e⟩ := arithConfigBody_cases w s <;> rw [e]
  · exact .refl i s
  · constructor <;> simp [CmdResult.state, hi]
  · constructor <;> simp [CmdResult.state, hi]

/-- ARITH_BEGIN opens a session and writes LOW, HIGH, FREQ and DEGEN (R182). -/
theorem frame_arithBeginBody (hi : opensSession i = true) (ha : writesArith i = true) (hd : writesDegen i = true)
    (s : State) : Frame i s (arithBeginBody s).state := by
  obtain ⟨-, e⟩ | ⟨-, e⟩ := arithBeginBody_cases s <;> rw [e]
  · exact .refl i s
  · constructor <;> simp [CmdResult.state, writesOutput, writesNsym, writesSession, hi, ha, hd]

/-- ARITH_STEP writes OUT, NSYM, LOW, HIGH, FREQ and DEGEN (R195). -/
theorem frame_arithStepBody (ho : writesOutput i = true) (hn : writesNsym i = true) (ha : writesArith i = true)
    (hd : writesDegen i = true) (b : Byte) (s : State) : Frame i s (arithStepBody b s).state := by
  obtain ⟨-, e⟩ | ⟨-, -, e⟩ | ⟨-, -, -, e⟩ | ⟨-, -, -, e⟩ := arithStepBody_cases b s <;> rw [e]
  · exact .refl i s
  · exact .refl i s
  · exact .refl i s
  · constructor <;> simp [CmdResult.state, arithCommit, ho, hn, ha, hd]

/-- HUFF_BEGIN opens a session and writes the Huffman tables (R223). -/
theorem frame_huffBeginBody (hi : opensSession i = true) (hh : writesHuff i = true) (s : State) :
    Frame i s (huffBeginBody s) := by
  constructor <;> simp [huffBeginBody, writesOutput, writesNsym, writesSession, hi, hh]

/-- HUFF_COUNT writes the Huffman tables and NSYM (R224). -/
theorem frame_huffCountBody (hn : writesNsym i = true) (hh : writesHuff i = true) (b : Byte) (s : State) :
    Frame i s (huffCountBody b s).state := by
  obtain ⟨-, e⟩ | ⟨-, -, e⟩ | ⟨-, -, e⟩ := huffCountBody_cases b s <;> rw [e]
  · exact .refl i s
  · exact .refl i s
  · constructor <;> simp [CmdResult.state, hn, hh]

/-- HUFF_BUILD writes the Huffman tables and SESSION (R230). -/
theorem frame_huffBuildBody (hs : writesSession i = true) (hh : writesHuff i = true) (s : State) :
    Frame i s (huffBuildBody s).state := by
  obtain ⟨-, e⟩ | ⟨-, e⟩ := huffBuildBody_cases s <;> rw [e]
  · exact .refl i s
  · constructor <;> simp [CmdResult.state, hs, hh]

/-- HUFF_EMIT writes OUT (R233). -/
theorem frame_huffEmitBody (hi : writesOutput i = true) (b : Byte) (s : State) :
    Frame i s (huffEmitBody b s).state := by
  obtain ⟨-, e⟩ | ⟨-, -, e⟩ | ⟨-, -, -, e⟩ | ⟨-, -, -, e⟩ := huffEmitBody_cases b s <;> rw [e]
  · exact .refl i s
  · exact .refl i s
  · exact .refl i s
  · constructor <;> simp [CmdResult.state, hi]

end

/-! ## The commands -/

/-- Every command changes only what it writes, and ERR and ERR_OP (R22 to R40, R298). -/
theorem exec_frame (i : Instr) (s t : State) (h : exec i s = .next t) : Frame i s t := by
  cases i with
  | nop => cases h; exact .refl _ s
  | clrErr => cases h; constructor <;> intros <;> rfl
  | softReset => cases h; constructor <;> simp [writesInput, writesOutput, writesNsym, writesSession, writesWidth,
      writesArith, writesHuff, writesDegen, opensSession]
  | inClear => cases h; constructor <;> simp [writesInput]
  | inPush b => exact .of_finish (frame_inPushBody rfl b s) h
  | sinkInit => cases h; exact frame_openSession rfl _ _ s
  | sinkWrite x => exact .of_finish (frame_sinkWriteBody rfl x s) h
  | univBegin => cases h; exact frame_openSession rfl _ _ s
  | univStep b => exact .of_finish (frame_univStepBody rfl rfl b s) h
  | univEncode =>
    exact .of_finish ((frame_openSession rfl _ _ s).trans (frame_forEach (frame_univStepBody rfl rfl) _ _)) h
  | arithConfig w => exact .of_finish (frame_arithConfigBody rfl w s) h
  | arithBegin => exact .of_finish (frame_arithBeginBody rfl rfl rfl s) h
  | arithStep b => exact .of_finish (frame_arithStepBody rfl rfl rfl rfl b s) h
  | arithEncode =>
    exact .of_finish (frame_andThen (frame_arithBeginBody rfl rfl rfl s)
      (frame_forEach (frame_arithStepBody rfl rfl rfl rfl) _)) h
  | huffBegin => cases h; exact frame_huffBeginBody rfl rfl s
  | huffCount b => exact .of_finish (frame_huffCountBody rfl rfl b s) h
  | huffBuild => exact .of_finish (frame_huffBuildBody rfl rfl s) h
  | huffEmit b => exact .of_finish (frame_huffEmitBody rfl b s) h
  | huffEncode =>
    have hcount := (frame_huffBeginBody (i := .huffEncode) rfl rfl s).trans
      (frame_forEach (frame_huffCountBody rfl rfl) (inputBytes s.input) _)
    exact .of_finish (frame_andThen (frame_andThen hcount (frame_huffBuildBody rfl rfl))
      (frame_forEach (frame_huffEmitBody rfl) _)) h

/-- Settles O51: the frame of every command, piece by piece. -/
theorem stateIsWrittenOnlyByItsCommands : Obligations.StateIsWrittenOnlyByItsCommands := by
  unfold Obligations.StateIsWrittenOnlyByItsCommands
  intro i s t h
  obtain ⟨hparams, hhost, hin, hout, hnsym, hsession, hwidth, hari, hhuf, hdegen⟩ := exec_frame i s t h
  exact ⟨hparams, hhost, hin, hout, hnsym, hsession, hwidth, hari, hhuf, hdegen⟩

/-! ## Bits of OUT -/

/-- BITS does not fall and no 1 of OUT is lost (R44 item 9). -/
def OutputGrows (o o' : OutBuf) : Prop :=
  o.bits.toNat ≤ o'.bits.toNat ∧ ∀ j, outBitAt o j = true → outBitAt o' j = true

theorem OutputGrows.refl (o : OutBuf) : OutputGrows o o := ⟨le_rfl, fun _ h => h⟩

/-- A 1 of OUT lies below BITS, so an output that gains `n` bits from BITS on and keeps the others grows (R144). -/
theorem outputGrows_of_append {o o' : OutBuf} {n : Nat} {l : BitString} (hc : CleanTail o)
    (hb : o'.bits.toNat = o.bits.toNat + n)
    (hbits : ∀ j, outBitAt o' j =
      if o.bits.toNat ≤ j ∧ j < o.bits.toNat + n then l.getD (j - o.bits.toNat) false else outBitAt o j) :
    OutputGrows o o' := by
  refine ⟨by omega, fun j hj => ?_⟩
  have hlt : j < o.bits.toNat := by
    by_contra hle
    rw [hc j (by omega)] at hj
    exact absurd hj (by simp)
  rw [hbits j, if_neg (by omega)]
  exact hj

/-- Bits that fit a live sink only add to OUT (R145). -/
theorem outputGrows_sinkWriteBits {s : State} {l : BitString} (h : BaseInv s) (hl : sinkLive s.session = true)
    (hf : sinkFits s.params s.out l.length = true) : OutputGrows s.out (sinkWriteBits l s.out) := by
  obtain ⟨hready, -⟩ := (outputInv_iff_sinkReady hl).mp h.output
  obtain ⟨-, hb, hbits⟩ := sinkWriteBits_spec l s.out hready (bits_lt_of_sinkFits h.legal hf)
  exact outputGrows_of_append hready.clean hb hbits

/-- A code that fits only adds to OUT (R221). -/
theorem outputGrows_packBits {s : State} {l : BitString} (h : BaseInv s) (he : s.session = .huffEmit)
    (hf : packFits s.params s.out l.length = true) : OutputGrows s.out (packBits l s.out) := by
  obtain ⟨hready, -⟩ := (outputInv_iff_packReady he).mp h.output
  obtain ⟨-, hb, hbits⟩ := packBits_spec l s.out hready (bits_lt_of_packFits h.legal hf)
  exact outputGrows_of_append hready.clean hb hbits

theorem outputGrows_sinkWriteBody {s : State} (x : Byte) (h : BaseInv s) :
    OutputGrows s.out (sinkWriteBody x s).state.out := by
  obtain ⟨-, e⟩ | ⟨-, -, e⟩ | ⟨hl, hf, e⟩ := sinkWriteBody_cases x s <;> rw [e]
  · exact .refl _
  · exact .refl _
  · exact outputGrows_sinkWriteBits (l := [bitOperand x]) h hl hf

theorem outputGrows_univStepBody {s : State} (b : Byte) (h : BaseInv s) :
    OutputGrows s.out (univStepBody b s).state.out := by
  obtain ⟨-, e⟩ | ⟨-, -, e⟩ | ⟨-, -, -, e⟩ | ⟨hu, -, hf, e⟩ := univStepBody_cases b s <;> rw [e]
  · exact .refl _
  · exact .refl _
  · exact .refl _
  · exact outputGrows_sinkWriteBits h (by rw [hu]; rfl) hf

theorem outputGrows_arithStepBody {s : State} (b : Byte) (h : BaseInv s) :
    OutputGrows s.out (arithStepBody b s).state.out := by
  obtain ⟨-, e⟩ | ⟨-, -, e⟩ | ⟨-, -, -, e⟩ | ⟨ha, -, hf, e⟩ := arithStepBody_cases b s <;> rw [e]
  · exact .refl _
  · exact .refl _
  · exact .refl _
  · exact outputGrows_sinkWriteBits h (by rw [ha]; rfl) hf

theorem outputGrows_huffEmitBody {s : State} (b : Byte) (h : BaseInv s) :
    OutputGrows s.out (huffEmitBody b s).state.out := by
  obtain ⟨-, e⟩ | ⟨-, -, e⟩ | ⟨-, -, -, e⟩ | ⟨he, -, hf, e⟩ := huffEmitBody_cases b s <;> rw [e]
  · exact .refl _
  · exact .refl _
  · exact .refl _
  · rw [← codeBits_length] at hf
    exact outputGrows_packBits h he hf

/-- Recording an error leaves OUT, so a command's output grows when its body's does (R262). -/
theorem OutputGrows.of_finish {o : OutBuf} {t : State} {opc : Byte} {r : CmdResult} (hr : OutputGrows o r.state.out)
    (h : finish opc r = .next t) : OutputGrows o t.out :=
  finish_keeps (fun u => OutputGrows o u.out) (fun _ _ _ hu => hu) opc r t hr h

/-- Settles O54: the four commands that write OUT inside a session only add bits from BITS on, the others leave OUT. -/
theorem outputBitsStaySet : Obligations.OutputBitsStaySet := by
  unfold Obligations.OutputBitsStaySet
  intro i s t h he hi
  show OutputGrows s.out t.out
  by_cases hw : writesOutput i = false
  · rw [(exec_frame i s t he).out hw]
    exact .refl _
  · cases i with
    | sinkWrite x => exact .of_finish (outputGrows_sinkWriteBody x h) he
    | univStep b => exact .of_finish (outputGrows_univStepBody b h) he
    | arithStep b => exact .of_finish (outputGrows_arithStepBody b h) he
    | huffEmit b => exact .of_finish (outputGrows_huffEmitBody b h) he
    | _ => exact absurd hi (by simpa [writesOutput] using hw)

end Sys2Proof.Machine

/-! PROOF. The invariant of the Huffman tables, through every part of a command (10_state.md R37 to R40, R44;
44_huffman.md R224 to R231). -/

namespace Sys2Proof.Machine

/-! ## Counting a byte: HIST and ORDER (R38, R224) -/

theorem presentCount_eq_countP (h : Huff) : presentCount h = h.hist.toList.countP (fun x => x != 0) :=
  List.countP_eq_length_filter.symm

theorem tableGet_mem {α : Type} (t : Table α) (b : Byte) : tableGet t b ∈ t.toList := by simp [tableGet]

/-- A nonzero entry written is one more present value exactly when the entry was 0. -/
theorem countP_tableSet_present (t : Table Word64) (b : Byte) (x : Word64) (hx : x ≠ 0) :
    (tableSet t b x).toList.countP (fun y => y != 0) =
      t.toList.countP (fun y => y != 0) + if tableGet t b = 0 then 1 else 0 := by
  have hb : b.toNat < t.toList.length := by simpa using b.isLt
  have hentry : t.toList[b.toNat] = tableGet t b := by simp [tableGet]
  rw [tableSet, Vector.toList_set, List.countP_set hb, hentry]
  by_cases h0 : tableGet t b = 0
  · simpa [h0] using hx
  · have hpos : 0 < t.toList.countP (fun y => y != 0) :=
      List.countP_pos_iff.mpr ⟨_, tableGet_mem t b, by simpa using h0⟩
    simp only [bne_iff_ne, ne_eq, h0, hx, not_false_eq_true, if_true, if_false]
    omega

/-- An absent value leaves room for one more present one. -/
theorem presentCount_lt_of_absent (h : Huff) (b : Byte) (hb : tableGet h.hist b = 0) : presentCount h < 256 := by
  have hlt := (List.countP_lt_length_iff (p := fun x => x != 0)).mpr
    ⟨tableGet h.hist b, tableGet_mem h.hist b, by simp [hb]⟩
  rw [presentCount_eq_countP]
  simpa using hlt

/-- A byte already present: HIST alone changes (R224). -/
theorem histCount_of_present (b : Byte) (h : Huff) (hb : tableGet h.hist b ≠ 0) :
    histCount b h = { h with hist := tableSet h.hist b (tableGet h.hist b + 1) } := by
  rw [histCount, orderNote, if_neg hb]

/-- A first occurrence: the byte takes the next rank (R38, R224). -/
theorem histCount_of_absent (b : Byte) (h : Huff) (hb : tableGet h.hist b = 0) :
    histCount b h = { h with
      hist := tableSet h.hist b (tableGet h.hist b + 1), order := h.order.setIfInBounds h.m.toNat b, m := h.m + 1 } := by
  rw [histCount, orderNote, if_pos hb]

/-- Counting a byte keeps CODE and CLEN. -/
@[simp] theorem histCount_clen (b : Byte) (h : Huff) : (histCount b h).clen = h.clen := by
  unfold histCount orderNote
  split <;> rfl

@[simp] theorem histCount_code (b : Byte) (h : Huff) : (histCount b h).code = h.code := by
  unfold histCount orderNote
  split <;> rfl

@[simp] theorem histCount_hist (b : Byte) (h : Huff) :
    (histCount b h).hist = tableSet h.hist b (tableGet h.hist b + 1) := rfl

/-- The values present after one more count of `b`. -/
theorem tableGet_count_ne_zero (t : Table Word64) (b v : Byte) (hx : tableGet t b + 1 ≠ 0) :
    tableGet (tableSet t b (tableGet t b + 1)) v ≠ 0 ↔ v = b ∨ tableGet t v ≠ 0 := by
  rw [tableGet_tableSet]
  by_cases hv : b = v
  · subst hv
    simpa using hx
  · simp [hv, Ne.symm hv]

/-- The first `n` + 1 entries after entry `n` is written. -/
theorem take_succ_set {α : Type} (l : List α) (n : Nat) (x : α) (hn : n < l.length) :
    (l.set n x).take (n + 1) = l.take n ++ [x] := by
  rw [List.take_succ_eq_append_getElem (by simpa using hn), List.take_set_of_le le_rfl, List.getElem_set_self]

/-- A first occurrence appends an absent value to ORDER's ranks (R38, R224). -/
theorem orderInv_histCount_of_absent (b : Byte) (h : Huff) (ho : OrderInv h) (hb : tableGet h.hist b = 0) :
    OrderInv (histCount b h) := by
  obtain ⟨hnodup, hm, hmem, hrest⟩ := ho
  have hx : tableGet h.hist b + 1 ≠ 0 := by simp [hb]
  have hlt : h.m.toNat < 256 := hm.trans_lt (presentCount_lt_of_absent h b hb)
  have hsucc : (h.m + 1).toNat = h.m.toNat + 1 := by
    rw [BitVec.toNat_add]
    exact Nat.mod_eq_of_lt (by simp; omega)
  have htake := take_succ_set h.order.toList h.m.toNat b (by simpa using hlt)
  have hnew : b ∉ h.order.toList.take h.m.toNat := fun hin => (hmem b).mp hin hb
  rw [presentCount_eq_countP] at hm
  rw [histCount_of_absent b h hb, OrderInv, hsucc, Vector.toList_setIfInBounds, htake]
  refine ⟨?_, ?_, fun v => ?_, fun x hin => ?_⟩
  · rw [List.nodup_append_comm]
    exact List.nodup_cons.mpr ⟨hnew, hnodup⟩
  · rw [presentCount_eq_countP, countP_tableSet_present h.hist b _ hx, if_pos hb, hm]
  · rw [tableGet_count_ne_zero _ _ _ hx, ← hmem v]
    simp [or_comm]
  · rw [List.drop_set_of_lt (by omega)] at hin
    exact hrest x (List.mem_of_mem_drop (i := 1) (by simpa [List.drop_drop, Nat.add_comm] using hin))

/-- Another occurrence leaves ORDER and the present values, as long as its counter does not overflow (R38, R224). -/
theorem orderInv_histCount_of_present (b : Byte) (h : Huff) (ho : OrderInv h) (hb : tableGet h.hist b ≠ 0)
    (hx : tableGet h.hist b + 1 ≠ 0) : OrderInv (histCount b h) := by
  obtain ⟨hnodup, hm, hmem, hrest⟩ := ho
  rw [presentCount_eq_countP] at hm
  rw [histCount_of_present b h hb]
  refine ⟨hnodup, ?_, fun v => ?_, hrest⟩
  · rw [presentCount_eq_countP, countP_tableSet_present h.hist b _ hx, if_neg hb]
    exact hm
  · rw [tableGet_count_ne_zero _ _ _ hx, ← hmem v]
    refine ⟨.inr, ?_⟩
    rintro (rfl | hin)
    · exact (hmem v).mpr hb
    · exact hin

/-- Counting a byte whose counter does not overflow keeps ORDER's invariant (R38). -/
theorem orderInv_histCount (b : Byte) (h : Huff) (ho : OrderInv h) (hx : tableGet h.hist b + 1 ≠ 0) :
    OrderInv (histCount b h) := by
  by_cases hb : tableGet h.hist b = 0
  · exact orderInv_histCount_of_absent b h ho hb
  · exact orderInv_histCount_of_present b h ho hb hx

/-! ## The leaves (R225) -/

theorem leafList_length_le (o : LeafOrder) (h : Huff) : (leafList o h).length ≤ 256 := by
  cases o with
  | firstOccurrence => simp [leafList]
  | ascendingValue => exact (List.length_filter_le _ _).trans (by simp [allBytes])

theorem mem_allBytes (v : Byte) : v ∈ allBytes :=
  List.mem_map.mpr ⟨v.toNat, List.mem_range.mpr v.isLt, by simp⟩

theorem nodup_allBytes : allBytes.Nodup := by
  refine List.Nodup.map_on (fun x hx y hy hxy => ?_) List.nodup_range
  have := congrArg BitVec.toNat hxy
  rw [List.mem_range] at hx hy
  simpa [Nat.mod_eq_of_lt, hx, hy] using this

/-- In either order no leaf is listed twice (R225). -/
theorem nodup_leafList (o : LeafOrder) (h : Huff) (ho : OrderInv h) : (leafList o h).Nodup := by
  cases o with
  | firstOccurrence => exact ho.1
  | ascendingValue => exact List.Nodup.filter (fun v => tableGet h.hist v ≠ 0) nodup_allBytes

/-- In either order the leaves are the present values (R225). -/
theorem mem_leafList (o : LeafOrder) (h : Huff) (ho : OrderInv h) (v : Byte) :
    v ∈ leafList o h ↔ tableGet h.hist v ≠ 0 := by
  cases o with
  | firstOccurrence =>
    obtain ⟨-, -, hmem, -⟩ := ho
    exact hmem v
  | ascendingValue => simp [leafList, mem_allBytes]

/-! ## The merge tree: how long its codes are (R227, R231) -/

/-- A subtree of k values: they have codes shorter than k, empty only while the value stands alone. -/
def SubtreeOk (codes : Table BitString) (x : HuffNode) : Prop :=
  x.syms ≠ [] ∧ ∀ v ∈ x.syms, (tableGet codes v).length < x.syms.length ∧ (2 ≤ x.syms.length → tableGet codes v ≠ [])

/-- What every merge of these leaves keeps: the nodes part the leaves, and the codes of each node are those of its subtree. -/
structure MergeInv (leaves : List Byte) (m : Merge) : Prop where
  ok : MergeOk m
  leaves : (m.queue.flatMap (·.syms)).Perm leaves
  subtree : ∀ x ∈ m.queue, SubtreeOk m.codes x

theorem leafNodes_map_seq (hist : Table Word64) (leaves : List Byte) :
    (leafNodes hist leaves).map (·.seq) = List.range leaves.length := by
  have h : (leafNodes hist leaves).map (·.seq) = leaves.zipIdx.map Prod.snd := by simp [leafNodes, Function.comp_def]
  rw [h, List.zipIdx_map_snd, List.range_eq_range']

theorem leafNodes_flatMap_syms (hist : Table Word64) (leaves : List Byte) :
    (leafNodes hist leaves).flatMap (·.syms) = leaves := by
  have h : (leafNodes hist leaves).flatMap (·.syms) = leaves.zipIdx.map Prod.fst := by
    simp [leafNodes, List.flatMap_map, ← List.map_eq_flatMap]
  rw [h, List.zipIdx_map_fst]

@[simp] theorem leafNodes_length (hist : Table Word64) (leaves : List Byte) :
    (leafNodes hist leaves).length = leaves.length := by simp [leafNodes]

/-- The structure before the first merge (R226). -/
theorem mergeInv_start (hist : Table Word64) (leaves : List Byte) (hn : leaves.Nodup) :
    MergeInv leaves ⟨leafNodes hist leaves, leaves.length, tableAll []⟩ where
  ok := by
    refine ⟨?_, fun x hx => ?_, ?_⟩
    · rw [leafNodes_map_seq]
      exact List.nodup_range
    · have := List.mem_map_of_mem (f := (·.seq)) hx
      rw [leafNodes_map_seq] at this
      exact List.mem_range.mp this
    · rw [leafNodes_flatMap_syms]
      exact hn
  leaves := by rw [leafNodes_flatMap_syms]
  subtree x hx := by
    obtain ⟨vi, -, rfl⟩ := List.mem_map.mp hx
    simp [SubtreeOk]

/-- Two subtrees merged: every code gains one bit, the subtree at least one value. -/
theorem subtreeOk_merged {codes codes' : Table BitString} {x y : HuffNode} {f n : Nat} (hx : SubtreeOk codes x)
    (hy : SubtreeOk codes y) (hlx : ∀ v ∈ x.syms, (tableGet codes' v).length = (tableGet codes v).length + 1)
    (hly : ∀ v ∈ y.syms, (tableGet codes' v).length = (tableGet codes v).length + 1) :
    SubtreeOk codes' ⟨f, n, x.syms ++ y.syms⟩ := by
  obtain ⟨hx0, hx⟩ := hx
  obtain ⟨hy0, hy⟩ := hy
  have hxpos := List.length_pos_iff.mpr hx0
  have hypos := List.length_pos_iff.mpr hy0
  have hcode : ∀ v ∈ x.syms ++ y.syms, (tableGet codes' v).length < x.syms.length + y.syms.length ∧
      0 < (tableGet codes' v).length := by
    intro v hv
    rcases List.mem_append.mp hv with hv | hv
    · have := (hx v hv).1
      rw [hlx v hv]
      omega
    · have := (hy v hv).1
      rw [hly v hv]
      omega
  refine ⟨by simp [hx0], fun v hv => ?_⟩
  obtain ⟨hlt, hpos⟩ := hcode v hv
  exact ⟨by simpa using hlt, fun _ => List.length_pos_iff.mp hpos⟩

/-- A merge keeps the invariant and takes one node away (R227). -/
theorem mergeInv_mergeStep {leaves : List Byte} {m m' : Merge} (h : MergeInv leaves m) (hs : mergeStep m = some m') :
    MergeInv leaves m' ∧ m'.queue.length + 1 = m.queue.length := by
  obtain ⟨⟨x, y, rest, hp, -, -, hp', -, hcodes⟩, hok⟩ := mergeStep_mergesTo m m' h.ok hs
  have hsyms := hp.flatMap_right (·.syms)
  have hsyms' := hp'.flatMap_right (·.syms)
  have hnodup := hsyms.nodup_iff.mp h.ok.2.2
  simp only [List.flatMap_cons, List.append_assoc] at hsyms hsyms' hnodup
  obtain ⟨-, hyrest, hx⟩ := List.nodup_append.mp hnodup
  obtain ⟨-, -, hy⟩ := List.nodup_append.mp hyrest
  have hin : ∀ z ∈ x :: y :: rest, SubtreeOk m.codes z := fun z hz => h.subtree z (hp.mem_iff.mpr hz)
  refine ⟨⟨hok, (hsyms'.trans hsyms.symm).trans h.leaves, fun z hz => ?_⟩, ?_⟩
  · rcases List.mem_cons.mp (hp'.mem_iff.mp hz) with rfl | hz
    · refine subtreeOk_merged (hin x (by simp)) (hin y (by simp)) (fun v hv => ?_) fun v hv => ?_
      · rw [hcodes v, if_pos hv, List.length_cons]
      · have hvx : v ∉ x.syms := fun hvx => hx v hvx v (by simp [hv]) rfl
        rw [hcodes v, if_neg hvx, if_pos hv, List.length_cons]
    · have hsame : ∀ v ∈ z.syms, tableGet m'.codes v = tableGet m.codes v := by
        intro v hv
        have hvr : v ∈ rest.flatMap (·.syms) := List.mem_flatMap.mpr ⟨z, hz, hv⟩
        have hvx : v ∉ x.syms := fun hvx => hx v hvx v (by simp [hvr]) rfl
        have hvy : v ∉ y.syms := fun hvy => hy v hvy v hvr rfl
        rw [hcodes v, if_neg hvx, if_neg hvy]
      obtain ⟨hz0, hz⟩ := hin z (by simp [hz])
      refine ⟨hz0, fun v hv => ?_⟩
      rw [hsame v hv]
      exact hz v hv
  · have := hp.length_eq
    have := hp'.length_eq
    simp only [List.length_cons] at *
    omega

/-- The loop keeps the invariant and, with a turn for every node, ends with at most one node (R227). -/
theorem mergeInv_mergeLoop {leaves : List Byte} (n : Nat) {m : Merge} (h : MergeInv leaves m)
    (hn : m.queue.length ≤ n) : MergeInv leaves (mergeLoop n m) ∧ (mergeLoop n m).queue.length ≤ 1 := by
  induction n generalizing m with
  | zero => exact ⟨h, hn.trans (by omega)⟩
  | succ n ih =>
    unfold mergeLoop
    split
    · next hs => exact ⟨h, (mergeStep_eq_none m).mp hs⟩
    · next m' hs =>
      obtain ⟨h', hlen⟩ := mergeInv_mergeStep h hs
      exact ih h' (by omega)

/-- With two leaves or more the codes are the merge tree's (R228, R230). -/
theorem codesOf_of_two_le (single : Bool) (hist : Table Word64) {leaves : List Byte} (h2 : 2 ≤ leaves.length) :
    codesOf single hist leaves =
      (mergeLoop leaves.length ⟨leafNodes hist leaves, leaves.length, tableAll []⟩).codes := by
  match leaves with
  | [] | [_] => simp at h2
  | _ :: _ :: _ => rfl

/-- The only node left holds every leaf, so with two leaves or more a code has 1 to |leaves| − 1 bits (R231). -/
theorem codesOf_length_of_two_le (single : Bool) (hist : Table Word64) {leaves : List Byte} (hn : leaves.Nodup)
    (h2 : 2 ≤ leaves.length) {v : Byte} (hv : v ∈ leaves) :
    tableGet (codesOf single hist leaves) v ≠ [] ∧
      (tableGet (codesOf single hist leaves) v).length < leaves.length := by
  rw [codesOf_of_two_le single hist h2]
  obtain ⟨⟨-, hperm, hsub⟩, hle⟩ := mergeInv_mergeLoop leaves.length (mergeInv_start hist leaves hn) (by simp)
  obtain ⟨x, hx, hvx⟩ := List.mem_flatMap.mp (hperm.mem_iff.mpr hv)
  obtain ⟨-, hcode⟩ := hsub x hx
  have hlen : x.syms.length = leaves.length := by
    obtain ⟨y, hy⟩ := List.length_eq_one_iff.mp (Nat.le_antisymm hle (List.length_pos_of_mem hx))
    rw [hy] at hx hperm
    rw [List.mem_singleton.mp hx, ← hperm.length_eq]
    simp
  obtain ⟨hlt, hne⟩ := hcode v hvx
  exact ⟨hne (by omega), by omega⟩

/-- The code of a leaf has between 1 and 255 bits (R228, R231). -/
theorem codesOf_length (single : Bool) (hist : Table Word64) {leaves : List Byte} (hn : leaves.Nodup)
    (hle : leaves.length ≤ 256) {v : Byte} (hv : v ∈ leaves) :
    1 ≤ (tableGet (codesOf single hist leaves) v).length ∧ (tableGet (codesOf single hist leaves) v).length ≤ 255 := by
  match leaves with
  | [] => simp at hv
  | [u] =>
    obtain rfl := List.mem_singleton.mp hv
    simp [codesOf]
  | u :: u' :: rest =>
    obtain ⟨hne, hlt⟩ := codesOf_length_of_two_le single hist hn (by simp) hv
    exact ⟨List.length_pos_iff.mpr hne, Nat.le_of_lt_succ (hlt.trans_le hle)⟩

/-! ## Building the tables (R230) -/

section
variable {p : Params} {h : Huff}

/-- HUFF_BUILD leaves HIST, ORDER and HUFF_M (R230). -/
theorem huffBuildTables_frame (p : Params) (h : Huff) :
    (huffBuildTables p h).hist = h.hist ∧ (huffBuildTables p h).order = h.order ∧ (huffBuildTables p h).m = h.m :=
  assignCodes_frame _ _ h

/-- The invariant of ORDER speaks of HIST, ORDER and HUFF_M alone. -/
theorem orderInv_congr {h h' : Huff} (hh : h'.hist = h.hist) (ho : h'.order = h.order) (hm : h'.m = h.m)
    (hi : OrderInv h) : OrderInv h' := by
  unfold OrderInv presentCount at *
  rw [hh, ho, hm]
  exact hi

/-- HUFF_BUILD leaves an absent value's entries (R230). -/
theorem huffBuildTables_absent (ho : OrderInv h) {v : Byte} (h0 : tableGet h.hist v = 0) :
    tableGet (huffBuildTables p h).code v = tableGet h.code v ∧
      tableGet (huffBuildTables p h).clen v = tableGet h.clen v := by
  obtain ⟨hcode, hclen⟩ := assignCodes_get (codesOf p.singleCode h.hist (leafList p.leafOrder h)) (leafList p.leafOrder h) h v
  have hv : v ∉ leafList p.leafOrder h := fun hv => (mem_leafList p.leafOrder h ho v).mp hv h0
  rw [if_neg hv] at hcode hclen
  exact ⟨hcode, hclen⟩

/-- HUFF_BUILD gives a present value its code, of 1 to 255 bits, and the code's length (R230, R231). -/
theorem huffBuildTables_present (ho : OrderInv h) {v : Byte} (h0 : tableGet h.hist v ≠ 0) :
    tableGet (huffBuildTables p h).code v = tableGet (codesOf p.singleCode h.hist (leafList p.leafOrder h)) v ∧
      (tableGet (huffBuildTables p h).code v).length = (tableGet (huffBuildTables p h).clen v).toNat ∧
      1 ≤ (tableGet (huffBuildTables p h).clen v).toNat ∧ (tableGet (huffBuildTables p h).clen v).toNat ≤ 255 := by
  obtain ⟨hcode, hclen⟩ := assignCodes_get (codesOf p.singleCode h.hist (leafList p.leafOrder h)) (leafList p.leafOrder h) h v
  have hv := (mem_leafList p.leafOrder h ho v).mpr h0
  obtain ⟨hpos, hle⟩ := codesOf_length p.singleCode h.hist (nodup_leafList _ h ho) (leafList_length_le _ h) hv
  rw [if_pos hv] at hcode hclen
  have hlen : (tableGet (huffBuildTables p h).clen v).toNat =
      (tableGet (codesOf p.singleCode h.hist (leafList p.leafOrder h)) v).length := by
    rw [huffBuildTables, hclen, BitVec.toNat_ofNat, Nat.mod_eq_of_lt (by omega)]
  rw [hlen]
  exact ⟨hcode, congrArg List.length hcode, hpos, hle⟩

/-- After HUFF_BUILD CLEN is CODE's length, at most 255 (R39, R40). -/
theorem codeInv_huffBuildTables (ho : OrderInv h) (hc : CodeInv h) : CodeInv (huffBuildTables p h) := by
  intro v
  by_cases h0 : tableGet h.hist v = 0
  · obtain ⟨hcode, hclen⟩ := huffBuildTables_absent (p := p) ho h0
    rw [hcode, hclen]
    exact hc v
  · obtain ⟨-, hlen, -, hle⟩ := huffBuildTables_present (p := p) ho h0
    exact ⟨hlen, hle⟩

/-- Where no value had a code, HUFF_BUILD gives one to exactly the present values (R39, R231). -/
theorem clen_huffBuildTables_ne_zero (ho : OrderInv h) (hb : ∀ v, tableGet h.clen v = 0) (v : Byte) :
    tableGet (huffBuildTables p h).clen v ≠ 0 ↔ tableGet (huffBuildTables p h).hist v ≠ 0 := by
  obtain ⟨hhist, -, -⟩ := huffBuildTables_frame p h
  rw [hhist]
  by_cases h0 : tableGet h.hist v = 0
  · obtain ⟨-, hclen⟩ := huffBuildTables_absent (p := p) ho h0
    exact iff_of_false (fun hne => hne (hclen.trans (hb v))) fun hne => hne h0
  · obtain ⟨-, -, hpos, -⟩ := huffBuildTables_present (p := p) ho h0
    exact iff_of_true (fun hz => by simp [hz] at hpos) h0

end

/-! ## The parts of the commands -/

/-- The tables of a new session (R223). -/
theorem huffInv_fresh {s : State} (hh : s.huf = huffFresh) (hn : s.nsym = 0) : HuffInv s where
  order := by
    rw [hh]
    refine ⟨by simp [huffFresh], ?_, fun v => by simp [huffFresh], fun x hx => ?_⟩
    · rw [presentCount_eq_countP]
      simp only [huffFresh, tableAll, Vector.toList_replicate, List.countP_replicate]
      rfl
    · simp only [huffFresh, tableAll, Vector.toList_replicate] at hx
      exact List.eq_of_mem_replicate (List.mem_of_mem_drop hx)
  code v := by simp [hh, huffFresh]
  total _ := by rw [histTotal_eq, hh, hn]; simp [huffFresh, tableSum_tableAll]
  before _ v := by simp [hh, huffFresh]
  after _ v := by simp [hh, huffFresh]

/-- A part that leaves the tables, SESSION and NSYM keeps the invariant. -/
theorem huffInv_of_same {s t : State} (h : HuffInv s) (hh : t.huf = s.huf) (hs : t.session = s.session)
    (hn : t.nsym = s.nsym) : HuffInv t := by
  obtain ⟨horder, hcode, htotal, hbefore, hafter⟩ := h
  rw [← hh] at horder hcode htotal hbefore hafter
  rw [← hs] at htotal hbefore hafter
  rw [← hn] at htotal
  exact ⟨horder, hcode, htotal, hbefore, hafter⟩

/-- Outside the Huffman sessions only the tables' own consistency is claimed. -/
theorem huffInv_of_not_huffSession {s t : State} (h : HuffInv s) (hh : t.huf = s.huf)
    (hs : huffSession t.session = false) : HuffInv t where
  order := by rw [hh]; exact h.order
  code := by rw [hh]; exact h.code
  total hx := absurd (hs.symm.trans hx) (by simp)
  before hx := by rw [hx] at hs; simp [huffSession] at hs
  after hx := by rw [hx] at hs; simp [huffSession] at hs

/-- A part within the frame of a command that writes neither the tables nor SESSION nor NSYM keeps the invariant. -/
theorem huffInv_of_frame {i : Instr} {s t : State} (h : HuffInv s) (hf : Frame i s t) (hh : writesHuff i = false)
    (hs : writesSession i = false) (hn : writesNsym i = false) : HuffInv t :=
  huffInv_of_same h (hf.huf hh) (hf.session hs) (hf.nsym hn)

/-- UNIV_STEP counts a symbol in a UNIV session only (R164). -/
theorem huffInv_univStepBody {s : State} (b : Byte) (h : HuffInv s) : HuffInv (univStepBody b s).state := by
  obtain ⟨-, e⟩ | ⟨-, -, e⟩ | ⟨-, -, -, e⟩ | ⟨hu, -, -, e⟩ := univStepBody_cases b s <;> rw [e]
  · exact h
  · exact h
  · exact h
  · exact huffInv_of_not_huffSession h rfl (by simp [CmdResult.state, hu, huffSession])

/-- ARITH_BEGIN opens an ARITH session or changes nothing (R182). -/
theorem huffInv_arithBeginBody {s : State} (h : HuffInv s) : HuffInv (arithBeginBody s).state := by
  obtain ⟨-, e⟩ | ⟨-, e⟩ := arithBeginBody_cases s <;> rw [e]
  · exact h
  · exact huffInv_of_not_huffSession h rfl rfl

/-- ARITH_STEP counts a symbol in an ARITH session only (R195). -/
theorem huffInv_arithStepBody {s : State} (b : Byte) (h : HuffInv s) : HuffInv (arithStepBody b s).state := by
  obtain ⟨-, e⟩ | ⟨-, -, e⟩ | ⟨-, -, -, e⟩ | ⟨ha, -, -, e⟩ := arithStepBody_cases b s <;> rw [e]
  · exact h
  · exact h
  · exact h
  · exact huffInv_of_not_huffSession h rfl (by simp [CmdResult.state, arithCommit, ha, huffSession])

/-- HUFF_COUNT counts one byte, whose counter is at most NSYM and so does not overflow, or changes nothing (R224). -/
theorem huffInv_huffCountBody {s : State} (b : Byte) (hi : Inv s) : HuffInv (huffCountBody b s).state := by
  obtain ⟨hbase, h⟩ := hi
  obtain ⟨-, e⟩ | ⟨-, -, e⟩ | ⟨hs, hx, e⟩ := huffCountBody_cases b s <;> rw [e]
  · exact h
  · exact h
  · obtain ⟨hn, hle⟩ := nsym_succ hbase hx
    have htotal := h.total (by rw [hs]; rfl)
    rw [histTotal_eq] at htotal
    have hentry := tableGet_le_tableSum s.huf.hist b
    have hcap := symMax_le hbase.legal
    have hsucc := bits_succ (tableGet s.huf.hist b) (by omega)
    have hne : tableGet s.huf.hist b + 1 ≠ 0 := by
      intro h0
      rw [h0] at hsucc
      simp at hsucc
    have hsum := tableSum_increment s.huf.hist b (by omega)
    refine ⟨orderInv_histCount b s.huf h.order hne, fun v => ?_, fun _ => ?_, fun _ v => ?_, fun he => ?_⟩
    · show (tableGet (histCount b s.huf).code v).length = _ ∧ (tableGet (histCount b s.huf).clen v).toNat ≤ 255
      simpa [CmdResult.state] using h.code v
    · show tableSum (histCount b s.huf).hist = (s.nsym + 1).toNat
      rw [histCount_hist, hsum, hn, htotal]
    · show tableGet (histCount b s.huf).clen v = 0
      rw [histCount_clen]
      exact h.before hs v
    · have : s.session = .huffEmit := he
      rw [hs] at this
      simp at this

/-- HUFF_BUILD assigns the codes of a HUFF_HIST session, or changes nothing (R230). -/
theorem huffInv_huffBuildBody {s : State} (h : HuffInv s) : HuffInv (huffBuildBody s).state := by
  obtain ⟨-, e⟩ | ⟨hs, e⟩ := huffBuildBody_cases s <;> rw [e]
  · exact h
  · obtain ⟨hhist, horder, hm⟩ := huffBuildTables_frame s.params s.huf
    refine ⟨orderInv_congr hhist horder hm h.order, codeInv_huffBuildTables h.order h.code, fun _ => ?_,
      fun hb => ?_, fun _ => clen_huffBuildTables_ne_zero h.order (h.before hs)⟩
    · show tableSum (huffBuildTables s.params s.huf).hist = s.nsym.toNat
      rw [hhist]
      exact h.total (by rw [hs]; rfl)
    · simp [CmdResult.state] at hb

/-- The reset state meets the whole invariant (R43, R290). -/
theorem inv_initial {p : Params} (hp : p.Legal) (h : HostSide) : Inv (State.initial p h) :=
  ⟨baseInv_initial hp h, huffInv_fresh rfl rfl⟩

/-- Every part of a command keeps the whole invariant. -/
theorem partsKeep_inv : PartsKeep Inv where
  raise c o s h := ⟨partsKeep_baseInv.raise c o s h.1, huffInv_of_same h.2 rfl rfl rfl⟩
  clear s h := ⟨partsKeep_baseInv.clear s h.1, huffInv_of_same h.2 rfl rfl rfl⟩
  reset s h := inv_initial h.1.legal s.host
  inClear s h := ⟨partsKeep_baseInv.inClear s h.1, huffInv_of_same h.2 rfl rfl rfl⟩
  inPush b s h := ⟨baseInv_inPushBody b h.1,
    huffInv_of_frame h.2 (frame_inPushBody (i := .inPush b) rfl b s) rfl rfl rfl⟩
  sinkOpen s h := ⟨partsKeep_baseInv.sinkOpen s h.1, huffInv_of_not_huffSession h.2 rfl rfl⟩
  sinkWrite x s h := ⟨baseInv_sinkWriteBody x h.1,
    huffInv_of_frame h.2 (frame_sinkWriteBody (i := .sinkWrite x) rfl x s) rfl rfl rfl⟩
  univBegin s h := ⟨partsKeep_baseInv.univBegin s h.1, huffInv_of_not_huffSession h.2 rfl rfl⟩
  univStep b _ h := ⟨baseInv_univStepBody b h.1, huffInv_univStepBody b h.2⟩
  arithConfig w s h := ⟨baseInv_arithConfigBody w h.1,
    huffInv_of_frame h.2 (frame_arithConfigBody (i := .arithConfig w) rfl w s) rfl rfl rfl⟩
  arithBegin _ h := ⟨baseInv_arithBeginBody h.1, huffInv_arithBeginBody h.2⟩
  arithStep b _ h := ⟨baseInv_arithStepBody b h.1, huffInv_arithStepBody b h.2⟩
  huffBegin _ h := ⟨baseInv_huffBeginBody h.1, huffInv_fresh rfl rfl⟩
  huffCount b _ h := ⟨baseInv_huffCountBody b h.1, huffInv_huffCountBody b h⟩
  huffBuild _ h := ⟨baseInv_huffBuildBody h.1, huffInv_huffBuildBody h.2⟩
  huffEmit b s h := ⟨baseInv_huffEmitBody b h.1,
    huffInv_of_frame h.2 (frame_huffEmitBody (i := .huffEmit b) rfl b s) rfl rfl rfl⟩

/-- Every step keeps the whole invariant (R44). -/
theorem step_keeps_inv (s t : State) (hs : Inv s) (h : step s = .next t) : Inv t :=
  step_keeps Inv partsKeep_inv
    (fun _ _ hu => ⟨{ hu.1 with }, huffInv_of_same hu.2 rfl rfl rfl⟩)
    (fun _ _ hu => ⟨{ hu.1 with }, huffInv_of_same hu.2 rfl rfl rfl⟩) s t hs h

/-- Settles O58: every part of a command keeps the whole invariant, HUFF_COUNT and HUFF_BUILD by the laws of ORDER and of the
merge tree. -/
theorem stepKeepsTheHuffmanInvariant : Obligations.StepKeepsTheHuffmanInvariant := by
  unfold Obligations.StepKeepsTheHuffmanInvariant
  intro s t hs h
  exact (step_keeps_inv s t hs h).2

/-- Settles O55: empty buffers and zero tables meet every part of the invariant. -/
theorem invariantHoldsAtReset : Obligations.InvariantHoldsAtReset := by
  unfold Obligations.InvariantHoldsAtReset
  exact fun _ h hp => inv_initial hp h

end Sys2Proof.Machine

/-! PROOF. The words of the read port bit by bit: STATUS (10_state.md R23), CODE (R40) and the PARAM registers (R42). -/

namespace Sys2Proof.Machine

/-! ## Bit strings as numbers -/

/-- One more bit at the end is the new bit 0. -/
theorem bitsValue_concat (l : BitString) (x : Bool) : bitsValue (l ++ [x]) = Nat.bit x (bitsValue l) := by
  simp [bitsValue, Nat.bit_val]

/-- Bit k of a bit string's number, counted from the string's last bit. -/
theorem testBit_bitsValue (l : BitString) (k : Nat) : (bitsValue l).testBit k = l.reverse.getD k false := by
  induction l using List.reverseRecOn generalizing k with
  | nil => simp [bitsValue]
  | append_singleton l x ih =>
    rw [bitsValue_concat, List.reverse_concat]
    cases k with
    | zero => simp
    | succ k => rw [Nat.testBit_bit_succ, ih, List.getD_cons_succ]

/-- Settles O19: the word is the number of 64 bits, the first of them most significant. -/
theorem codeWordLayout : Obligations.CodeWordLayout := by
  unfold Obligations.CodeWordLayout
  intro h v w j hj
  have hlt : 63 - j < 64 := by omega
  have hback : 63 - (63 - j) = j := by omega
  rw [codeWord, BitVec.getLsbD_ofNat, testBit_bitsValue]
  simp [hlt, hback]

/-! ## The registers -/

open BitVec in
/-- Settles O18: each field is cut out of the concatenation that makes the word. -/
theorem statusWordLayout : Obligations.StatusWordLayout := by
  unfold Obligations.StatusWordLayout
  intro t
  unfold statusWord
  refine ⟨?_, ?_, ?_, ?_, ?_⟩
  · rw [extractLsb'_append_eq_of_add_le (by decide), extractLsb'_eq_self]
  · rw [extractLsb'_append_eq_of_le (by decide), extractLsb'_append_eq_of_add_le (by decide), extractLsb'_eq_self]
    rfl
  · rw [extractLsb'_append_eq_of_le (by decide), extractLsb'_append_eq_of_le (by decide),
      extractLsb'_append_eq_of_add_le (by decide), extractLsb'_eq_self]
  · rw [getLsbD_append, getLsbD_append, getLsbD_append, getLsbD_append]
    simp
  · rw [extractLsb'_append_eq_of_le (by decide), extractLsb'_append_eq_of_le (by decide),
      extractLsb'_append_eq_of_le (by decide), extractLsb'_append_eq_of_le (by decide)]
    exact extractLsb'_eq_self

/-- P_MODE's four bits from the last of R42's list up, the rest 0. -/
theorem modeBits_layout (a b c d : Bool) :
    (BitVec.ofNat 64 (bitsValue [a, b, c, d])).getLsbD 0 = d ∧ (BitVec.ofNat 64 (bitsValue [a, b, c, d])).getLsbD 1 = c ∧
    (BitVec.ofNat 64 (bitsValue [a, b, c, d])).getLsbD 2 = b ∧ (BitVec.ofNat 64 (bitsValue [a, b, c, d])).getLsbD 3 = a ∧
    (BitVec.ofNat 64 (bitsValue [a, b, c, d])).extractLsb' 4 60 = 0 := by
  revert a b c d
  decide

/-- Settles O17: the capacities fit their 64-bit registers, and P_MODE's bits are the four parameters'. -/
theorem parameterRegistersReflectTheInstance : Obligations.ParameterRegistersReflectTheInstance := by
  unfold Obligations.ParameterRegistersReflectTheInstance
  intro s h
  obtain ⟨-, hcap⟩ := h.legal
  refine ⟨?_, ?_, rfl, modeBits_layout _ _ _ _⟩
  · show (BitVec.ofNat 64 s.params.inCap).toNat = s.params.inCap
    rw [BitVec.toNat_ofNat, Nat.mod_eq_of_lt (by omega)]
  · show (BitVec.ofNat 64 (8 * s.params.inCap + 1)).toNat = 8 * s.params.inCap + 1
    rw [BitVec.toNat_ofNat, Nat.mod_eq_of_lt (by omega)]

end Sys2Proof.Machine

/-! PROOF. The read port: the datum each address selects (20_memory.md R65 to R68). -/

namespace Sys2Proof.Machine

/-! ## The map's ranges (R66, R67) -/

/-- An address's low byte is its index in a page of 256. -/
theorem ofNat_eq_of_page {n k : Nat} {v : Byte} (h : n = 0x100 * k + v.toNat) : BitVec.ofNat 8 n = v := by
  apply BitVec.eq_of_toNat_eq
  rw [BitVec.toNat_ofNat]
  omega

section
variable {s : State} {a : Addr}

theorem readPort_register (h : a.toNat < 0x100) : readPort s a = readRegister s a.toNat := by
  simp only [readPort, if_pos h]

theorem readPort_freq {v : Byte} (h : a.toNat = 0x100 + v.toNat) : readPort s a = tableGet s.ari.freq v := by
  simp (disch := omega) only [readPort, if_pos, if_neg, ofNat_eq_of_page (k := 1) h]

theorem readPort_hist {v : Byte} (h : a.toNat = 0x200 + v.toNat) : readPort s a = tableGet s.huf.hist v := by
  simp (disch := omega) only [readPort, if_pos, if_neg, ofNat_eq_of_page (k := 2) h]

theorem readPort_clen {v : Byte} (h : a.toNat = 0x300 + v.toNat) :
    readPort s a = (tableGet s.huf.clen v).setWidth 64 := by
  simp (disch := omega) only [readPort, if_pos, if_neg, ofNat_eq_of_page (k := 3) h]

theorem readPort_order {v : Byte} (h : a.toNat = 0x400 + v.toNat) :
    readPort s a = (tableGet s.huf.order v).setWidth 64 := by
  simp (disch := omega) only [readPort, if_pos, if_neg, ofNat_eq_of_page (k := 4) h]

theorem readPort_code {v : Byte} {w : BitVec 2} (h : a.toNat = 0x800 + 4 * v.toNat + w.toNat) :
    readPort s a = codeWord s.huf v w.toNat := by
  have hv : BitVec.ofNat 8 ((a.toNat - 0x800) / 4) = v := ofNat_eq_of_page (k := 0) (by omega)
  have hw : (a.toNat - 0x800) % 4 = w.toNat := by omega
  simp (disch := omega) only [readPort, if_pos, if_neg, hv, hw]

theorem readPort_input {i : Nat} (h : a.toNat = 0x10000000 + i) (hi : i < 0x10000000) :
    readPort s a = windowByte s.input.mem s.input.len i := by
  have hsub : a.toNat - 0x10000000 = i := by omega
  simp (disch := omega) only [readPort, if_pos, if_neg, hsub]

theorem readPort_output {i : Nat} (h : a.toNat = 0x20000000 + i) (hi : i < 0x10000000) :
    readPort s a = windowByte s.out.mem s.out.len i := by
  have hsub : a.toNat - 0x20000000 = i := by omega
  simp (disch := omega) only [readPort, if_pos, if_neg, hsub]

/-- The gaps between the tables, the code words and the windows. -/
theorem readPort_gap (h : 0x500 ≤ a.toNat ∧ a.toNat < 0x800 ∨ 0xC00 ≤ a.toNat ∧ a.toNat < 0x10000000 ∨
    0x30000000 ≤ a.toNat) : readPort s a = 0 := by
  obtain ⟨hlo, hhi⟩ | ⟨hlo, hhi⟩ | hlo := h <;> simp (disch := omega) only [readPort, if_pos, if_neg]

end

/-- The gaps among the registers. -/
theorem readRegister_gap (s : State) {n : Nat} (h : 0xC ≤ n ∧ n < 0x10 ∨ 0x14 ≤ n) : readRegister s n = 0 := by
  unfold readRegister
  split
  case h_17 => rfl
  all_goals exfalso; omega

theorem windowByte_beyond {m : Memory} {len : Word64} {i : Nat} (h : len.toNat ≤ i) : windowByte m len i = 0 :=
  if_neg (Nat.not_lt.mpr h)

/-! ## The addresses of the map -/

/-- A table below the code words does not wrap: its entry v stands v addresses after the first. -/
theorem toNat_table_address (base : Addr) (v : Byte) (h : base.toNat ≤ 0x400) :
    (base + v.setWidth 32).toNat = base.toNat + v.toNat := by
  rw [BitVec.toNat_add, BitVec.toNat_setWidth]
  omega

theorem toNat_code_address (v : Byte) (w : BitVec 2) :
    (0x800#32 + 4#32 * v.setWidth 32 + w.setWidth 32).toNat = 0x800 + 4 * v.toNat + w.toNat := by
  simp only [BitVec.toNat_add, BitVec.toNat_mul, BitVec.toNat_setWidth, BitVec.toNat_ofNat]
  omega

theorem toNat_window_address (base : Addr) (i : BitVec 28) (h : base.toNat ≤ 0x20000000) :
    (base + i.setWidth 32).toNat = base.toNat + i.toNat := by
  rw [BitVec.toNat_add, BitVec.toNat_setWidth]
  omega

/-! ## The statements -/

/-- Settles O15: the registers by evaluation at their addresses, every other range by its own rule. -/
theorem readPortFollowsItsMap : Obligations.ReadPortFollowsItsMap := by
  unfold Obligations.ReadPortFollowsItsMap
  intro s
  refine ⟨rfl, rfl, rfl, rfl, rfl, rfl, rfl, rfl, rfl, rfl, rfl, rfl, rfl, rfl, rfl, rfl,
    fun v => ⟨?_, ?_, ?_, ?_, fun w => ?_⟩, fun i => ⟨?_, ?_⟩⟩
  · exact readPort_freq (toNat_table_address _ v (by decide))
  · exact readPort_hist (toNat_table_address _ v (by decide))
  · exact readPort_clen (toNat_table_address _ v (by decide))
  · exact readPort_order (toNat_table_address _ v (by decide))
  · exact readPort_code (toNat_code_address v w)
  · exact readPort_input (toNat_window_address _ i (by decide)) i.isLt
  · exact readPort_output (toNat_window_address _ i (by decide)) i.isLt

/-- Settles O16: the gaps by the map, the windows by their lengths. -/
theorem unmappedAddressesReadZero : Obligations.UnmappedAddressesReadZero := by
  unfold Obligations.UnmappedAddressesReadZero
  rintro s a (⟨hlo, hhi⟩ | ⟨hlo, hhi⟩ | hgap | hgap | hgap | ⟨hlo, hhi⟩ | ⟨hlo, hhi⟩)
  · rw [readPort_register (by omega), readRegister_gap s (.inl ⟨hlo, hhi⟩)]
  · rw [readPort_register hhi, readRegister_gap s (.inr hlo)]
  · exact readPort_gap (.inl hgap)
  · exact readPort_gap (.inr (.inl hgap))
  · exact readPort_gap (.inr (.inr hgap))
  · rw [readPort_input (i := a.toNat - 0x10000000) (by omega) (by omega), windowByte_beyond (by omega)]
  · rw [readPort_output (i := a.toNat - 0x20000000) (by omega) (by omega), windowByte_beyond (by omega)]

/-- The read port shows nothing of the host's side (log 5). -/
@[simp] theorem readPort_takeEvent (rest : List HostEvent) (s : State) (a : Addr) :
    readPort (takeEvent rest s) a = readPort s a := rfl

/-- A step at a read of the host, in lockout too (R65, R68). -/
theorem step_read {s : State} {a : Addr} {rest : List HostEvent} (h : s.host.pending = .read a :: rest) :
    step s = .next (answerRead a (takeEvent rest s)) := by
  rw [step, hostTurn, h]

/-- Settles O13: the step answers the read, which writes the host's side alone. -/
theorem readAnswersAndChangesNothing : Obligations.ReadAnswersAndChangesNothing := by
  unfold Obligations.ReadAnswersAndChangesNothing
  intro s a rest h
  refine ⟨_, step_read h, rfl, ?_, ?_⟩
  · rw [answerRead_host, takeEvent_host]
  · rw [answerRead_host, takeEvent_host, readPort_takeEvent]

end Sys2Proof.Machine

/-! PROOF. The decoder and the encoder (30_encoding.md R90 to R95, R102): what the opcode map's rows have in common, what a
word decodes to, and the two round trips. -/

namespace Sys2Proof

open Machine

/-! ## The fields of a word (R90) -/

theorem opcField_append_immField (w : CmdWord) : opcField w ++ immField w = w := by
  have hjoin : opcField w ++ immField w = w.extractLsb' 0 16 :=
    BitVec.extractLsb'_append_extractLsb'_eq_extractLsb' (start₁ := 0) (len₁ := 8) rfl
  rw [hjoin, BitVec.extractLsb'_eq_self]

theorem eq_iff_fields {w v : CmdWord} : w = v ↔ opcField w = opcField v ∧ immField w = immField v := by
  constructor
  · rintro rfl
    exact ⟨rfl, rfl⟩
  · rintro ⟨hopc, himm⟩
    rw [← opcField_append_immField w, hopc, himm, opcField_append_immField]

theorem opcField_and (w v : CmdWord) : opcField (w &&& v) = opcField w &&& opcField v := BitVec.extractLsb'_and

theorem immField_and (w v : CmdWord) : immField (w &&& v) = immField w &&& immField v := BitVec.extractLsb'_and

@[simp] theorem opcField_encode (i : Instr) : opcField (encode i) = i.opc := (Laws.fields_of_append _ _).1

@[simp] theorem immField_encode (i : Instr) : immField (encode i) = i.imm := (Laws.fields_of_append _ _).2

/-! ## The rows of the opcode map (R93) -/

/-- The OPC a row accepts. -/
def OpcodeRow.opc (r : OpcodeRow) : Byte := opcField r.pattern

/-- The bits of IMM8 that must be 0 for a row to accept the word: all for form N, 7..1 for form T, none for forms B and W. -/
def OpcodeRow.reservedImm (r : OpcodeRow) : Byte := immField r.mask

/-- Every row fixes the whole OPC and only zeros of IMM8. -/
theorem opcodeTable_masks : ∀ r ∈ opcodeTable, opcField r.mask = BitVec.allOnes 8 ∧ immField r.pattern = 0 := by decide

theorem opcodeTable_opcs_nodup : (opcodeTable.map OpcodeRow.opc).Nodup := by decide

theorem row_accepts_eq_true (r : OpcodeRow) (w : CmdWord) : r.accepts w = true ↔ w &&& r.mask = r.pattern := beq_iff_eq

/-- A row of the map accepts the words with its OPC whose IMM8 keeps its form (R91, R93). -/
theorem row_accepts_iff {r : OpcodeRow} (hr : r ∈ opcodeTable) (w : CmdWord) :
    w &&& r.mask = r.pattern ↔ opcField w = r.opc ∧ immField w &&& r.reservedImm = 0 := by
  obtain ⟨hmask, hpattern⟩ := opcodeTable_masks r hr
  rw [eq_iff_fields, opcField_and, immField_and, hmask, hpattern, BitVec.and_allOnes]
  rfl

theorem bitOperandLegal_iff (x : Byte) : bitOperandLegal x = true ↔ x &&& 0xFE#8 = 0 := beq_iff_eq

/-- A row's command has the row's OPC, carries IMM8 as it is, and is well formed. -/
def OpcodeRow.Faithful (r : OpcodeRow) : Prop :=
  ∀ b : Byte, b &&& r.reservedImm = 0 → (r.build b).opc = r.opc ∧ (r.build b).imm = b ∧ (r.build b).wellFormed = true

/-- A row of form N: its IMM8 can only be 0, so one evaluation decides. -/
theorem faithful_of_formN {r : OpcodeRow} (hmask : r.reservedImm = BitVec.allOnes 8)
    (h0 : (r.build 0).opc = r.opc ∧ (r.build 0).imm = 0 ∧ (r.build 0).wellFormed = true) : r.Faithful := by
  intro b hb
  rw [hmask, BitVec.and_allOnes] at hb
  rw [hb]
  exact h0

/-- SINK_WRITE's row: its reserved bits are the ones well-formedness checks (R94). -/
theorem faithful_sinkWrite : (⟨"SINK_WRITE", 0xFFFE#16, 0x1100#16, .sinkWrite⟩ : OpcodeRow).Faithful :=
  fun x hb => ⟨rfl, rfl, (bitOperandLegal_iff x).mpr hb⟩

theorem opcodeTable_faithful : ∀ r ∈ opcodeTable, r.Faithful := by
  simp only [opcodeTable, opcodeRowsA, opcodeRowsB, List.cons_append, List.nil_append, List.forall_mem_cons]
  exact ⟨faithful_of_formN rfl (by decide), faithful_of_formN rfl (by decide), faithful_of_formN rfl (by decide),
    faithful_of_formN rfl (by decide), fun _ _ => ⟨rfl, rfl, rfl⟩, faithful_of_formN rfl (by decide), faithful_sinkWrite,
    faithful_of_formN rfl (by decide), fun _ _ => ⟨rfl, rfl, rfl⟩, faithful_of_formN rfl (by decide),
    fun _ _ => ⟨rfl, rfl, rfl⟩, faithful_of_formN rfl (by decide), fun _ _ => ⟨rfl, rfl, rfl⟩,
    faithful_of_formN rfl (by decide), faithful_of_formN rfl (by decide), fun _ _ => ⟨rfl, rfl, rfl⟩,
    faithful_of_formN rfl (by decide), fun _ _ => ⟨rfl, rfl, rfl⟩, faithful_of_formN rfl (by decide), List.forall_mem_nil _⟩

/-! ## What a word decodes to (R92) -/

/-- Rows with the same OPC are the same row, so at most one accepts a word. -/
theorem row_eq_of_accepts {r r' : OpcodeRow} {w : CmdWord} (hr : r ∈ opcodeTable) (hr' : r' ∈ opcodeTable)
    (h : w &&& r.mask = r.pattern) (h' : w &&& r'.mask = r'.pattern) : r = r' :=
  List.inj_on_of_nodup_map opcodeTable_opcs_nodup hr hr'
    (((row_accepts_iff hr w).mp h).1.symm.trans ((row_accepts_iff hr' w).mp h').1)

theorem decode_of_accepts {r : OpcodeRow} {w : CmdWord} (hr : r ∈ opcodeTable) (h : w &&& r.mask = r.pattern) :
    decode w = .command (r.build (immField w)) := by
  unfold decode
  split
  next r' hfind =>
    have haccepts : w &&& r'.mask = r'.pattern := 
      (row_accepts_eq_true r' w).mp (List.find?_some (p := (OpcodeRow.accepts · w)) hfind)
    rw [row_eq_of_accepts (List.mem_of_find?_eq_some hfind) hr haccepts h]
  next hfind => exact absurd ((row_accepts_eq_true r w).mpr h) (List.find?_eq_none.mp hfind r hr)

theorem decode_of_no_row {w : CmdWord} (h : ∀ r ∈ opcodeTable, w &&& r.mask ≠ r.pattern) :
    decode w = .illegal (illegalReason w) := by
  have hfind : opcodeTable.find? (fun r => r.accepts w) = none :=
    List.find?_eq_none.mpr fun r hr haccepts => h r hr ((row_accepts_eq_true r w).mp haccepts)
  rw [decode, hfind]

/-- A word decodes to a command only by a row that accepts it. -/
theorem row_of_decode {w : CmdWord} {i : Instr} (h : decode w = .command i) :
    ∃ r ∈ opcodeTable, w &&& r.mask = r.pattern ∧ r.build (immField w) = i := by
  by_cases hrow : ∃ r ∈ opcodeTable, w &&& r.mask = r.pattern
  · obtain ⟨r, hr, haccepts⟩ := hrow
    rw [decode_of_accepts hr haccepts] at h
    exact ⟨r, hr, haccepts, Decoded.command.inj h⟩
  · rw [decode_of_no_row fun r hr haccepts => hrow ⟨r, hr, haccepts⟩] at h
    cases h

/-- The command of row `k` of the map comes back from its word when its operand keeps the row's form. -/
theorem decode_encode_of_row {i : Instr} (k : Nat) (hk : k < opcodeTable.length) (hopc : i.opc = opcodeTable[k].opc)
    (hbuild : opcodeTable[k].build i.imm = i) (himm : i.imm &&& opcodeTable[k].reservedImm = 0) :
    decode (encode i) = .command i := by
  have hr : opcodeTable[k] ∈ opcodeTable := List.getElem_mem hk
  have haccepts : encode i &&& opcodeTable[k].mask = opcodeTable[k].pattern := by
    rw [row_accepts_iff hr, opcField_encode, immField_encode]
    exact ⟨hopc, himm⟩
  rw [decode_of_accepts hr haccepts, immField_encode, hbuild]

/-! ## The round trips -/

/-- Settles O1: each command's row of the map, forms N with IMM8 = 0, B and W with any byte, T by well-formedness. -/
theorem decodeOfEncodeIsTheCommand : Obligations.DecodeOfEncodeIsTheCommand := by
  unfold Obligations.DecodeOfEncodeIsTheCommand
  intro i hwf
  cases i with
  | nop => exact decode_encode_of_row 0 (by decide) rfl rfl rfl
  | clrErr => exact decode_encode_of_row 1 (by decide) rfl rfl rfl
  | softReset => exact decode_encode_of_row 2 (by decide) rfl rfl rfl
  | inClear => exact decode_encode_of_row 3 (by decide) rfl rfl rfl
  | inPush b => exact decode_encode_of_row 4 (by decide) rfl rfl BitVec.and_zero
  | sinkInit => exact decode_encode_of_row 5 (by decide) rfl rfl rfl
  | sinkWrite x =>
    have hreserved : opcodeTable[6].reservedImm = 0xFE#8 := rfl
    exact decode_encode_of_row 6 (by decide) rfl rfl (hreserved ▸ (bitOperandLegal_iff x).mp hwf)
  | univBegin => exact decode_encode_of_row 7 (by decide) rfl rfl rfl
  | univStep b => exact decode_encode_of_row 8 (by decide) rfl rfl BitVec.and_zero
  | univEncode => exact decode_encode_of_row 9 (by decide) rfl rfl rfl
  | arithConfig w => exact decode_encode_of_row 10 (by decide) rfl rfl BitVec.and_zero
  | arithBegin => exact decode_encode_of_row 11 (by decide) rfl rfl rfl
  | arithStep b => exact decode_encode_of_row 12 (by decide) rfl rfl BitVec.and_zero
  | arithEncode => exact decode_encode_of_row 13 (by decide) rfl rfl rfl
  | huffBegin => exact decode_encode_of_row 14 (by decide) rfl rfl rfl
  | huffCount b => exact decode_encode_of_row 15 (by decide) rfl rfl BitVec.and_zero
  | huffBuild => exact decode_encode_of_row 16 (by decide) rfl rfl rfl
  | huffEmit b => exact decode_encode_of_row 17 (by decide) rfl rfl BitVec.and_zero
  | huffEncode => exact decode_encode_of_row 18 (by decide) rfl rfl rfl

/-- Settles O2: the accepting row fixes the OPC and IMM8 of the command it builds. -/
theorem encodeOfDecodeIsTheWord : Obligations.EncodeOfDecodeIsTheWord := by
  unfold Obligations.EncodeOfDecodeIsTheWord
  intro w i h
  obtain ⟨r, hr, haccepts, rfl⟩ := row_of_decode h
  obtain ⟨hopc, himm⟩ := (row_accepts_iff hr w).mp haccepts
  obtain ⟨hopc', himm', hwf⟩ := opcodeTable_faithful r hr _ himm
  refine ⟨?_, hwf⟩
  rw [encode, hopc', himm', ← hopc, opcField_append_immField]

/-- Settles O3: the accepting row is the only one, and the OPCs keep the rows apart. -/
theorem decodingFollowsTheOpcodeMap : Obligations.DecodingFollowsTheOpcodeMap := by
  unfold Obligations.DecodingFollowsTheOpcodeMap
  refine ⟨fun w r hr h => decode_of_accepts hr h, fun w h => ⟨_, decode_of_no_row h⟩, ?_⟩
  refine List.Pairwise.imp_of_mem ?_ (List.pairwise_map.mp opcodeTable_opcs_nodup)
  rintro r r' hr hr' hne w ⟨h, h'⟩
  exact hne (congrArg OpcodeRow.opc (row_eq_of_accepts hr hr' h h'))

/-- Settles O6: the six words are evaluated. -/
theorem wordsOfTheFamiliesDecode : Obligations.WordsOfTheFamiliesDecode := by
  unfold Obligations.WordsOfTheFamiliesDecode
  decide

/-! ## ILLEGAL words (R94, R95) -/

/-- An ILLEGAL word with the OPC of a row is malformed (R94). -/
theorem decode_of_malformed {w : CmdWord} (hassigned : opcField w ∈ opcodeTable.map OpcodeRow.opc)
    (h : ∀ r ∈ opcodeTable, r.opc = opcField w → immField w &&& r.reservedImm ≠ 0) :
    decode w = .illegal (.malformedImmediate (opcField w) (immField w)) := by
  have hany : opcodeTable.any (fun r => opcField r.pattern == opcField w) = true := by
    obtain ⟨r, hr, hopc⟩ := List.mem_map.mp hassigned
    exact List.any_eq_true.mpr ⟨r, hr, beq_iff_eq.mpr hopc⟩
  rw [decode_of_no_row, illegalReason, if_pos hany]
  intro r hr haccepts
  obtain ⟨hopc, himm⟩ := (row_accepts_iff hr w).mp haccepts
  exact h r hr hopc.symm himm

/-- A word whose OPC no row has is ILLEGAL with a reserved OPC (R95). -/
theorem decode_of_reserved {w : CmdWord} (h : reservedOpc (opcField w) = true) :
    decode w = .illegal (.reservedOpcode (opcField w)) := by
  have hgaps : ∀ r ∈ opcodeTable, reservedOpc r.opc = false := by decide
  have hopc : ∀ r ∈ opcodeTable, r.opc ≠ opcField w := fun r hr heq => by simp [← heq, hgaps r hr] at h
  have hany : ¬ opcodeTable.any (fun r => opcField r.pattern == opcField w) = true := fun hany => by
    obtain ⟨r, hr, heq⟩ := List.any_eq_true.mp hany
    exact hopc r hr (beq_iff_eq.mp heq)
  rw [decode_of_no_row, illegalReason, if_neg hany]
  exact fun r hr haccepts => hopc r hr ((row_accepts_iff hr w).mp haccepts).1.symm

/-- Settles O4: form N reserves the whole IMM8, form T its bits 7..1. -/
theorem malformedImmediateIsIllegal : Obligations.MalformedImmediateIsIllegal := by
  unfold Obligations.MalformedImmediateIsIllegal
  have hassigned : ∀ o ∈ 0x11#8 :: formNOpcodes, o ∈ opcodeTable.map OpcodeRow.opc := by decide
  have hformN : ∀ r ∈ opcodeTable, r.opc ∈ formNOpcodes → r.reservedImm = BitVec.allOnes 8 := by decide
  have hformT : ∀ r ∈ opcodeTable, r.opc = 0x11#8 → r.reservedImm = 0xFE#8 := by decide
  rintro w (⟨hopc, himm⟩ | ⟨hopc, himm⟩)
  · refine decode_of_malformed (hassigned _ (List.mem_cons_of_mem _ hopc)) fun r hr hrow => ?_
    rwa [hformN r hr (hrow ▸ hopc), BitVec.and_allOnes]
  · refine decode_of_malformed (hassigned _ (hopc ▸ List.mem_cons_self)) fun r hr hrow => ?_
    rwa [hformT r hr (hrow.trans hopc)]

/-! ## The stored command stream (R102) -/

/-- Settles O8: one word after the other, its two bytes join to it. -/
theorem storedStreamReadsBack : Obligations.StoredStreamReadsBack := by
  unfold Obligations.StoredStreamReadsBack
  intro ws
  induction ws with
  | nil => rfl
  | cons w ws ih =>
    show (bytesToWords (ws.flatMap wordBytes)).map (fun vs => (opcField w ++ immField w) :: vs) = some (w :: ws)
    rw [ih, opcField_append_immField, Option.map_some]

end Sys2Proof

/-! PROOF. The command cycle (30_encoding.md R95, R96, R98; 60_exceptions.md R264; 70_reset_and_hazards.md R297): what an
accepted word does, and the words that do nothing. -/

namespace Sys2Proof.Machine

/-! ## An accepted word (R98) -/

theorem lockedOut_eq_false (t : Status) : lockedOut t = false ↔ t.err = 0 := by simp [lockedOut]

theorem lockedOut_eq_true (t : Status) : lockedOut t = true ↔ t.err ≠ 0 := by simp [lockedOut]

theorem runsInLockout_command (i : Instr) :
    runsInLockout (.command i) = true ↔ i = .nop ∨ i = .clrErr ∨ i = .softReset := by
  simp [runsInLockout, or_assoc]

theorem runsInLockout_illegal (why : Illegal) : runsInLockout (.illegal why) = false := rfl

/-- A command executes outside lockout, and in it when it is one of the three (R98, R264). -/
theorem acceptWord_command {w : CmdWord} {i : Instr} {s : State} (hd : decode w = .command i)
    (h : s.status.err = 0 ∨ i = .nop ∨ i = .clrErr ∨ i = .softReset) : acceptWord w s = exec i s := by
  have hruns : (lockedOut s.status && !runsInLockout (.command i)) = false := by
    obtain herr | hi := h
    · rw [(lockedOut_eq_false _).mpr herr, Bool.false_and]
    · rw [(runsInLockout_command i).mpr hi, Bool.not_true, Bool.and_false]
  simp [acceptWord, hd, hruns]

/-- An ILLEGAL word outside lockout records error 1 with its OPC (R98, R262). -/
theorem acceptWord_illegal {w : CmdWord} {why : Illegal} {s : State} (hd : decode w = .illegal why)
    (herr : s.status.err = 0) : acceptWord w s = .next (raiseError .illegal (opcField w) s) := by
  simp [acceptWord, hd, (lockedOut_eq_false _).mpr herr]

/-- In lockout every word but those of the three commands is discarded (R264). -/
theorem acceptWord_discarded {w : CmdWord} {s : State} (hd : runsInLockout (decode w) = false)
    (herr : s.status.err ≠ 0) : acceptWord w s = .next s := by
  simp [acceptWord, hd, (lockedOut_eq_true _).mpr herr]

/-- A step at a word of the host is the command cycle for it (R297). -/
theorem step_word {s : State} {w : CmdWord} {rest : List HostEvent} (h : s.host.pending = .word w :: rest) :
    step s = acceptWord w (takeEvent rest s) := by
  rw [step, hostTurn, h]

/-- Settles O10: the step is the command cycle, which executes the command. -/
theorem stepRunsTheDecodedCommand : Obligations.StepRunsTheDecodedCommand := by
  unfold Obligations.StepRunsTheDecodedCommand
  intro s w rest i hpending hd h
  rw [step_word hpending]
  exact acceptWord_command hd h

/-- Settles O12: each clause is one case of the command cycle. -/
theorem acceptedWordsFollowTheCommandCycle : Obligations.AcceptedWordsFollowTheCommandCycle := by
  unfold Obligations.AcceptedWordsFollowTheCommandCycle
  refine fun s w => ⟨fun herr => ⟨fun i hd hi => acceptWord_command hd (.inr hi), fun hother => ?_⟩,
    fun herr => ⟨fun why hd => acceptWord_illegal hd herr, fun i hd => acceptWord_command hd (.inl herr)⟩⟩
  refine acceptWord_discarded ?_ herr
  cases hd : decode w with
  | illegal why => exact runsInLockout_illegal why
  | command i =>
    obtain ⟨hnop, hclr, hreset⟩ := hother i hd
    rw [← Bool.not_eq_true, runsInLockout_command]
    rintro (hi | hi | hi)
    · exact hnop hi
    · exact hclr hi
    · exact hreset hi

/-- Settles O5: a reserved OPC decodes to ILLEGAL, which the cycle records outside lockout and discards in it. -/
theorem reservedOpcodeRaisesIllegal : Obligations.ReservedOpcodeRaisesIllegal := by
  unfold Obligations.ReservedOpcodeRaisesIllegal
  intro w s h
  have hd := decode_of_reserved h
  exact ⟨hd, acceptWord_illegal hd, acceptWord_discarded (hd ▸ runsInLockout_illegal _)⟩

/-! ## The word that does nothing (R96) -/

/-- A command that leaves another value of any part of the state changes the state. -/
theorem next_ne_next {α : Type} (part : State → α) {s t : State} (h : part t ≠ part s) : (.next t : Result) ≠ .next s :=
  fun heq => h (congrArg part (Host.Outcome.next.inj heq))

/-- A command that records an error changes a state without one (R262). -/
theorem finish_raised_ne {opc : Byte} {r : CmdResult} {c : ErrCode} {s u : State} (hr : r = .raised c u)
    (herr : s.status.err = 0) : finish opc r ≠ .next s := by
  rw [hr, finish_raised]
  refine next_ne_next (·.status.err) ?_
  show errValue c ≠ s.status.err
  rw [herr]
  exact errValue_ne_zero c

/-- `State.reset` with an error recorded. -/
def lockedReset : State := raiseError .sequence 0x00#8 State.reset

/-- `State.reset` with one byte pushed. -/
def loadedReset : State := (inPushBody 0x00#8 State.reset).state

theorem inv_reset : Inv State.reset := inv_initial (by decide) _

theorem inv_lockedReset : Inv lockedReset := partsKeep_inv.raise _ _ _ inv_reset

theorem inv_loadedReset : Inv loadedReset := partsKeep_inv.inPush _ _ inv_reset

/-- ARITH_CONFIG configures the reset state or reports CONFIG. -/
theorem execArithConfig_reset_ne (w : Byte) : exec (.arithConfig w) State.reset ≠ .next State.reset := by
  obtain ⟨hs, _⟩ | ⟨_, _, e⟩ | ⟨_, hw, _, e⟩ := arithConfigBody_cases w State.reset
  · cases hs
  · exact finish_raised_ne e rfl
  · have hexec : exec (.arithConfig w) State.reset = .next { State.reset with arithW := w } := congrArg (finish _) e
    intro h
    have hzero : w = 0 := congrArg State.arithW (Host.Outcome.next.inj (hexec.symm.trans h))
    subst hzero
    simp at hw

/-- A state of the invariant in which the command executes and which it changes. -/
structure Changes (i : Instr) (s : State) : Prop where
  inv : Inv s
  runs : s.status.err = 0 ∨ i = .nop ∨ i = .clrErr ∨ i = .softReset
  changed : exec i s ≠ .next s

theorem changes_reset {i : Instr} (h : exec i State.reset ≠ .next State.reset) : ∃ s, Changes i s :=
  ⟨State.reset, inv_reset, .inl rfl, h⟩

/-- Every command but NOP changes some state: CLR_ERR and SOFT_RESET one in lockout, IN_CLEAR one with a byte in IN, every
other the reset state (R96). -/
theorem exists_changes {i : Instr} (hi : i ≠ .nop) : ∃ s, Changes i s := by
  cases i with
  | nop => exact absurd rfl hi
  | clrErr => exact ⟨lockedReset, inv_lockedReset, .inr (.inr (.inl rfl)), next_ne_next (·.status.err) (by decide)⟩
  | softReset => exact ⟨lockedReset, inv_lockedReset, .inr (.inr (.inr rfl)), next_ne_next (·.status.err) (by decide)⟩
  | inClear => exact ⟨loadedReset, inv_loadedReset, .inl rfl, next_ne_next (·.input.len) (by decide)⟩
  | inPush b => exact changes_reset (next_ne_next (·.input.len) (t := (inPushBody b State.reset).state)
      (show (0 + 1 : Word64) ≠ 0 by decide))
  | sinkInit => exact changes_reset (next_ne_next State.session (by decide))
  | sinkWrite x => exact changes_reset (finish_raised_ne (c := .sequence) rfl rfl)
  | univBegin => exact changes_reset (next_ne_next State.session (by decide))
  | univStep b => exact changes_reset (finish_raised_ne (c := .sequence) rfl rfl)
  | univEncode => exact changes_reset (next_ne_next State.session (t := univBeginBody State.reset) (by decide))
  | arithConfig w => exact changes_reset (execArithConfig_reset_ne w)
  | arithBegin => exact changes_reset (finish_raised_ne (c := .config) rfl rfl)
  | arithStep b => exact changes_reset (finish_raised_ne (c := .sequence) rfl rfl)
  | arithEncode => exact changes_reset (finish_raised_ne (c := .config) rfl rfl)
  | huffBegin => exact changes_reset (next_ne_next State.session (by decide))
  | huffCount b => exact changes_reset (finish_raised_ne (c := .sequence) rfl rfl)
  | huffBuild => exact changes_reset (finish_raised_ne (c := .sequence) rfl rfl)
  | huffEmit b => exact changes_reset (finish_raised_ne (c := .sequence) rfl rfl)
  | huffEncode => exact changes_reset (next_ne_next State.session
      (t := (huffBuildBody (huffBeginBody State.reset)).state) (by decide))

/-- Settles O7: an ILLEGAL word records an error, a command's word other than NOP's changes a state where it executes. -/
theorem onlyTheNopWordIsANoOp : Obligations.OnlyTheNopWordIsANoOp := by
  unfold Obligations.OnlyTheNopWordIsANoOp
  intro w
  constructor
  · intro hnoop
    cases hd : decode w with
    | illegal why =>
      have hraised : finish (opcField w) (.raised .illegal State.reset) = .next State.reset :=
        (acceptWord_illegal hd rfl).symm.trans (hnoop _ inv_reset)
      exact absurd hraised (finish_raised_ne rfl rfl)
    | command i =>
      by_cases hi : i = .nop
      · exact ((encodeOfDecodeIsTheWord w i hd).1.symm).trans (congrArg encode hi)
      · obtain ⟨s, hs, hruns, hchanged⟩ := exists_changes hi
        exact absurd ((acceptWord_command hd hruns).symm.trans (hnoop s hs)) hchanged
  · rintro rfl s -
    exact acceptWord_command (i := .nop) (by decide) (.inr (.inl rfl))

end Sys2Proof.Machine

/-! PROOF. The assembler's words (30_encoding.md R94, R99 to R101): every command it accepts is well formed. -/

namespace Sys2Proof.Machine

/-! ## One line -/

/-- A number accepted up to a limit stands for a byte up to that limit (R100). -/
theorem toNat_le_of_parseUpTo {limit : Nat} {l : List Char} {b : Byte} (h : parseUpTo limit l = some b) :
    b.toNat ≤ limit := by
  unfold parseUpTo at h
  split at h
  next n _ =>
    split at h
    next hn =>
      cases h
      exact (BitVec.toNat_ofNat _ _).trans_le ((Nat.mod_le _ _).trans hn)
    next => cases h
  next => cases h

/-- A bit's IMM8 has no reserved bit (R91, R94). -/
theorem and_reserved_of_le_one {b : Byte} (h : b.toNat ≤ 1) : b &&& 0xFE#8 = 0 := by
  obtain rfl | rfl : b = 0#8 ∨ b = 1#8 := by bv_omega
  · rfl
  · rfl

/-- A command line's command is well formed: its operand keeps the row's form (R94, R99, R100). -/
theorem wellFormed_of_parseCommand {r : OpcodeRow} (hr : r ∈ opcodeTable) {operand : List Char} {i : Instr}
    (h : parseCommand r operand = some i) : i.wellFormed = true := by
  have hformT : ∀ r ∈ opcodeTable, r.mask = 0xFFFE#16 → r.reservedImm = 0xFE#8 := by decide
  have hformB : ∀ r ∈ opcodeTable, r.mask ≠ 0xFFFF#16 → r.mask ≠ 0xFFFE#16 → r.reservedImm = 0 := by decide
  suffices hoperand : ∃ b, b &&& r.reservedImm = 0 ∧ r.build b = i by
    obtain ⟨b, hb, rfl⟩ := hoperand
    exact (opcodeTable_faithful r hr b hb).2.2
  unfold parseCommand at h
  split at h
  next =>
    split at h
    next => exact ⟨0, BitVec.zero_and, Option.some.inj h⟩
    next => cases h
  next hN =>
    obtain ⟨b, hparse, hb⟩ := Option.map_eq_some_iff.mp h
    refine ⟨b, ?_, hb⟩
    by_cases hT : r.mask = 0xFFFE#16
    · rw [if_pos hT] at hparse
      rw [hformT r hr hT, and_reserved_of_le_one (toNat_le_of_parseUpTo hparse)]
    · rw [hformB r hr hN hT]
      exact BitVec.and_zero

/-- One command and then one for each byte, all well formed. -/
theorem wellFormed_of_mem_opening {j i : Instr} {f : Byte → Instr} {bs : List Byte} (hj : j.wellFormed = true)
    (hf : ∀ b, (f b).wellFormed = true) (h : i ∈ j :: bs.map f) : i.wellFormed = true := by
  obtain rfl | hmem := List.mem_cons.mp h
  · exact hj
  · obtain ⟨b, _, rfl⟩ := List.mem_map.mp hmem
    exact hf b

/-- A pseudo-instruction stands for well-formed commands (R101). -/
theorem wellFormed_of_mem_expand {p : Pseudo} {i : Instr} (h : i ∈ expand p) : i.wellFormed = true := by
  cases p with
  | inLoad s => exact wellFormed_of_mem_opening rfl (fun _ => rfl) h
  | inLoadBytes bs => exact wellFormed_of_mem_opening rfl (fun _ => rfl) h
  | sinkBits s =>
    obtain ⟨x, _, rfl⟩ := List.mem_map.mp h
    cases x <;> rfl
  | arithRun n =>
    obtain rfl | rfl := List.mem_pair.mp h <;> rfl
  | univBytes bs => exact wellFormed_of_mem_opening rfl (fun _ => rfl) h

/-- An accepted line's commands are well formed (R99). -/
theorem wellFormed_of_assembleLine {line : List Char} {is : List Instr} (h : assembleLine line = some is) {i : Instr}
    (hi : i ∈ is) : i.wellFormed = true := by
  unfold assembleLine at h
  dsimp only at h
  split at h
  next =>
    cases h
    cases hi
  next =>
    split at h
    next r hfind =>
      obtain ⟨j, hparse, rfl⟩ := Option.map_eq_some_iff.mp h
      rw [List.mem_singleton.mp hi]
      exact wellFormed_of_parseCommand (List.mem_of_find?_eq_some hfind) hparse
    next =>
      obtain ⟨p, _, rfl⟩ := Option.map_eq_some_iff.mp h
      exact wellFormed_of_mem_expand hi

/-! ## The program -/

/-- Every result of a list read item by item is some item's. -/
theorem exists_of_mem_mapM {α β : Type} {f : α → Option β} {l : List α} {bs : List β} (h : l.mapM f = some bs) {b : β}
    (hb : b ∈ bs) : ∃ a, f a = some b := by
  induction l generalizing bs with
  | nil =>
    cases h
    cases hb
  | cons a as ih =>
    simp only [List.mapM_cons, Option.bind_eq_bind, Option.bind_eq_some_iff, Option.pure_def, Option.some.injEq] at h
    obtain ⟨c, hc, cs, hcs, rfl⟩ := h
    obtain rfl | hb := List.mem_cons.mp hb
    · exact ⟨a, hc⟩
    · exact ih hcs hb

/-- Settles O9: every word of the program encodes a well-formed command of some line, so it decodes to it. -/
theorem assembledWordsAreCommands : Obligations.AssembledWordsAreCommands := by
  unfold Obligations.AssembledWordsAreCommands
  intro text ws h w hw
  obtain ⟨lines, hlines, rfl⟩ := Option.map_eq_some_iff.mp h
  obtain ⟨i, hi, rfl⟩ := List.mem_map.mp hw
  obtain ⟨is, his, hmem⟩ := List.mem_flatten.mp hi
  obtain ⟨line, hline⟩ := exists_of_mem_mapM hlines his
  exact ⟨i, decodeOfEncodeIsTheCommand i (wellFormed_of_assembleLine hline hmem)⟩

end Sys2Proof.Machine

/-! PROOF. The host and input-buffer commands (40_host.md R120 to R124): each command's equation and the words that carry the
three of lockout. -/

namespace Sys2Proof.Machine

/-! ## The commands' equations -/

theorem exec_nop (s : State) : exec .nop s = .next s := rfl

theorem exec_clrErr (s : State) : exec .clrErr s = .next (clearError s) := rfl

theorem exec_softReset (s : State) : exec .softReset s = .next (resetBlock s) := rfl

theorem exec_inClear (s : State) : exec .inClear s = .next { s with input := ⟨Memory.empty, 0⟩ } := rfl

/-- IN_PUSH below capacity writes its byte at index IN_LEN (R124). -/
theorem exec_inPush_of_ne {s : State} (h : s.input.len.toNat ≠ s.params.inCap) (b : Byte) :
    exec (.inPush b) s = .next { s with input := ⟨s.input.mem.write s.input.len.toNat b, s.input.len + 1⟩ } :=
  congrArg (finish _) (if_neg h)

/-- IN_PUSH at capacity records IN_FULL and nothing else (R124, R262). -/
theorem exec_inPush_of_eq {s : State} (h : s.input.len.toNat = s.params.inCap) (b : Byte) :
    exec (.inPush b) s = .next (raiseError .inFull 0x09#8 s) :=
  congrArg (finish _) (if_pos h)

/-- The word of NOP, CLR_ERR or SOFT_RESET executes its command in every state, lockout included (R264). -/
theorem acceptWord_encode_of_runsInLockout {i : Instr} (hi : i = .nop ∨ i = .clrErr ∨ i = .softReset) (s : State) :
    acceptWord (encode i) s = exec i s := by
  have hwf : i.wellFormed = true := by obtain rfl | rfl | rfl := hi <;> rfl
  exact acceptWord_command (decodeOfEncodeIsTheCommand i hwf) (.inr hi)

/-! ## The Huffman encoder after reset (R43) -/

@[simp] theorem huffFresh_m : huffFresh.m = 0 := rfl

@[simp] theorem tableGet_huffFresh_hist (v : Byte) : tableGet huffFresh.hist v = 0 := tableGet_tableAll _ v

@[simp] theorem tableGet_huffFresh_order (v : Byte) : tableGet huffFresh.order v = 0 := tableGet_tableAll _ v

@[simp] theorem tableGet_huffFresh_clen (v : Byte) : tableGet huffFresh.clen v = 0 := tableGet_tableAll _ v

@[simp] theorem tableGet_huffFresh_code (v : Byte) : tableGet huffFresh.code v = [] := tableGet_tableAll _ v

/-! ## The obligations -/

/-- Settles O22: IN_PUSH's two cases, and a read after the write at IN_LEN. -/
theorem inputCommandsEffects : Obligations.InputCommandsEffects := by
  unfold Obligations.InputCommandsEffects
  refine ⟨decodeOfEncodeIsTheCommand .inClear rfl, fun b => decodeOfEncodeIsTheCommand (.inPush b) rfl,
    fun s b hwf => ⟨⟨_, exec_inClear s, Memory.wf_empty⟩, fun hlen => ⟨_, exec_inPush_of_ne hlen b, fun a => ?_⟩,
      fun hlen => exec_inPush_of_eq hlen b⟩⟩
  exact (Memory.read_write _ _ _ _ hwf).trans (if_congr eq_comm rfl rfl)

/-- Settles O20: the two commands' equations, and their words in lockout too. -/
theorem nopAndClearErrorEffects : Obligations.NopAndClearErrorEffects := by
  unfold Obligations.NopAndClearErrorEffects
  intro s
  exact ⟨exec_nop s, acceptWord_encode_of_runsInLockout (.inl rfl) s,
    exec_clrErr s, acceptWord_encode_of_runsInLockout (.inr (.inl rfl)) s⟩

/-- Settles O21: SOFT_RESET answers `resetBlock s`, whose pieces are the reset values one by one. -/
theorem softResetGivesEveryResetValue : Obligations.SoftResetGivesEveryResetValue := by
  unfold Obligations.SoftResetGivesEveryResetValue
  intro s
  refine ⟨resetBlock s, exec_softReset s, acceptWord_encode_of_runsInLockout (.inr (.inr rfl)) s, ?_⟩
  simp

end Sys2Proof.Machine

/-! PROOF. The raw bit-sink commands and the sessions that start with a fresh output (41_bit_sink.md R141 to R148,
42_universal.md R163, 44_huffman.md R223): each command's equation, and what one written bit leaves unchanged. -/

namespace Sys2Proof.Machine

/-! ## Where a bit can be written -/

/-- The sessions with a live sink by name (R148). -/
theorem sinkLive_eq_true_iff (n : Session) : sinkLive n = true ↔ n = .sink ∨ n = .univ ∨ n = .arith := by
  cases n <;> decide

/-- The sessions without one (R148). -/
theorem sinkLive_eq_false_iff (n : Session) : sinkLive n = false ↔ n = .none ∨ n = .huffHist ∨ n = .huffEmit := by
  cases n <;> decide

theorem sinkFits_eq_true_iff (p : Params) (o : OutBuf) (e : Nat) :
    sinkFits p o e = true ↔ (o.bits.toNat + e) / 8 + 1 ≤ outCap p := decide_eq_true_iff

theorem sinkFits_eq_false_iff (p : Params) (o : OutBuf) (e : Nat) :
    sinkFits p o e = false ↔ outCap p < (o.bits.toNat + e) / 8 + 1 := decide_eq_false_iff_not.trans not_le

/-- In a session with a live sink OUT is a sink between two writes (R44 items 2, 3). -/
theorem sinkReady_of_sinkLive {s : State} (h : BaseInv s) (hl : sinkLive s.session = true) : SinkReady s.out :=
  ((outputInv_iff_sinkReady hl).mp h.output).1

/-- One written bit touches no byte but the cursor's; the byte it may append was 0 before (R141, R144). -/
theorem sinkWriteBit_read_other (x : Bool) (o : OutBuf) (h : SinkReady o) (hb : o.bits.toNat + 1 < 2 ^ 63) (a : Nat)
    (ha : a ≠ o.byteOff.toNat) : (sinkWriteBit x o).mem.read a = o.mem.read a := by
  refine Memory.read_eq_of_bits _ _ a fun j hj => ?_
  have hne : j ≠ o.bits.toNat := by
    rintro rfl
    exact ha (hj.symm.trans h.cursor.1.symm)
  exact ((sinkWriteBit_spec x o h hb).2 j).trans (if_neg hne)

/-! ## The commands' equations -/

/-- SINK_WRITE with no live sink records SEQUENCE and nothing else (R148, R262). -/
theorem exec_sinkWrite_of_not_live {s : State} (hl : sinkLive s.session = false) (x : Byte) :
    exec (.sinkWrite x) s = .next (raiseError .sequence 0x11#8 s) :=
  congrArg (finish 0x11#8) (show sinkWriteBody x s = .raised .sequence s by simp [sinkWriteBody, hl])

/-- SINK_WRITE into a live but full sink records OUT_FULL and nothing else (R148, R142, R262). -/
theorem exec_sinkWrite_of_full {s : State} (hl : sinkLive s.session = true) (hf : sinkFits s.params s.out 1 = false)
    (x : Byte) : exec (.sinkWrite x) s = .next (raiseError .outFull 0x11#8 s) :=
  congrArg (finish 0x11#8) (show sinkWriteBody x s = .raised .outFull s by simp [sinkWriteBody, hl, hf])

/-- SINK_WRITE into a live sink with room writes its bit and changes nothing but the output (R148). -/
theorem exec_sinkWrite_of_fits {s : State} (hl : sinkLive s.session = true) (hf : sinkFits s.params s.out 1 = true)
    (x : Byte) : exec (.sinkWrite x) s = .next { s with out := sinkWriteBit (bitOperand x) s.out } :=
  congrArg (finish 0x11#8) (show sinkWriteBody x s = .done _ by simp [sinkWriteBody, hl, hf])

theorem exec_sinkInit (s : State) : exec .sinkInit s = .next (openSession .sink sinkInit s) := rfl

theorem exec_univBegin (s : State) : exec .univBegin s = .next (openSession .univ sinkInit s) := rfl

theorem exec_huffBegin (s : State) :
    exec .huffBegin s = .next { openSession .huffHist packInit s with huf := huffFresh } := rfl

/-! ## The obligations -/

/-- Settles O26: the three cases of SINK_WRITE; the written bit's position, cursor and length are those of the ready sink it
leaves. -/
theorem sinkWriteEffects : Obligations.SinkWriteEffects := by
  unfold Obligations.SinkWriteEffects
  refine ⟨decodeOfEncodeIsTheCommand (.sinkWrite 0#8) rfl, decodeOfEncodeIsTheCommand (.sinkWrite 1#8) rfl,
    fun s x h => ⟨fun hlive hroom => ?_, fun hdead => ?_, fun hlive hfull => ?_⟩⟩
  · have hl := (sinkLive_eq_true_iff _).mpr hlive
    have hf := (sinkFits_eq_true_iff _ _ _).mpr hroom
    have hready := sinkReady_of_sinkLive h hl
    have hlt := bits_lt_of_sinkFits h.legal hf
    obtain ⟨⟨-, ⟨hbyte, hbit⟩, -, hlen⟩, hstream⟩ := sinkWriteBit_spec (bitOperand x) s.out hready hlt
    have hbits : (sinkWriteBit (bitOperand x) s.out).bits.toNat = s.out.bits.toNat + 1 := by
      rw [sinkWriteBit_bits]
      exact bits_succ _ (by omega)
    exact ⟨_, exec_sinkWrite_of_fits hl hf x, hbits, hbyte, hbit, hlen, hstream,
      fun a ha _ => sinkWriteBit_read_other _ _ hready hlt a ha⟩
  · exact exec_sinkWrite_of_not_live ((sinkLive_eq_false_iff _).mpr hdead) x
  · exact exec_sinkWrite_of_full ((sinkLive_eq_true_iff _).mpr hlive) ((sinkFits_eq_false_iff _ _ _).mpr hfull) x

/-- Settles O23: SINK_INIT and UNIV_BEGIN open their session on `sinkInit`, HUFF_BEGIN on `packInit` with the fresh tables. -/
theorem sessionOpeningsStartFresh : Obligations.SessionOpeningsStartFresh := by
  unfold Obligations.SessionOpeningsStartFresh
  have hzero : sinkInit.mem.read 0 = 0 := rfl
  exact ⟨decodeOfEncodeIsTheCommand .sinkInit rfl, decodeOfEncodeIsTheCommand .univBegin rfl,
    decodeOfEncodeIsTheCommand .huffBegin rfl, fun s =>
      ⟨⟨sinkInit, exec_sinkInit s, sinkInit_len, sinkInit_bits, sinkInit_byteOff, sinkInit_bitOff, hzero⟩,
        ⟨sinkInit, exec_univBegin s, sinkInit_len, sinkInit_bits, sinkInit_byteOff, sinkInit_bitOff, hzero⟩,
        packInit, huffFresh, exec_huffBegin s, packInit_len, packInit_bits, packInit_byteOff, packInit_bitOff,
        huffFresh_m, fun v => ⟨tableGet_huffFresh_hist v, tableGet_huffFresh_clen v, tableGet_huffFresh_code v,
          tableGet_huffFresh_order v⟩⟩⟩

end Sys2Proof.Machine

/-! PROOF. The Elias-delta code (42_universal.md R160 to R162): its parts, its length, and that it is self-delimiting. -/

namespace Sys2Proof.Machine

/-! ## The binary representation of a number (R10) -/

@[simp] theorem zeros_length (n : Nat) : (zeros n).length = n := List.length_replicate

@[simp] theorem bin_length (x w : Nat) : (bin x w).length = w := by simp [bin]

/-- The first of w + 1 bits is bit w. -/
theorem bin_succ (x w : Nat) : bin x (w + 1) = x.testBit w :: bin x w := by
  simp [bin, List.range_succ_eq_map, Nat.sub_sub, Nat.add_comm]

/-- The number that w bits of x stand for. -/
theorem bitsValue_bin (x w : Nat) : bitsValue (bin x w) = x % 2 ^ w := by
  refine Nat.eq_of_testBit_eq fun k => ?_
  rw [testBit_bitsValue, Nat.testBit_mod_two_pow]
  by_cases hk : k < w
  · have hback : w - 1 - (w - 1 - k) = k := by omega
    simp [bin, hk, hback]
  · simp [bin, hk]

/-- Equal representations have equal low bits. -/
theorem mod_eq_of_bin_eq {x y w : Nat} (h : bin x w = bin y w) : x % 2 ^ w = y % 2 ^ w := by
  rw [← bitsValue_bin, h, bitsValue_bin]

/-- Higher bits do not show. -/
theorem bin_mod (x w : Nat) : bin (x % 2 ^ w) w = bin x w := by
  refine List.map_congr_left fun j hj => ?_
  have hlt : w - 1 - j < w := by have := List.mem_range.mp hj; omega
  simp [Nat.testBit_mod_two_pow, hlt]

/-! ## A number below its leading 1 -/

/-- A positive number is its leading 1 and the bits below it. -/
theorem eq_two_pow_log2_add_mod {x : Nat} (hx : x ≠ 0) : x = 2 ^ x.log2 + x % 2 ^ x.log2 := by
  have hlo := Nat.log2_self_le hx
  have hhi := Nat.lt_log2_self (n := x)
  rw [pow_succ] at hhi
  have hmod : x % 2 ^ x.log2 = x - 2 ^ x.log2 := by
    rw [Nat.mod_eq_sub_mod hlo, Nat.mod_eq_of_lt (by omega)]
  omega

/-- A positive number's shortest representation begins with its leading 1. -/
theorem bin_log2_succ {x : Nat} (hx : x ≠ 0) : bin x (x.log2 + 1) = true :: bin x x.log2 := by
  rw [bin_succ, Nat.testBit_log2 hx]

/-- The bits below the leading 1 determine a positive number. -/
theorem eq_of_log2_eq_of_bin_eq {x y : Nat} (hx : x ≠ 0) (hy : y ≠ 0) (hl : x.log2 = y.log2)
    (hb : bin x x.log2 = bin y x.log2) : x = y := by
  have hmod := mod_eq_of_bin_eq hb
  rw [eq_two_pow_log2_add_mod hx, eq_two_pow_log2_add_mod hy, hmod, hl]

/-! ## The code's parts (R160) -/

/-- L = floor_log2(b + 1). -/
def eliasLog (b : Byte) : Nat := (b.toNat + 1).log2

/-- LL = floor_log2(L + 1). -/
def eliasZeros (b : Byte) : Nat := (eliasLog b + 1).log2

theorem elias_eq (b : Byte) : elias b = zeros (eliasZeros b) ++
    bin (eliasLog b + 1) (eliasZeros b + 1) ++ bin ((b.toNat + 1) % 2 ^ eliasLog b) (eliasLog b) := rfl

/-- b + 1 is at most 256. -/
theorem eliasLog_le (b : Byte) : eliasLog b ≤ 8 := by
  have hlt : b.toNat + 1 < 2 ^ 9 := by omega
  exact Nat.le_of_lt_succ ((Nat.log2_lt (by omega)).mpr hlt)

theorem eliasZeros_le (b : Byte) : eliasZeros b ≤ 3 := by
  have hlt : eliasLog b + 1 < 2 ^ 4 := by have := eliasLog_le b; omega
  exact Nat.le_of_lt_succ ((Nat.log2_lt (by omega)).mpr hlt)

/-- R161. -/
theorem elias_length (b : Byte) : (elias b).length = 2 * eliasZeros b + eliasLog b + 1 := by
  simp only [elias_eq, List.length_append, zeros_length, bin_length]
  omega

theorem elias_length_le (b : Byte) : (elias b).length ≤ 15 := by
  have hl := eliasLog_le b
  have hll := eliasZeros_le b
  rw [elias_length]
  omega

theorem elias_length_pos (b : Byte) : 1 ≤ (elias b).length := by
  rw [elias_length]
  exact Nat.le_add_left _ _

/-- The code's first part: LL zeros. -/
theorem take_elias (b : Byte) : (elias b).take (eliasZeros b) = zeros (eliasZeros b) := by
  rw [elias_eq, List.append_assoc, List.take_left' (zeros_length _)]

/-- The code's second part: L + 1 in LL + 1 bits. -/
theorem bitsValue_elias_log (b : Byte) :
    bitsValue (((elias b).drop (eliasZeros b)).take (eliasZeros b + 1)) = eliasLog b + 1 := by
  rw [elias_eq, List.append_assoc, List.drop_left' (zeros_length _), List.take_left' (bin_length _ _), bitsValue_bin]
  exact Nat.mod_eq_of_lt Nat.lt_log2_self

/-- The code's third part: the bits of b + 1 below its leading 1. -/
theorem bitsValue_elias_low (b : Byte) :
    bitsValue ((elias b).drop (2 * eliasZeros b + 1)) = (b.toNat + 1) % 2 ^ eliasLog b := by
  have hlength : (zeros (eliasZeros b) ++ bin (eliasLog b + 1) (eliasZeros b + 1)).length = 2 * eliasZeros b + 1 := by
    simp only [List.length_append, zeros_length, bin_length]
    omega
  rw [elias_eq, List.drop_left' hlength, bitsValue_bin, Nat.mod_mod]

/-- Settles O27: `elias b` is three parts of the lengths LL, LL + 1 and L, and L ≤ 8, LL ≤ 3. -/
theorem eliasCodeLength : Obligations.EliasCodeLength := by
  unfold Obligations.EliasCodeLength
  exact fun b => ⟨take_elias b, bitsValue_elias_log b, bitsValue_elias_low b, elias_length b, elias_length_pos b,
    elias_length_le b⟩

/-! ## Self-delimiting (R162) -/

/-- The leading 1 of L + 1 ends the zeros before it. -/
theorem elias_eq_zeros_true (b : Byte) : elias b = zeros (eliasZeros b) ++
    true :: (bin (eliasLog b + 1) (eliasZeros b) ++ bin (b.toNat + 1) (eliasLog b)) := by
  rw [elias_eq, bin_mod, eliasZeros, bin_log2_succ (Nat.succ_ne_zero _), List.append_assoc, List.cons_append]

theorem elias_ne_nil (b : Byte) : elias b ≠ [] := by
  rw [elias_eq_zeros_true]
  exact List.append_ne_nil_of_right_ne_nil _ (List.cons_ne_nil _ _)

/-- A run of zeros ended by a 1 determines its length. -/
theorem zeros_true_inj {m n : Nat} {u v : BitString} (h : zeros m ++ true :: u = zeros n ++ true :: v) :
    m = n ∧ u = v := by
  induction m generalizing n with
  | zero =>
    cases n with
    | zero => exact ⟨rfl, (List.cons.inj h).2⟩
    | succ n => exact absurd (List.cons.inj h).1 (by decide)
  | succ m ih =>
    cases n with
    | zero => exact absurd (List.cons.inj h).1 (by decide)
    | succ n =>
      obtain ⟨hmn, huv⟩ := ih (List.cons.inj h).2
      exact ⟨congrArg (· + 1) hmn, huv⟩

/-- A code read off the front of a bit string is determined by it: the zeros give LL, the next bits L, the rest the byte. -/
theorem elias_append_inj {b c : Byte} {u v : BitString} (h : elias b ++ u = elias c ++ v) : b = c ∧ u = v := by
  rw [elias_eq_zeros_true, elias_eq_zeros_true, List.append_assoc, List.append_assoc, List.cons_append, List.cons_append,
    List.append_assoc, List.append_assoc] at h
  obtain ⟨hzeros, h⟩ := zeros_true_inj h
  obtain ⟨hlogBits, h⟩ := List.append_inj h (by rw [bin_length, bin_length, hzeros])
  rw [← hzeros] at hlogBits
  have hlog := Nat.succ.inj (eq_of_log2_eq_of_bin_eq (Nat.succ_ne_zero _) (Nat.succ_ne_zero _) hzeros hlogBits)
  obtain ⟨hlow, hrest⟩ := List.append_inj h (by rw [bin_length, bin_length, hlog])
  rw [← hlog] at hlow
  have hbyte := Nat.succ.inj (eq_of_log2_eq_of_bin_eq (Nat.succ_ne_zero _) (Nat.succ_ne_zero _) hlog hlow)
  exact ⟨BitVec.eq_of_toNat_eq hbyte, hrest⟩

/-- Settles O28: a code is determined by any bit string it begins, and the rest of the string with it. -/
theorem eliasCodesAreSelfDelimiting : Obligations.EliasCodesAreSelfDelimiting := by
  unfold Obligations.EliasCodesAreSelfDelimiting
  refine ⟨fun b c ⟨u, hu⟩ => (elias_append_inj (hu.trans (List.append_nil _).symm)).1, fun bs => ?_⟩
  have hne (b : Byte) (u : BitString) : elias b ++ u ≠ [] := List.append_ne_nil_of_left_ne_nil (elias_ne_nil b) u
  induction bs with
  | nil =>
    intro cs h
    cases cs with
    | nil => rfl
    | cons c cs => exact absurd h.symm (hne c _)
  | cons b bs ih =>
    intro cs h
    cases cs with
    | nil => exact absurd h (hne b _)
    | cons c cs =>
      obtain ⟨rfl, hrest⟩ := elias_append_inj h
      rw [ih cs hrest]

end Sys2Proof.Machine

/-! PROOF. The universal encoder's commands (42_universal.md R163 to R167): UNIV_STEP case by case, and UNIV_ENCODE as one write
of every code of IN. -/

namespace Sys2Proof.Machine

/-! ## UNIV_STEP (R164) -/

theorem symbolsExhausted_eq_true_iff (s : State) : symbolsExhausted s = true ↔ s.nsym.toNat = symMax s.params := beq_iff_eq

theorem symbolsExhausted_eq_false_iff (s : State) : symbolsExhausted s = false ↔ s.nsym.toNat ≠ symMax s.params :=
  beq_eq_false_iff_ne

/-- Outside a UNIV session UNIV_STEP records SEQUENCE and nothing else. -/
theorem exec_univStep_of_not_univ {s : State} (hn : s.session ≠ .univ) (b : Byte) :
    exec (.univStep b) s = .next (raiseError .sequence 0x21#8 s) :=
  congrArg (finish 0x21#8) (show univStepBody b s = .raised .sequence s by simp [univStepBody, hn])

/-- At SYM_MAX it records SYM_LIMIT and nothing else. -/
theorem exec_univStep_of_exhausted {s : State} (hn : s.session = .univ) (hx : symbolsExhausted s = true) (b : Byte) :
    exec (.univStep b) s = .next (raiseError .symLimit 0x21#8 s) :=
  congrArg (finish 0x21#8) (show univStepBody b s = .raised .symLimit s by simp [univStepBody, hn, hx])

/-- Without room for the code it records OUT_FULL and nothing else. -/
theorem exec_univStep_of_full {s : State} {b : Byte} (hn : s.session = .univ) (hx : symbolsExhausted s = false)
    (hf : sinkFits s.params s.out (elias b).length = false) :
    exec (.univStep b) s = .next (raiseError .outFull 0x21#8 s) :=
  congrArg (finish 0x21#8) (show univStepBody b s = .raised .outFull s by simp [univStepBody, hn, hx, hf])

/-- A UNIV_STEP that meets its three checks writes the code and counts the symbol. -/
theorem univStepBody_of_fits {s : State} {b : Byte} (hn : s.session = .univ) (hx : symbolsExhausted s = false)
    (hf : sinkFits s.params s.out (elias b).length = true) :
    univStepBody b s = .done { s with out := sinkWriteBits (elias b) s.out, nsym := s.nsym + 1 } := by
  simp [univStepBody, hn, hx, hf]

theorem exec_univStep_of_fits {s : State} {b : Byte} (hn : s.session = .univ) (hx : symbolsExhausted s = false)
    (hf : sinkFits s.params s.out (elias b).length = true) :
    exec (.univStep b) s = .next { s with out := sinkWriteBits (elias b) s.out, nsym := s.nsym + 1 } :=
  congrArg (finish 0x21#8) (univStepBody_of_fits hn hx hf)

theorem sinkLive_of_univ {s : State} (hn : s.session = .univ) : sinkLive s.session = true := by rw [hn]; rfl

/-- Settles O29: the four cases of UNIV_STEP; a code that fits is written as any bit string through a ready sink. -/
theorem univStepEffects : Obligations.UnivStepEffects := by
  unfold Obligations.UnivStepEffects
  refine ⟨fun b => decodeOfEncodeIsTheCommand (.univStep b) rfl, fun s b h =>
    ⟨fun hn hx hroom => ?_, fun hn => ?_, fun hn hx => ?_, fun hn hx hfull => ?_⟩⟩
  · have hx := (symbolsExhausted_eq_false_iff s).mpr hx
    have hf := (sinkFits_eq_true_iff _ _ _).mpr hroom
    have hready := sinkReady_of_sinkLive h (sinkLive_of_univ hn)
    have hlt := bits_lt_of_sinkFits h.legal hf
    obtain ⟨hready', hbits, hstream⟩ := sinkWriteBits_spec (elias b) s.out hready hlt
    refine ⟨_, exec_univStep_of_fits hn hx hf, hbits, hready'.cursor, hready'.len, fun j => ?_, fun a ha => ?_⟩
    · rw [hbits]
      exact hstream j
    · rw [hready.cursor.1, hready'.cursor.1, hbits] at ha
      exact sinkWriteBits_read_other _ _ hready hlt a ha
  · exact exec_univStep_of_not_univ hn b
  · exact exec_univStep_of_exhausted hn ((symbolsExhausted_eq_true_iff s).mpr hx) b
  · exact exec_univStep_of_full hn ((symbolsExhausted_eq_false_iff s).mpr hx) ((sinkFits_eq_false_iff _ _ _).mpr hfull)

/-! ## UNIV_ENCODE (R165) -/

/-- A UNIV session with room for some bytes to come: symbols left to count and bits left to write. -/
structure UnivRoom (bs : List Byte) (s : State) : Prop where
  base : BaseInv s
  session : s.session = .univ
  symbols : s.nsym.toNat + bs.length ≤ symMax s.params
  bits : (s.out.bits.toNat + (bs.flatMap elias).length) / 8 + 1 ≤ outCap s.params

/-- One UNIV_STEP uses up the first byte's room. -/
theorem univStepBody_of_room {b : Byte} {bs : List Byte} {s : State} (h : UnivRoom (b :: bs) s) :
    univStepBody b s = .done { s with out := sinkWriteBits (elias b) s.out, nsym := s.nsym + 1 } ∧
      UnivRoom bs { s with out := sinkWriteBits (elias b) s.out, nsym := s.nsym + 1 } := by
  obtain ⟨hbase, hn, hsymbols, hroom⟩ := h
  rw [List.length_cons] at hsymbols
  rw [List.flatMap_cons, List.length_append] at hroom
  have hx : symbolsExhausted s = false := (symbolsExhausted_eq_false_iff s).mpr (by omega)
  have hf : sinkFits s.params s.out (elias b).length = true := (sinkFits_eq_true_iff _ _ _).mpr (by omega)
  have hstep := univStepBody_of_fits hn hx hf
  have hbase' := baseInv_univStepBody b hbase
  rw [hstep] at hbase'
  obtain ⟨-, hbits, -⟩ := sinkWriteBits_spec (elias b) s.out (sinkReady_of_sinkLive hbase (sinkLive_of_univ hn))
    (bits_lt_of_sinkFits hbase.legal hf)
  obtain ⟨hsucc, -⟩ := nsym_succ hbase hx
  refine ⟨hstep, hbase', hn, ?_, ?_⟩
  · show (s.nsym + 1).toNat + bs.length ≤ symMax s.params
    omega
  · show ((sinkWriteBits (elias b) s.out).bits.toNat + _) / 8 + 1 ≤ outCap s.params
    omega

/-- The loop of UNIV_STEPs over bytes with room writes their codes one after the other and counts them. -/
theorem forEach_univStepBody {bs : List Byte} {s : State} (h : UnivRoom bs s) :
    forEach univStepBody bs s =
      .done { s with out := sinkWriteBits (bs.flatMap elias) s.out, nsym := s.nsym + BitVec.ofNat 64 bs.length } := by
  induction bs generalizing s with
  | nil => simp
  | cons b bs ih =>
    obtain ⟨hstep, hroom⟩ := univStepBody_of_room h
    have hcount : s.nsym + 1 + BitVec.ofNat 64 bs.length = s.nsym + BitVec.ofNat 64 (bs.length + 1) := by
      rw [Nat.add_comm, BitVec.ofNat_add, BitVec.add_assoc]
      rfl
    rw [forEach_cons, hstep, andThen_done, ih hroom, List.flatMap_cons, sinkWriteBits_append, List.length_cons, ← hcount]

/-- A code takes at most 15 bits, less than two bytes (R161, R166). -/
theorem flatMap_elias_length_le (bs : List Byte) : (bs.flatMap elias).length ≤ 15 * bs.length := by
  induction bs with
  | nil => exact Nat.le_refl 0
  | cons b bs ih =>
    have hle := elias_length_le b
    rw [List.flatMap_cons, List.length_append, List.length_cons]
    omega

@[simp] theorem inputBytes_length (i : InBuf) : (inputBytes i).length = i.len.toNat := by simp [inputBytes]

/-- A fresh UNIV session has room for every byte of IN: OUT_CAP is 8 bytes for each and one more (R166). -/
theorem univRoom_univBegin {s : State} (h : BaseInv s) : UnivRoom (inputBytes s.input) (univBeginBody s) := by
  obtain ⟨-, hcap⟩ := h.input
  have hle := flatMap_elias_length_le (inputBytes s.input)
  rw [inputBytes_length] at hle
  refine ⟨baseInv_openSession rfl (by decide) h, rfl, ?_, ?_⟩
  · show 0 + (inputBytes s.input).length ≤ symMax s.params
    rw [inputBytes_length, symMax]
    omega
  · show (0 + ((inputBytes s.input).flatMap elias).length) / 8 + 1 ≤ outCap s.params
    rw [outCap]
    omega

/-- UNIV_ENCODE writes the codes of IN into a fresh sink and counts IN_LEN symbols (R165, R166). -/
theorem exec_univEncode {s : State} (h : BaseInv s) :
    exec .univEncode s = .next { s with
      out := sinkWriteBits ((inputBytes s.input).flatMap elias) sinkInit, nsym := s.input.len, session := .univ } := by
  have hbody := forEach_univStepBody (univRoom_univBegin h)
  have hcount : (univBeginBody s).nsym + BitVec.ofNat 64 (inputBytes s.input).length = s.input.len := by
    rw [inputBytes_length, BitVec.ofNat_toNat, BitVec.setWidth_eq]
    exact BitVec.zero_add _
  rw [hcount] at hbody
  exact congrArg (finish 0x22#8) hbody

/-- Settles O30: the codes are written through a fresh sink, whose tail beyond BITS stays 0. -/
theorem univEncodeWritesEveryCode : Obligations.UnivEncodeWritesEveryCode := by
  unfold Obligations.UnivEncodeWritesEveryCode
  refine ⟨decodeOfEncodeIsTheCommand .univEncode rfl, fun s h => ?_⟩
  have hlt : sinkInit.bits.toNat + ((inputBytes s.input).flatMap elias).length < 2 ^ 63 :=
    bits_lt_of_sinkFits h.legal ((sinkFits_eq_true_iff _ _ _).mpr (univRoom_univBegin h).bits)
  obtain ⟨hready, hbits, hstream⟩ := sinkWriteBits_spec _ sinkInit sinkReady_init hlt
  have hzero : sinkInit.bits.toNat = 0 := rfl
  rw [hzero, Nat.zero_add] at hbits
  refine ⟨_, exec_univEncode h, hbits, hready.len, hready.cursor, fun j _ => ?_⟩
  rw [hstream j, hzero, Nat.zero_add, Nat.sub_zero]
  split
  · rfl
  · next hj =>
    rw [List.getD_eq_default _ _ (by omega)]
    exact sinkReady_init.clean j (Nat.zero_le j)

/-- Settles O31: both outputs are the codes of the same bytes written into a fresh sink. -/
theorem univEncodeDependsOnlyOnInput : Obligations.UnivEncodeDependsOnlyOnInput := by
  unfold Obligations.UnivEncodeDependsOnlyOnInput
  intro s s' t t' h h' hin ht ht'
  rw [exec_univEncode h] at ht
  rw [exec_univEncode h', ← hin] at ht'
  cases ht
  cases ht'
  rfl

end Sys2Proof.Machine

/-! PROOF. The composite ENCODE commands against their single steps (60_exceptions.md R267, R273): a loop that ends without an
error is its sub-steps' commands, one after the other. -/

namespace Sys2Proof.Machine

/-! ## Running commands one after the other -/

theorem runCommands_cons_of_next {i : Instr} {s t : State} (h : exec i s = .next t) (is : List Instr) :
    runCommands (i :: is) s = runCommands is t := by rw [runCommands, h]

theorem runCommands_append_of_next {is : List Instr} {s t : State} (h : runCommands is s = .next t) (js : List Instr) :
    runCommands (is ++ js) s = runCommands js t := by
  induction is generalizing s with
  | nil => cases h; rfl
  | cons i is ih =>
    obtain ⟨u, hu⟩ := exec_answers i s
    rw [runCommands_cons_of_next hu] at h
    rw [List.cons_append, runCommands_cons_of_next hu, ih h]

/-- A command left without an error ran to completion (R262). -/
theorem done_of_finish {opc : Byte} {r : CmdResult} {t : State} (h : finish opc r = .next t) (ht : t.status.err = 0) :
    r = .done t := by
  obtain h | ⟨c, s, -, rfl⟩ := finish_cases opc r t h
  · exact h
  · exact absurd ht (errValue_ne_zero c)

/-- A loop that completes is the run of its sub-steps' commands. -/
theorem runCommands_of_forEach {f : Byte → State → CmdResult} {command : Byte → Instr}
    (hf : ∀ b s t, f b s = .done t → exec (command b) s = .next t) {bs : List Byte} {s t : State}
    (h : forEach f bs s = .done t) : runCommands (bs.map command) s = .next t := by
  induction bs generalizing s with
  | nil => cases h; rfl
  | cons b bs ih =>
    rw [forEach_cons, andThen_eq_done] at h
    obtain ⟨u, hu, hrest⟩ := h
    rw [List.map_cons, runCommands_cons_of_next (hf b s u hu), ih hrest]

/-! ## The sub-steps as commands -/

theorem exec_univStep_of_done (b : Byte) (s t : State) (h : univStepBody b s = .done t) :
    exec (.univStep b) s = .next t :=
  congrArg (finish 0x21#8) h

theorem exec_arithBegin_of_done {s t : State} (h : arithBeginBody s = .done t) : exec .arithBegin s = .next t :=
  congrArg (finish 0x31#8) h

theorem exec_arithStep_of_done (b : Byte) (s t : State) (h : arithStepBody b s = .done t) :
    exec (.arithStep b) s = .next t :=
  congrArg (finish 0x32#8) h

theorem exec_huffCount_of_done (b : Byte) (s t : State) (h : huffCountBody b s = .done t) :
    exec (.huffCount b) s = .next t :=
  congrArg (finish 0x41#8) h

theorem exec_huffBuild_of_done {s t : State} (h : huffBuildBody s = .done t) : exec .huffBuild s = .next t :=
  congrArg (finish 0x42#8) h

theorem exec_huffEmit_of_done (b : Byte) (s t : State) (h : huffEmitBody b s = .done t) :
    exec (.huffEmit b) s = .next t :=
  congrArg (finish 0x43#8) h

/-! ## The composites -/

/-- UNIV_ENCODE (R165). -/
theorem runCommands_univEncode {s t : State} (h : exec .univEncode s = .next t) (ht : t.status.err = 0) :
    runCommands (.univBegin :: (inputBytes s.input).map .univStep) s = .next t := by
  rw [runCommands_cons_of_next (exec_univBegin s)]
  exact runCommands_of_forEach exec_univStep_of_done (done_of_finish h ht)

/-- ARITH_ENCODE (R196). -/
theorem runCommands_arithEncode {s t : State} (h : exec .arithEncode s = .next t) (ht : t.status.err = 0) :
    runCommands (.arithBegin :: (inputBytes s.input).map .arithStep) s = .next t := by
  obtain ⟨u, hbegin, hsteps⟩ := (andThen_eq_done _ _ _).mp (done_of_finish h ht)
  rw [runCommands_cons_of_next (exec_arithBegin_of_done hbegin)]
  exact runCommands_of_forEach exec_arithStep_of_done hsteps

/-- HUFF_ENCODE (R234). -/
theorem runCommands_huffEncode {s t : State} (h : exec .huffEncode s = .next t) (ht : t.status.err = 0) :
    runCommands
      (.huffBegin :: (inputBytes s.input).map .huffCount ++ .huffBuild :: (inputBytes s.input).map .huffEmit) s
        = .next t := by
  obtain ⟨v, hpass1, hemits⟩ := (andThen_eq_done _ _ _).mp (done_of_finish h ht)
  obtain ⟨u, hcounts, hbuild⟩ := (andThen_eq_done _ _ _).mp hpass1
  have hbegin : runCommands (.huffBegin :: (inputBytes s.input).map .huffCount) s = .next u := by
    rw [runCommands_cons_of_next (exec_huffBegin s)]
    exact runCommands_of_forEach exec_huffCount_of_done hcounts
  rw [runCommands_append_of_next hbegin, runCommands_cons_of_next (exec_huffBuild_of_done hbuild)]
  exact runCommands_of_forEach exec_huffEmit_of_done hemits

/-- Settles O50: the three composites one by one; none of their loops meets an error. -/
theorem compositeEncodeIsItsSingleSteps : Obligations.CompositeEncodeIsItsSingleSteps := by
  unfold Obligations.CompositeEncodeIsItsSingleSteps
  exact fun s t ht => ⟨fun h => runCommands_univEncode h ht, fun h => runCommands_arithEncode h ht,
    fun h => runCommands_huffEncode h ht⟩

end Sys2Proof.Machine

/-! PROOF. The arithmetic encoder's commands (43_arithmetic.md R181, R182, R195, R196): ARITH_CONFIG, ARITH_BEGIN and ARITH_STEP
case by case, and ARITH_ENCODE as one write of every step's bits. -/

namespace Sys2Proof.Machine

/-! ## ARITH_CONFIG (R181) -/

/-- Outside an ARITH session ARITH_CONFIG takes a width it has a window for. -/
theorem exec_arithConfig_of_legal {s : State} {w : Byte} (hn : s.session ≠ .arith) (hlo : 2 ≤ w.toNat)
    (hhi : w.toNat ≤ wMax) : exec (.arithConfig w) s = .next { s with arithW := w } :=
  have hlegal : ¬ (widthOperand w < 2 ∨ wMax < widthOperand w) := by unfold widthOperand; omega
  congrArg (finish 0x30#8) ((if_neg hn).trans (if_neg hlegal))

/-- In an ARITH session it records SEQUENCE and nothing else. -/
theorem exec_arithConfig_of_arith {s : State} (hn : s.session = .arith) (w : Byte) :
    exec (.arithConfig w) s = .next (raiseError .sequence 0x30#8 s) :=
  congrArg (finish 0x30#8) (if_pos hn)

/-- Any other width leaves the encoder unconfigured and records CONFIG. -/
theorem exec_arithConfig_of_illegal {s : State} {w : Byte} (hn : s.session ≠ .arith) (hw : w.toNat < 2 ∨ wMax < w.toNat) :
    exec (.arithConfig w) s = .next (raiseError .config 0x30#8 { s with arithW := 0 }) :=
  congrArg (finish 0x30#8) ((if_neg hn).trans (if_pos hw))

/-- Settles O24: the three cases of ARITH_CONFIG. -/
theorem arithConfigEffects : Obligations.ArithConfigEffects := by
  unfold Obligations.ArithConfigEffects
  exact ⟨fun w => decodeOfEncodeIsTheCommand (.arithConfig w) rfl, fun s w =>
    ⟨exec_arithConfig_of_legal, fun hn => exec_arithConfig_of_arith hn w, exec_arithConfig_of_illegal⟩⟩

/-! ## ARITH_BEGIN (R182) -/

/-- The state of a new ARITH session. -/
def arithOpen (s : State) : State :=
  { openSession .arith sinkInit s with ari := arithStart (windowWidth s), status := degenClear s.status }

/-- With a configured width ARITH_BEGIN opens the session. -/
theorem arithBeginBody_of_configured {s : State} (hw : s.arithW ≠ 0) : arithBeginBody s = .done (arithOpen s) :=
  if_neg hw

/-- Without one it raises CONFIG. -/
theorem arithBeginBody_of_unconfigured {s : State} (hw : s.arithW = 0) : arithBeginBody s = .raised .config s :=
  if_pos hw

/-- A configured width lies between 2 and W_MAX = 64 (R34). -/
theorem windowWidth_range {s : State} (h : BaseInv s) (hw : s.arithW ≠ 0) : 2 ≤ windowWidth s ∧ windowWidth s ≤ 64 :=
  h.width.resolve_left hw

/-- HIGH starts as W ones (R182). -/
theorem arithStart_high_toNat {w : Nat} (hw : w ≤ 64) : (arithStart w).high.toNat = 2 ^ w - 1 :=
  toNat_ofNat_of_lt_width hw (Nat.sub_lt (by positivity) one_pos)

/-- Settles O25: ARITH_BEGIN opens its session on `sinkInit` and `arithStart`, or raises CONFIG. -/
theorem arithBeginEffects : Obligations.ArithBeginEffects := by
  unfold Obligations.ArithBeginEffects
  refine ⟨decodeOfEncodeIsTheCommand .arithBegin rfl, fun s h => ⟨fun hw => ?_, fun hw => ?_⟩⟩
  · exact ⟨sinkInit, arithStart (windowWidth s), congrArg (finish 0x31#8) (arithBeginBody_of_configured hw), sinkInit_len,
      sinkInit_bits, sinkInit_byteOff, sinkInit_bitOff, rfl, rfl, arithStart_high_toNat (windowWidth_range h hw).2,
      tableGet_tableAll 1#64⟩
  · exact congrArg (finish 0x31#8) (arithBeginBody_of_unconfigured hw)

/-! ## ARITH_STEP (R195) -/

/-- Outside an ARITH session ARITH_STEP records SEQUENCE and nothing else. -/
theorem exec_arithStep_of_not_arith {s : State} (hn : s.session ≠ .arith) (b : Byte) :
    exec (.arithStep b) s = .next (raiseError .sequence 0x32#8 s) :=
  congrArg (finish 0x32#8) (show arithStepBody b s = .raised .sequence s by simp [arithStepBody, hn])

/-- At SYM_MAX it records SYM_LIMIT and nothing else. -/
theorem exec_arithStep_of_exhausted {s : State} (hn : s.session = .arith) (hx : symbolsExhausted s = true) (b : Byte) :
    exec (.arithStep b) s = .next (raiseError .symLimit 0x32#8 s) :=
  congrArg (finish 0x32#8) (show arithStepBody b s = .raised .symLimit s by simp [arithStepBody, hn, hx])

section
variable {s : State} {b : Byte} (hn : s.session = .arith) (hx : symbolsExhausted s = false)
include hn hx

/-- Without room for the step's bits it records OUT_FULL and nothing else. -/
theorem exec_arithStep_of_full
    (hf : sinkFits s.params s.out (arithCompute s.params (windowWidth s) s.ari b).bits.length = false) :
    exec (.arithStep b) s = .next (raiseError .outFull 0x32#8 s) :=
  congrArg (finish 0x32#8) (show arithStepBody b s = .raised .outFull s by simp [arithStepBody, hn, hx, hf])

/-- An ARITH_STEP that meets its three checks commits. -/
theorem arithStepBody_of_fits
    (hf : sinkFits s.params s.out (arithCompute s.params (windowWidth s) s.ari b).bits.length = true) :
    arithStepBody b s = .done (arithCommit b s) := by
  simp [arithStepBody, arithCommit, hn, hx, hf]

end

theorem sinkLive_of_arith {s : State} (hn : s.session = .arith) : sinkLive s.session = true := by rw [hn]; rfl

/-- A count one higher, where the sum leaves room for it (R194). -/
theorem freqIncrement_toNat {t : Table Word64} (b v : Byte) (ht : tableSum t < 2 ^ 64 - 1) :
    (tableGet (freqIncrement t b) v).toNat = (tableGet t v).toNat + if v = b then 1 else 0 := by
  have hentry := tableGet_le_tableSum t b
  rw [freqIncrement, tableGet_tableSet]
  by_cases hv : b = v
  · subst hv
    rw [if_pos rfl, if_pos rfl, bits_succ _ (by omega)]
  · rw [if_neg hv, if_neg (Ne.symm hv), Nat.add_zero]

/-- Settles O32: the four cases of ARITH_STEP; a step whose bits fit writes them as any bit string through a ready sink. -/
theorem arithStepEffects : Obligations.ArithStepEffects := by
  unfold Obligations.ArithStepEffects
  refine ⟨fun b => decodeOfEncodeIsTheCommand (.arithStep b) rfl, fun s b h =>
    ⟨fun hn hx hroom => ?_, fun hn => ?_, fun hn hx => ?_, fun hn hx hfull => ?_⟩⟩
  · have hx := (symbolsExhausted_eq_false_iff s).mpr hx
    have hf : sinkFits s.params s.out (arithCompute s.params (windowWidth s) s.ari b).bits.length = true :=
      (sinkFits_eq_true_iff _ _ _).mpr hroom
    have hready := sinkReady_of_sinkLive h (sinkLive_of_arith hn)
    have hlt := bits_lt_of_sinkFits h.legal hf
    obtain ⟨hready', hbits, hstream⟩ := sinkWriteBits_spec _ s.out hready hlt
    obtain ⟨hw0, -, -, -, htotal⟩ := h.arith hn
    obtain ⟨hw2, hw64⟩ := windowWidth_range h hw0
    obtain ⟨hlow, hhigh⟩ := arithCompute_lt s.params (windowWidth s) s.ari b (by omega)
    have hsym := h.nsym.trans (symMax_le h.legal)
    rw [countTotal_eq] at htotal
    refine ⟨_, _, congrArg (finish 0x32#8) (arithStepBody_of_fits hn hx hf), hbits, hready'.cursor, hready'.len,
      fun j => ?_, fun a ha => ?_, toNat_ofNat_of_lt_width hw64 hlow, toNat_ofNat_of_lt_width hw64 hhigh,
      fun v => freqIncrement_toNat b v (by omega)⟩
    · rw [hbits]
      exact hstream j
    · rw [hready.cursor.1, hready'.cursor.1, hbits] at ha
      exact sinkWriteBits_read_other _ _ hready hlt a ha
  · exact exec_arithStep_of_not_arith hn b
  · exact exec_arithStep_of_exhausted hn ((symbolsExhausted_eq_true_iff s).mpr hx) b
  · exact exec_arithStep_of_full hn ((symbolsExhausted_eq_false_iff s).mpr hx) ((sinkFits_eq_false_iff _ _ _).mpr hfull)

/-! ## ARITH_ENCODE (R196) -/

/-- What the steps over some bytes write, where they leave the arithmetic state, and whether one of them was degenerate. -/
structure ArithRun where
  bits : BitString
  ari : Arith
  degenerate : Bool

/-- The steps over some bytes from `a`, each computed by `f`. -/
def arithRun (f : Arith → Byte → ArithOut) : Arith → List Byte → ArithRun
  | a, [] => ⟨[], a, false⟩
  | a, b :: bs =>
    let r := f a b
    let rest := arithRun f ⟨BitVec.ofNat 64 r.low, BitVec.ofNat 64 r.high, freqIncrement a.freq b⟩ bs
    ⟨r.bits ++ rest.bits, rest.ari, r.degenerate || rest.degenerate⟩

/-- The state after the steps of a run. -/
def arithCommitRun (r : ArithRun) (n : Nat) (s : State) : State :=
  { s with
    out := sinkWriteBits r.bits s.out
    status := degenUpdate r.degenerate s.status
    ari := r.ari
    nsym := s.nsym + BitVec.ofNat 64 n }

/-- A committed step and then a run are the run with that step first. -/
theorem arithCommitRun_arithCommit (b : Byte) (bs : List Byte) (s : State) :
    arithCommitRun (arithRun (arithCompute s.params (windowWidth s)) (arithCommit b s).ari bs) bs.length (arithCommit b s) =
      arithCommitRun (arithRun (arithCompute s.params (windowWidth s)) s.ari (b :: bs)) (b :: bs).length s := by
  have hcount : s.nsym + 1 + BitVec.ofNat 64 bs.length = s.nsym + BitVec.ofNat 64 (bs.length + 1) := by
    rw [Nat.add_comm, BitVec.ofNat_add, BitVec.add_assoc]
    rfl
  simp only [arithCommitRun, arithRun, arithCommit, sinkWriteBits_append, degenUpdate, Bool.or_assoc, List.length_cons,
    hcount]

/-- An ARITH session with room for some bytes to come: symbols left to count and W bits left to write for each. -/
structure ArithRoom (bs : List Byte) (s : State) : Prop where
  base : BaseInv s
  session : s.session = .arith
  symbols : s.nsym.toNat + bs.length ≤ symMax s.params
  bits : (s.out.bits.toNat + windowWidth s * bs.length) / 8 + 1 ≤ outCap s.params

/-- One ARITH_STEP, which writes at most W bits (R192), uses up the first byte's room. -/
theorem arithStepBody_of_room {b : Byte} {bs : List Byte} {s : State} (h : ArithRoom (b :: bs) s) :
    arithStepBody b s = .done (arithCommit b s) ∧ ArithRoom bs (arithCommit b s) := by
  obtain ⟨hbase, hn, hsymbols, hroom⟩ := h
  rw [List.length_cons] at hsymbols
  rw [List.length_cons, Nat.mul_succ] at hroom
  have hlength : (arithCompute s.params (windowWidth s) s.ari b).bits.length ≤ windowWidth s :=
    renormalise_length_le _ _ _ _
  have hx : symbolsExhausted s = false := (symbolsExhausted_eq_false_iff s).mpr (by omega)
  have hf := (sinkFits_eq_true_iff s.params s.out (arithCompute s.params (windowWidth s) s.ari b).bits.length).mpr
    (by omega)
  have hstep := arithStepBody_of_fits hn hx hf
  have hbase' := baseInv_arithStepBody b hbase
  rw [hstep] at hbase'
  obtain ⟨-, hbits, -⟩ := sinkWriteBits_spec _ s.out (sinkReady_of_sinkLive hbase (sinkLive_of_arith hn))
    (bits_lt_of_sinkFits hbase.legal hf)
  obtain ⟨hsucc, -⟩ := nsym_succ hbase hx
  refine ⟨hstep, hbase', hn, ?_, ?_⟩
  · show (s.nsym + 1).toNat + bs.length ≤ symMax s.params
    omega
  · show ((sinkWriteBits _ s.out).bits.toNat + windowWidth s * bs.length) / 8 + 1 ≤ outCap s.params
    omega

/-- The loop of ARITH_STEPs over bytes with room commits their run. -/
theorem forEach_arithStepBody {bs : List Byte} {s : State} (h : ArithRoom bs s) :
    forEach arithStepBody bs s =
      .done (arithCommitRun (arithRun (arithCompute s.params (windowWidth s)) s.ari bs) bs.length s) := by
  induction bs generalizing s with
  | nil => simp [arithCommitRun, arithRun, degenUpdate]
  | cons b bs ih =>
    obtain ⟨hstep, hroom⟩ := arithStepBody_of_room h
    rw [forEach_cons, hstep, andThen_done, ih hroom, ← arithCommitRun_arithCommit]
    rfl

/-- A new ARITH session has room for every byte of IN: OUT_CAP is 8 bytes for each and one more, W at most 64 (R200). -/
theorem arithRoom_arithOpen {s : State} (h : BaseInv s) (hw : s.arithW ≠ 0) :
    ArithRoom (inputBytes s.input) (arithOpen s) := by
  obtain ⟨-, hcap⟩ := h.input
  obtain ⟨-, hw64⟩ := windowWidth_range h hw
  have hbase := baseInv_arithBeginBody h
  rw [arithBeginBody_of_configured hw] at hbase
  have hbits : windowWidth s * s.input.len.toNat ≤ 64 * s.params.inCap := Nat.mul_le_mul hw64 hcap
  refine ⟨hbase, rfl, ?_, ?_⟩
  · show 0 + (inputBytes s.input).length ≤ symMax s.params
    rw [inputBytes_length, symMax]
    omega
  · show (0 + windowWidth s * (inputBytes s.input).length) / 8 + 1 ≤ outCap s.params
    rw [inputBytes_length, outCap]
    omega

/-- The run of ARITH_ENCODE over IN (R196). -/
def arithEncodeRun (s : State) : ArithRun :=
  arithRun (arithCompute s.params (windowWidth s)) (arithStart (windowWidth s)) (inputBytes s.input)

/-- With a configured width ARITH_ENCODE writes the run's bits into a fresh sink and counts IN_LEN symbols (R196). -/
theorem exec_arithEncode {s : State} (h : BaseInv s) (hw : s.arithW ≠ 0) :
    exec .arithEncode s = .next { s with
      out := sinkWriteBits (arithEncodeRun s).bits sinkInit, ari := (arithEncodeRun s).ari, nsym := s.input.len,
      session := .arith, status := { s.status with degen := (arithEncodeRun s).degenerate } } := by
  have hcount : (0 : Word64) + BitVec.ofNat 64 (inputBytes s.input).length = s.input.len := by
    rw [inputBytes_length, BitVec.ofNat_toNat, BitVec.setWidth_eq]
    exact BitVec.zero_add _
  have hbody : arithEncodeBody s = .done (arithCommitRun (arithEncodeRun s) (inputBytes s.input).length (arithOpen s)) := by
    rw [arithEncodeBody, arithBeginBody_of_configured hw, andThen_done, forEach_arithStepBody (arithRoom_arithOpen h hw)]
    rfl
  rw [← hcount]
  exact congrArg (finish 0x33#8) hbody

/-- Without a configured width ARITH_ENCODE raises ARITH_BEGIN's CONFIG (R196). -/
theorem arithEncodeBody_of_unconfigured {s : State} (hw : s.arithW = 0) : arithEncodeBody s = .raised .config s := by
  rw [arithEncodeBody, arithBeginBody_of_unconfigured hw, andThen_raised]

/-- Every step counts its byte (R194). -/
theorem arithRun_freq (f : Arith → Byte → ArithOut) (a : Arith) (bs : List Byte) (v : Byte) :
    tableGet (arithRun f a bs).ari.freq v = tableGet a.freq v + BitVec.ofNat 64 (bs.count v) := by
  induction bs generalizing a with
  | nil => simp [arithRun]
  | cons b bs ih =>
    rw [arithRun, ih, freqIncrement, tableGet_tableSet, List.count_cons, BitVec.ofNat_add]
    by_cases hv : b = v
    · subst hv
      rw [if_pos rfl, if_pos (beq_self_eq_true b), BitVec.add_assoc, BitVec.add_comm 1]
      rfl
    · simp [hv]

/-- Steps of at most w bits each write at most w bits a byte. -/
theorem arithRun_bits_length_le {f : Arith → Byte → ArithOut} {w : Nat} (hf : ∀ a b, (f a b).bits.length ≤ w)
    (a : Arith) (bs : List Byte) : (arithRun f a bs).bits.length ≤ w * bs.length := by
  induction bs generalizing a with
  | nil => simp [arithRun]
  | cons b bs ih =>
    rw [arithRun, List.length_append, List.length_cons, Nat.mul_succ, Nat.add_comm]
    exact Nat.add_le_add (ih _) (hf a b)

/-- The run of ARITH_ENCODE writes at most W bits a byte (R192, R200). -/
theorem arithEncodeRun_bits_length_le (s : State) :
    (arithEncodeRun s).bits.length ≤ windowWidth s * (inputBytes s.input).length :=
  arithRun_bits_length_le (fun _ _ => renormalise_length_le _ _ _ _) _ _

/-- Its bits fit a fresh sink (R200). -/
theorem sinkFits_arithEncodeRun {s : State} (h : BaseInv s) (hw : s.arithW ≠ 0) :
    sinkFits s.params sinkInit (arithEncodeRun s).bits.length = true := by
  have hlength := Nat.add_le_add_left (arithEncodeRun_bits_length_le s) sinkInit.bits.toNat
  exact (sinkFits_eq_true_iff _ _ _).mpr
    ((Nat.add_le_add_right (Nat.div_le_div_right hlength) 1).trans (arithRoom_arithOpen h hw).bits)

/-- FREQ after ARITH_ENCODE is 1 and the number of occurrences, which IN's length bounds (R200). -/
theorem arithEncodeRun_freq {s : State} (h : BaseInv s) (v : Byte) :
    (tableGet (arithEncodeRun s).ari.freq v).toNat = 1 + (inputBytes s.input).count v := by
  have hcount := (inputBytes s.input).count_le_length (a := v)
  obtain ⟨-, hcap⟩ := h.legal
  obtain ⟨-, hlen⟩ := h.input
  rw [inputBytes_length] at hcount
  rw [arithEncodeRun, arithRun_freq, arithStart, tableGet_tableAll, ← BitVec.ofNat_add,
    BitVec.toNat_ofNat, Nat.mod_eq_of_lt (by omega)]

/-- Settles O33: ARITH_ENCODE commits its run; the length and the sum of FREQ are the invariant's, which every command keeps. -/
theorem arithEncodeEffects : Obligations.ArithEncodeEffects := by
  unfold Obligations.ArithEncodeEffects
  refine fun s h => ⟨fun hw => ?_, fun hw => ?_⟩
  · have ht := exec_arithEncode h hw
    have hbase := exec_keeps _ partsKeep_baseInv _ _ _ h ht
    obtain ⟨-, -, -, -, htotal⟩ := hbase.arith rfl
    obtain ⟨-, hbits, -⟩ := sinkWriteBits_spec (arithEncodeRun s).bits sinkInit sinkReady_init
      (bits_lt_of_sinkFits h.legal (sinkFits_arithEncodeRun h hw))
    have hlength := arithEncodeRun_bits_length_le s
    rw [inputBytes_length] at hlength
    refine ⟨_, ht, rfl, (sinkReady_of_sinkLive hbase rfl).len, ?_, arithEncodeRun_freq h, htotal⟩
    exact hbits.trans_le ((Nat.zero_add _).trans_le hlength)
  · exact congrArg (finish 0x33#8) (arithEncodeBody_of_unconfigured hw)

/-- A step computes with SCALE_MODE and SCAN_FLOOR alone of the parameters (R201). -/
theorem arithCompute_congr {p p' : Params} (hm : p'.scaleMode = p.scaleMode) (hf : p'.scanFloor = p.scanFloor) (w : Nat) :
    arithCompute p' w = arithCompute p w := by
  funext a b
  simp only [arithCompute, hm, hf]

/-- The run of ARITH_ENCODE depends only on IN, W, SCALE_MODE and SCAN_FLOOR (R201). -/
theorem arithEncodeRun_congr {s s' : State} (hw : s'.arithW = s.arithW) (hm : s'.params.scaleMode = s.params.scaleMode)
    (hf : s'.params.scanFloor = s.params.scanFloor) (hin : inputBytes s'.input = inputBytes s.input) :
    arithEncodeRun s' = arithEncodeRun s := by
  rw [arithEncodeRun, arithEncodeRun, arithCompute_congr hm hf, hin, windowWidth, windowWidth, hw]

/-- Settles O34: both states commit the same run into a fresh sink. -/
theorem arithEncodeDependsOnlyOnInputAndWidth : Obligations.ArithEncodeDependsOnlyOnInputAndWidth := by
  unfold Obligations.ArithEncodeDependsOnlyOnInputAndWidth
  intro s s' t t' h h' hw0 hw hm hf hin ht ht'
  have hrun := arithEncodeRun_congr hw hm hf hin
  rw [exec_arithEncode h hw0] at ht
  rw [exec_arithEncode h' (by rwa [hw]), hrun] at ht'
  cases ht
  cases ht'
  exact ⟨rfl, rfl⟩

/-- The run of vector A7: the bytes 0x00, 0x01 at W = 32 with FLOAT64 scaling and SCAN_FLOOR 0 (R199). -/
def vectorA7 : ArithRun := arithRun (arithCompute resetParams 32) (arithStart 32) [0x00#8, 0x01#8]

theorem vectorA7_ends : vectorA7.ari.low = 0xFF00FF00#64 ∧ vectorA7.ari.high = 0x7E817E7F#64 ∧
    vectorA7.degenerate = false := by decide +kernel

/-- Settles O41: the run of every such state is vector A7's. -/
theorem lowCanExceedHigh : Obligations.LowCanExceedHigh := by
  unfold Obligations.LowCanExceedHigh
  intro s h hw hm hf hin
  have hrun : arithEncodeRun s = vectorA7 := by
    rw [arithEncodeRun, hin, windowWidth, hw, arithCompute_congr (p := resetParams) hm hf]
    rfl
  have hends := vectorA7_ends
  rw [← hrun] at hends
  exact ⟨_, exec_arithEncode h (by rw [hw]; decide), hends⟩

end Sys2Proof.Machine

/-! PROOF. Renormalisation and secondary shift (43_arithmetic.md R190 to R193, R198): the loop ends within W turns, and on W-bit
registers it does what the source does on unbounded integers. -/

namespace Sys2Proof.Machine

/-! ## The end of the loop (R192) -/

/-- After `k` turns: lo and hi within W bits, lo ends in k zeros and hi in k ones. -/
structure AfterTurns (w k lo hi : Nat) : Prop where
  lo_lt : lo < 2 ^ w
  hi_lt : hi < 2 ^ w
  lo_mod : lo % 2 ^ k = 0
  hi_mod : hi % 2 ^ k = 2 ^ k - 1

theorem shiftLow_eq (w lo : Nat) : shiftLow w lo = 2 * lo % 2 ^ w := by
  rw [shiftLow, Nat.shiftLeft_eq, pow_one, Nat.mul_comm]

theorem shiftHigh_eq (w hi : Nat) : shiftHigh w hi = (2 * hi + 1) % 2 ^ w := by
  rw [shiftHigh, Nat.shiftLeft_add_eq_or_of_lt (by decide) hi |>.symm, Nat.shiftLeft_eq, pow_one, Nat.mul_comm]

/-- One more turn, as long as the window has bits left. -/
theorem AfterTurns.shift {w k lo hi : Nat} (h : AfterTurns w k lo hi) (hk : k < w) :
    AfterTurns w (k + 1) (shiftLow w lo) (shiftHigh w hi) := by
  obtain ⟨-, -, hlo, hhi⟩ := h
  have hdvd : 2 ^ (k + 1) ∣ 2 ^ w := pow_dvd_pow 2 hk
  have hpos : 0 < 2 ^ k := by positivity
  have hlo2 : 2 * lo % 2 ^ (k + 1) = 0 := by rw [pow_succ', Nat.mul_mod_mul_left, hlo]
  have hhi2 : (2 * hi + 1) % 2 ^ (k + 1) = 2 ^ (k + 1) - 1 := by
    have hdiv := Nat.div_add_mod hi (2 ^ k)
    have heq : 2 * hi + 1 = 2 ^ (k + 1) * (hi / 2 ^ k) + (2 ^ (k + 1) - 1) := by
      rw [pow_succ', Nat.mul_assoc]
      omega
    rw [heq, Nat.mul_add_mod, Nat.mod_eq_of_lt (by omega)]
  refine ⟨shiftLow_lt _ _, shiftHigh_lt _ _, ?_, ?_⟩
  · rw [shiftLow_eq, Nat.mod_mod_of_dvd _ hdvd, hlo2]
  · rw [shiftHigh_eq, Nat.mod_mod_of_dvd _ hdvd, hhi2]

/-- After W turns lo is all zeros and hi all ones, so their top bits differ (R192). -/
theorem AfterTurns.top_bits_ne {w lo hi : Nat} (h : AfterTurns w w lo hi) (hw : 1 ≤ w) :
    lo.testBit (w - 1) ≠ hi.testBit (w - 1) := by
  obtain ⟨hlo_lt, hhi_lt, hlo, hhi⟩ := h
  rw [Nat.mod_eq_of_lt hlo_lt] at hlo
  rw [Nat.mod_eq_of_lt hhi_lt] at hhi
  subst hlo hhi
  have hlt : w - 1 < w := by omega
  simp [Nat.testBit_two_pow_sub_one, hlt]

/-- The loop, begun after `k` turns with fuel for the rest of the window, ends with different top bits, and each turn it takes
adds a zero to lo and a one to hi (R191, R192). -/
theorem renormalise_ends {w n k lo hi : Nat} (hw : 1 ≤ w) (hn : k + n = w) (h : AfterTurns w k lo hi) :
    (renormalise w n lo hi).2.1.testBit (w - 1) ≠ (renormalise w n lo hi).2.2.testBit (w - 1) ∧
    AfterTurns w (k + (renormalise w n lo hi).1.length) (renormalise w n lo hi).2.1 (renormalise w n lo hi).2.2 := by
  induction n generalizing k lo hi with
  | zero =>
    obtain rfl : k = w := hn
    exact ⟨h.top_bits_ne hw, h⟩
  | succ n ih =>
    rw [renormalise]
    split
    · have hrest := ih (by omega) (h.shift (by omega))
      rwa [Nat.add_assoc, Nat.add_comm 1] at hrest
    · next htop => exact ⟨htop, h⟩

/-- Settles O35: the loop begun with a whole window of turns. -/
theorem renormalisationEndsWithinTheWidth : Obligations.RenormalisationEndsWithinTheWidth := by
  unfold Obligations.RenormalisationEndsWithinTheWidth
  intro w lo hi hw hlo hhi
  obtain ⟨htop, hlo_lt, hhi_lt, hlo_mod, hhi_mod⟩ :=
    renormalise_ends hw (Nat.zero_add w) ⟨hlo, hhi, Nat.mod_one lo, Nat.mod_one hi⟩
  rw [Nat.zero_add] at hlo_mod hhi_mod
  exact ⟨renormalise_length_le w w lo hi, hlo_lt, hhi_lt, htop, hlo_mod, hhi_mod⟩

/-! ## The source's unbounded integers (R190, R198) -/

theorem reduceMod_cast (w : Nat) (v : Int) : (reduceMod w v : Int) = v % 2 ^ w :=
  Int.toNat_of_nonneg (Int.emod_nonneg v (by positivity))

/-- Integers that agree modulo 2^W have the same low W bits. -/
theorem reduceMod_congr {w : Nat} {u v : Int} (h : u ≡ v [ZMOD 2 ^ w]) : reduceMod w u = reduceMod w v :=
  congrArg Int.toNat h

/-- A natural number reduces as it does among the naturals. -/
theorem reduceMod_natCast (w n : Nat) : reduceMod w (n : Int) = n % 2 ^ w := by
  zify
  exact reduceMod_cast w n

/-- Reducing before a multiplication and an addition, or after them, is the same. -/
theorem reduceMod_mul_add (w : Nat) (v m c : Int) : reduceMod w (reduceMod w v * m + c) = reduceMod w (v * m + c) := by
  rw [reduceMod_cast]
  exact reduceMod_congr (((Int.mod_modEq v _).mul_right m).add_right c)

theorem shiftLow_reduceMod (w : Nat) (v : Int) : shiftLow w (reduceMod w v) = reduceMod w (2 * v) := by
  have h := reduceMod_mul_add w v 2 0
  rw [shiftLow_eq, ← reduceMod_natCast]
  push_cast
  simpa [Int.mul_comm] using h

theorem shiftHigh_reduceMod (w : Nat) (v : Int) : shiftHigh w (reduceMod w v) = reduceMod w (2 * v + 1) := by
  have h := reduceMod_mul_add w v 2 1
  rw [shiftHigh_eq, ← reduceMod_natCast]
  push_cast
  simpa [Int.mul_comm] using h

/-- Below W the reduced number has the integer's bits (R9). -/
theorem testBit_reduceMod {w j : Nat} (hj : j < w) (v : Int) : (reduceMod w v).testBit j = intBit v j := by
  have hsplit : v = reduceMod w v + v / 2 ^ w * 2 ^ (w - j - 1) * 2 * 2 ^ j := by
    have hpow : (2 : Int) ^ w = 2 ^ (w - j - 1) * 2 * 2 ^ j := by
      rw [← pow_succ, ← pow_add]
      congr 1
      omega
    rw [reduceMod_cast, mul_assoc, mul_assoc, ← mul_assoc (2 ^ (w - j - 1)), ← hpow]
    exact (Int.emod_add_ediv_mul v _).symm
  have hbit : v / 2 ^ j % 2 = ((reduceMod w v / 2 ^ j % 2 : Nat) : Int) := by
    conv_lhs => rw [hsplit, Int.add_mul_ediv_right _ _ (by positivity), Int.add_mul_emod_self_right]
    push_cast
    rfl
  rw [intBit, Int.fdiv_eq_ediv_of_nonneg _ (by positivity), Nat.testBit_eq_decide_div_mod_eq]
  show _ = (v / 2 ^ j % 2 == 1)
  rw [hbit, Bool.eq_iff_iff, decide_eq_true_iff, beq_iff_eq]
  exact Nat.cast_inj.symm

/-- The loop on the reduced integers is the source's loop, reduced (R190, R191, R198). -/
theorem renormalise_reduceMod {w : Nat} (hw : 1 ≤ w) (fuel : Nat) (lo hi : Int) :
    renormalise w fuel (reduceMod w lo) (reduceMod w hi) =
      ((sourceRenormalise w fuel lo hi).1, reduceMod w (sourceRenormalise w fuel lo hi).2.1,
        reduceMod w (sourceRenormalise w fuel lo hi).2.2) := by
  induction fuel generalizing lo hi with
  | zero => rfl
  | succ n ih =>
    have htop (v : Int) : (reduceMod w v).testBit (w - 1) = intBit v (w - 1) := testBit_reduceMod (by omega) v
    rw [renormalise, sourceRenormalise, htop, htop, shiftLow_reduceMod, shiftHigh_reduceMod, ih]
    split <;> rfl

/-- The scan looks at bits below W only (R193). -/
theorem scanCount_reduceMod (floor w : Nat) (lo hi : Int) {n : Nat} (hn : n ≤ w) :
    scanCount floor (reduceMod w lo) (reduceMod w hi) n = sourceScan floor lo hi n := by
  induction n with
  | zero => rfl
  | succ j ih => rw [scanCount, sourceScan, testBit_reduceMod hn, testBit_reduceMod hn, ih (by omega)]

/-- A shift of the reduced integer, reduced again (R193). -/
theorem shiftLeft_reduceMod (w k : Nat) (v : Int) : (reduceMod w v <<< k) % 2 ^ w = reduceMod w (v * 2 ^ k) := by
  have h := reduceMod_mul_add w v (2 ^ k) 0
  rw [Nat.shiftLeft_eq, ← reduceMod_natCast]
  push_cast
  simpa using h

/-- The secondary shift of the reduced integers is the source's (R193, decision D16). -/
theorem secondaryShift_reduceMod (floor w : Nat) (lo hi : Int) :
    secondaryShift floor w (reduceMod w lo) (reduceMod w hi) = sourceShift floor w lo hi := by
  simp only [secondaryShift, sourceShift, scanCount_reduceMod floor w lo hi (Nat.sub_le w 1), shiftLeft_reduceMod]

/-- Settles O36: the loop and the shift on reduced integers, one after the other. -/
theorem reductionIsFaithfulToTheSource : Obligations.ReductionIsFaithfulToTheSource := by
  unfold Obligations.ReductionIsFaithfulToTheSource
  intro w floor nl nh hw
  simp only [renormalise_reduceMod hw, secondaryShift_reduceMod, and_self]

end Sys2Proof.Machine

/-! PROOF. Binary64 rounding (43_arithmetic.md R186): each operation gives the value nearest to its exact result, ties to even,
and such values are ordered as the exact results are. -/

namespace Sys2Proof.Machine

/-! ## Rounding a rational to an integer, ties to even -/

/-- n is an integer nearest to q, and even where another is as near. -/
def NearestInt (q : ℚ) (n : Int) : Prop := 2 * |(n : ℚ) - q| ≤ 1 ∧ (2 * |(n : ℚ) - q| = 1 → 2 ∣ n)

theorem NearestInt.neg {q : ℚ} {n : Int} (h : NearestInt q n) : NearestInt (-q) (-n) := by
  have heq : |((-n : Int) : ℚ) - -q| = |(n : ℚ) - q| := by
    rw [Int.cast_neg, neg_sub_neg, abs_sub_comm]
  rw [NearestInt, heq]
  exact ⟨h.1, fun ht => (h.2 ht).neg_right⟩

/-- An integer is the nearest one to itself alone. -/
theorem NearestInt.eq_of_int {m n : Int} (h : NearestInt (m : ℚ) n) : n = m := by
  have hle : 2 * |n - m| ≤ 1 := by exact_mod_cast h.1
  obtain ⟨hlo, hhi⟩ := abs_le.mp (show |n - m| ≤ 0 by omega)
  omega

/-- Rounding keeps the order: two neighbours both nearest to one number lie at half a unit from it, and one of them is odd. -/
theorem NearestInt.mono {p q : ℚ} {m n : Int} (hm : NearestInt p m) (hn : NearestInt q n) (hpq : p ≤ q) : m ≤ n := by
  by_contra hlt
  obtain ⟨hmle, hmtie⟩ := hm
  obtain ⟨hnle, hntie⟩ := hn
  have hgap : (n : ℚ) + 1 ≤ m := by exact_mod_cast not_le.mp hlt
  have hmp := le_abs_self ((m : ℚ) - p)
  have hnq := neg_abs_le ((n : ℚ) - q)
  have hmn : m = n + 1 := by
    have hle : (m : ℚ) ≤ n + 1 := by linarith
    exact le_antisymm (by exact_mod_cast hle) (not_le.mp hlt)
  have hm2 := hmtie (by linarith)
  have hn2 := hntie (by linarith)
  omega

/-- The nearest integer to a quotient, said without a division. -/
theorem nearestInt_div_iff {a n : Int} {d : Nat} (hd : 0 < d) :
    NearestInt ((a : ℚ) / d) n ↔ |2 * (n * d - a)| ≤ d ∧ (|2 * (n * d - a)| = d → 2 ∣ n) := by
  have hd' : (0 : ℚ) < d := by exact_mod_cast hd
  have heq : 2 * |(n : ℚ) - a / d| = (|2 * (n * d - a)| : Int) / d := by
    rw [sub_div' hd'.ne', abs_div, abs_of_pos hd']
    push_cast
    rw [abs_mul, abs_two, mul_div_assoc]
  rw [NearestInt, heq, div_le_one hd', div_eq_one_iff_eq hd'.ne']
  norm_cast

/-- The model's division rounds to the nearest integer (R186). -/
theorem nearestInt_roundTiesEven (num : Nat) {den : Nat} (hden : 0 < den) :
    NearestInt ((num : ℚ) / den) (roundTiesEven num den) := by
  have hmod := Nat.mod_lt num hden
  have hsplit := Nat.div_add_mod' num den
  rw [← Int.cast_natCast num, nearestInt_div_iff hden, abs_le, abs_eq (by omega)]
  zify at hsplit hmod
  simp only [roundTiesEven]
  split
  · push_cast
    rw [add_mul]
    omega
  · push_cast
    omega

/-! ## The unit in the last place (R186) -/

/-- An integer power of 2 as the model writes it, one of the two exponents 0. -/
theorem two_zpow_eq (e : Int) : (2 : ℚ) ^ e = 2 ^ e.toNat / 2 ^ (-e).toNat := by
  rw [← zpow_natCast, ← zpow_natCast, ← zpow_sub₀ two_ne_zero]
  congr 1
  omega

theorem two_zpow_pos (e : Int) : (0 : ℚ) < 2 ^ e := by positivity

/-- A positive number lies in the binade of its logarithm. -/
theorem log2_bounds {n : Nat} (hn : 0 < n) : (2 : ℚ) ^ (n.log2 : Int) ≤ n ∧ (n : ℚ) < 2 ^ ((n.log2 : Int) + 1) := by
  have hlo := Nat.log2_self_le hn.ne'
  have hhi := Nat.lt_log2_self (n := n)
  exact ⟨by exact_mod_cast hlo, by exact_mod_cast hhi⟩

/-- `quotLog2` is the quotient's binade. -/
theorem quotLog2_eq_log {num den : Nat} (hnum : 0 < num) (hden : 0 < den) :
    quotLog2 num den = Int.log 2 ((num : ℚ) / den) := by
  have hn : (0 : ℚ) < num := by exact_mod_cast hnum
  have hd : (0 : ℚ) < den := by exact_mod_cast hden
  have hq := div_pos hn hd
  obtain ⟨hnlo, hnhi⟩ := log2_bounds hnum
  obtain ⟨hdlo, hdhi⟩ := log2_bounds hden
  have hlower : (num.log2 : Int) - den.log2 - 1 ≤ Int.log 2 ((num : ℚ) / den) := by
    refine (Int.zpow_le_iff_le_log one_lt_two hq).mp ?_
    rw [Nat.cast_two, sub_sub, zpow_sub₀ two_ne_zero]
    exact div_le_div₀ hn.le hnlo hd hdhi.le
  have hupper : Int.log 2 ((num : ℚ) / den) < (num.log2 : Int) - den.log2 + 1 := by
    refine (Int.lt_zpow_iff_log_lt one_lt_two hq).mp ?_
    rw [Nat.cast_two, sub_add_eq_add_sub, zpow_sub₀ two_ne_zero]
    exact div_lt_div₀ hnhi hdlo (by positivity) (by positivity)
  have htest : den * 2 ^ ((num.log2 : Int) - den.log2).toNat ≤ num * 2 ^ (-((num.log2 : Int) - den.log2)).toNat ↔
      (num.log2 : Int) - den.log2 ≤ Int.log 2 ((num : ℚ) / den) := by
    rw [← Int.zpow_le_iff_le_log one_lt_two hq, Nat.cast_two, two_zpow_eq, div_le_div_iff₀ (by positivity) hd, mul_comm]
    exact_mod_cast Iff.rfl
  simp only [quotLog2, htest]
  split <;> omega

/-- The exponent of the last place of a value nearest to q > 0: 53 significant bits, no exponent below the subnormal −1074. -/
def unitExp (q : ℚ) : Int := max (Int.log 2 q - 52) (-1074)

theorem unitExp_mono {p q : ℚ} (hp : 0 < p) (hpq : p ≤ q) : unitExp p ≤ unitExp q :=
  max_le_max (sub_le_sub_right (Int.log_mono_right hp hpq) _) le_rfl

/-- Above the subnormals the significand takes 53 bits. -/
theorem unitExp_le {q : ℚ} (hq : 0 < q) (he : -1074 < unitExp q) : 2 ^ (52 : ℕ) * (2 : ℚ) ^ unitExp q ≤ q := by
  have hexp : Int.log 2 q = 52 + unitExp q := by unfold unitExp at he ⊢; omega
  have hle := Int.zpow_log_le_self one_lt_two hq
  rwa [hexp, Nat.cast_two, zpow_add₀ two_ne_zero] at hle

/-- The significand takes at most 53 bits. -/
theorem lt_unitExp (q : ℚ) : q < 2 ^ (53 : ℕ) * (2 : ℚ) ^ unitExp q := by
  have hlt := Int.lt_zpow_succ_log_self (b := 2) one_lt_two q
  rw [Nat.cast_two] at hlt
  refine hlt.trans_le ?_
  rw [← zpow_natCast, ← zpow_add₀ two_ne_zero]
  exact zpow_le_zpow_right₀ one_le_two (by unfold unitExp; omega)

/-! ## The nearest binary64 value (R186) -/

/-- x is the binary64 value nearest to q. -/
def IsNearest (q : ℚ) (x : Binary64) : Prop :=
  if q = 0 then x = ⟨0, 0⟩ else x.exp = unitExp |q| ∧ NearestInt (q / 2 ^ x.exp) x.mant

theorem IsNearest.exp_eq {q : ℚ} {x : Binary64} (h : IsNearest q x) (hq : q ≠ 0) : x.exp = unitExp |q| := by
  rw [IsNearest, if_neg hq] at h
  exact h.1

theorem IsNearest.mant {q : ℚ} {x : Binary64} (h : IsNearest q x) (hq : q ≠ 0) : NearestInt (q / 2 ^ x.exp) x.mant := by
  rw [IsNearest, if_neg hq] at h
  exact h.2

theorem IsNearest.eq_zero {x : Binary64} (h : IsNearest 0 x) : x = ⟨0, 0⟩ := by rwa [IsNearest, if_pos rfl] at h

/-- `nearest` of a quotient's magnitude and its sign. -/
theorem isNearest_nearest (neg : Bool) (num : Nat) {den : Nat} (hden : 0 < den) :
    IsNearest ((if neg then -1 else 1) * ((num : ℚ) / den)) (nearest neg num den) := by
  by_cases hnum : num = 0
  · subst hnum
    simp [IsNearest, nearest]
  · have hpos : 0 < num := Nat.pos_of_ne_zero hnum
    have hn : (0 : ℚ) < num := by exact_mod_cast hpos
    have hd : (0 : ℚ) < den := by exact_mod_cast hden
    have hq := div_pos hn hd
    have hexp : max (quotLog2 num den - 52) (-1074) = unitExp ((num : ℚ) / den) := by
      rw [quotLog2_eq_log hpos hden, unitExp]
    have hmant := nearestInt_roundTiesEven (num * 2 ^ (-unitExp ((num : ℚ) / den)).toNat)
      (den := den * 2 ^ (unitExp ((num : ℚ) / den)).toNat) (by positivity)
    have hscale : ((num * 2 ^ (-unitExp ((num : ℚ) / den)).toNat : ℕ) : ℚ) /
        (den * 2 ^ (unitExp ((num : ℚ) / den)).toNat : ℕ) = (num : ℚ) / den / 2 ^ unitExp ((num : ℚ) / den) := by
      rw [two_zpow_eq]
      push_cast
      field_simp
    rw [hscale] at hmant
    cases neg with
    | false =>
      simp only [Bool.false_eq_true, if_false, one_mul, nearest, hnum, hexp, IsNearest, hq.ne', abs_of_pos hq, true_and]
      exact hmant
    | true =>
      simp only [if_true, neg_one_mul, nearest, if_neg hnum, hexp, IsNearest, neg_eq_zero, hq.ne', abs_neg, abs_of_pos hq,
        true_and, neg_div, if_false]
      exact hmant.neg

theorem IsNearest.neg {q : ℚ} {x : Binary64} (h : IsNearest q x) : IsNearest (-q) ⟨-x.mant, x.exp⟩ := by
  by_cases hq : q = 0
  · subst hq
    rw [h.eq_zero, IsNearest, if_pos neg_zero]
    rfl
  · rw [IsNearest, if_neg (neg_ne_zero.mpr hq), abs_neg, neg_div]
    exact ⟨h.exp_eq hq, (h.mant hq).neg⟩

theorem binaryValue_neg (x : Binary64) : binaryValue ⟨-x.mant, x.exp⟩ = -binaryValue x := by
  simp [binaryValue]

theorem binaryValue_zero : binaryValue ⟨0, 0⟩ = 0 := by simp [binaryValue]

/-- A value in range is the one the rounding rule asks for (R186). -/
theorem IsNearest.roundsTo {q : ℚ} {x : Binary64} (h : IsNearest q x) (hq : q ≠ 0) (hmin : 1 ≤ |q| * 2 ^ 1000) :
    RoundsTo q x := by
  have hpos := abs_pos.mpr hq
  have hlog : (-1000 : Int) ≤ Int.log 2 |q| := by
    refine (Int.zpow_le_iff_le_log one_lt_two hpos).mp ?_
    rw [Nat.cast_two, zpow_neg, zpow_ofNat]
    exact (inv_le_iff_one_le_mul₀ (by positivity)).mpr hmin
  have hexp := h.exp_eq hq
  obtain ⟨hle, htie⟩ := h.mant hq
  have hp := two_zpow_pos x.exp
  have hscale : 2 * |binaryValue x - q| = 2 * |(x.mant : ℚ) - q / 2 ^ x.exp| * 2 ^ x.exp := by
    rw [mul_assoc, ← abs_of_pos hp, ← abs_mul, abs_of_pos hp, sub_mul, div_mul_cancel₀ _ hp.ne', binaryValue]
  refine ⟨?_, ?_, ?_, fun heq => htie ?_⟩
  · rw [hexp]
    exact unitExp_le hpos (by unfold unitExp; omega)
  · rw [hexp]
    exact lt_unitExp _
  · rw [hscale]
    exact mul_le_of_le_one_left hp.le hle
  · rw [hscale] at heq
    exact (mul_eq_right₀ hp.ne').mp heq

/-! ## Order -/

theorem nearestInt_self (n : Int) : NearestInt n n := by simp [NearestInt]

theorem IsNearest.value_nonneg {q : ℚ} {x : Binary64} (h : IsNearest q x) (hq : 0 ≤ q) : 0 ≤ binaryValue x := by
  obtain rfl | hpos := hq.eq_or_lt
  · rw [h.eq_zero, binaryValue_zero]
  · have hp := two_zpow_pos x.exp
    have hmant : 0 ≤ x.mant := (nearestInt_self 0).mono (h.mant hpos.ne') (by simp; positivity)
    exact mul_nonneg (by exact_mod_cast hmant) hp.le

theorem IsNearest.value_nonpos {q : ℚ} {x : Binary64} (h : IsNearest q x) (hq : q ≤ 0) : binaryValue x ≤ 0 := by
  have hneg := h.neg.value_nonneg (neg_nonneg.mpr hq)
  rwa [binaryValue_neg, neg_nonneg] at hneg

/-- A larger number in the same binade has a larger significand; one in a higher binade is at least that binade's least value. -/
theorem IsNearest.value_mono_of_pos {p q : ℚ} {x y : Binary64} (hx : IsNearest p x) (hy : IsNearest q y) (hp : 0 < p)
    (hpq : p ≤ q) : binaryValue x ≤ binaryValue y := by
  have hq := hp.trans_le hpq
  have hxexp := hx.exp_eq hp.ne'
  have hyexp := hy.exp_eq hq.ne'
  rw [abs_of_pos hp] at hxexp
  rw [abs_of_pos hq] at hyexp
  have hxpos := two_zpow_pos x.exp
  have hypos := two_zpow_pos y.exp
  have hle : x.exp ≤ y.exp := by
    rw [hxexp, hyexp]
    exact unitExp_mono hp hpq
  obtain heq | hlt := hle.eq_or_lt
  · have hmant : x.mant ≤ y.mant := (hx.mant hp.ne').mono (hy.mant hq.ne') (by rw [heq]; gcongr)
    rw [binaryValue, binaryValue, heq]
    gcongr
  · have hxmant : x.mant ≤ 2 ^ 53 := by
      refine (hx.mant hp.ne').mono (nearestInt_self _) ((div_le_iff₀ hxpos).mpr ?_)
      rw [hxexp]
      exact_mod_cast (lt_unitExp p).le
    have hymant : 2 ^ 52 ≤ y.mant := by
      refine (nearestInt_self _).mono (hy.mant hq.ne') ((le_div_iff₀ hypos).mpr ?_)
      have hnormal : -1074 < unitExp q := by
        have hmin : -1074 ≤ unitExp p := le_max_right _ _
        omega
      rw [hyexp]
      exact_mod_cast unitExp_le hq hnormal
    calc binaryValue x ≤ 2 ^ 53 * 2 ^ x.exp := mul_le_mul_of_nonneg_right (by exact_mod_cast hxmant) hxpos.le
      _ = 2 ^ 52 * 2 ^ (x.exp + 1) := by rw [zpow_add_one₀ two_ne_zero]; ring
      _ ≤ 2 ^ 52 * 2 ^ y.exp := mul_le_mul_of_nonneg_left (zpow_le_zpow_right₀ one_le_two hlt) (by positivity)
      _ ≤ binaryValue y := mul_le_mul_of_nonneg_right (by exact_mod_cast hymant) hypos.le

/-- Rounding keeps the order (R189). -/
theorem IsNearest.value_mono {p q : ℚ} {x y : Binary64} (hx : IsNearest p x) (hy : IsNearest q y) (hpq : p ≤ q) :
    binaryValue x ≤ binaryValue y := by
  obtain hp | hp := lt_or_ge 0 p
  · exact hx.value_mono_of_pos hy hp hpq
  · obtain hq | hq := lt_or_ge q 0
    · have hneg := hy.neg.value_mono_of_pos hx.neg (neg_pos.mpr hq) (neg_le_neg hpq)
      rw [binaryValue_neg, binaryValue_neg] at hneg
      exact neg_le_neg_iff.mp hneg
    · exact (hx.value_nonpos hp).trans (hy.value_nonneg hq)

/-! ## Exact values -/

/-- An integer of at most 53 bits is its own nearest value (R186). -/
theorem IsNearest.value_eq_int {n : Int} {x : Binary64} (h : IsNearest n x) (hn : n.natAbs ≤ 2 ^ 53) : binaryValue x = n := by
  obtain rfl | hn0 := eq_or_ne n 0
  · rw [Int.cast_zero] at h
    rw [h.eq_zero, binaryValue_zero, Int.cast_zero]
  have hq : (n : ℚ) ≠ 0 := Int.cast_ne_zero.mpr hn0
  have hpos := abs_pos.mpr hq
  have hp := two_zpow_pos x.exp
  have hexp := h.exp_eq hq
  have habs : |(n : ℚ)| = n.natAbs := by rw [Nat.cast_natAbs, Int.cast_abs]
  have hbig : (n.natAbs : ℚ) ≤ 2 ^ 53 := by exact_mod_cast hn
  -- in units of the last place n is an integer
  have hint : ∃ k : Int, (n : ℚ) / 2 ^ x.exp = k := by
    obtain hneg | hexp0 := le_or_gt x.exp 0
    · refine ⟨n * 2 ^ (-x.exp).toNat, ?_⟩
      push_cast
      rw [div_eq_mul_inv, ← zpow_neg, ← zpow_natCast, Int.toNat_of_nonneg (by omega)]
    · have hmin := unitExp_le hpos (by omega)
      rw [← hexp, habs] at hmin
      have htwo : (2 : ℚ) ^ (1 : Int) ≤ 2 ^ x.exp := zpow_le_zpow_right₀ one_le_two hexp0
      rw [zpow_one] at htwo
      have hunit : (2 : ℚ) ^ x.exp = 2 := by linarith
      have htop : n.natAbs = 2 ^ 53 := le_antisymm hn (by rw [hunit] at hmin; exact_mod_cast hmin)
      obtain rfl | rfl := Int.natAbs_eq_iff.mp htop
      · exact ⟨2 ^ 52, by rw [hunit]; norm_num⟩
      · exact ⟨-2 ^ 52, by rw [hunit]; norm_num⟩
  obtain ⟨k, hk⟩ := hint
  have hmant := h.mant hq
  rw [hk] at hmant
  rw [binaryValue, hmant.eq_of_int, ← hk, div_mul_cancel₀ _ hp.ne']

/-! ## The operations (R186) -/

theorem isNearest_fdiv (a : Nat) {b : Nat} (hb : 0 < b) : IsNearest ((a : ℚ) / b) (fdiv a b) := by
  have h := isNearest_nearest false a hb
  rwa [if_neg Bool.false_ne_true, one_mul] at h

theorem fdiv_zero (b : Nat) : fdiv 0 b = ⟨0, 0⟩ := rfl

/-- A number is its sign and its magnitude. -/
theorem sign_mul_natAbs (m : Int) : (if decide (m < 0) then -1 else 1 : ℚ) * m.natAbs = m := by
  rw [Nat.cast_natAbs, Int.cast_abs]
  by_cases hm : m < 0
  · have hm' : (m : ℚ) < 0 := by exact_mod_cast hm
    simp [hm, abs_of_neg hm']
  · have hm' : (0 : ℚ) ≤ m := by exact_mod_cast not_lt.mp hm
    simp [hm, abs_of_nonneg hm']

theorem isNearest_toFloat (r : Int) : IsNearest r (toFloat r) := by
  have h := isNearest_nearest (decide (r < 0)) r.natAbs one_pos
  rwa [Nat.cast_one, div_one, sign_mul_natAbs] at h

theorem isNearest_fmul (x y : Binary64) : IsNearest (binaryValue x * binaryValue y) (fmul x y) := by
  have h := isNearest_nearest (decide (x.mant * y.mant < 0)) ((x.mant * y.mant).natAbs * 2 ^ (x.exp + y.exp).toNat)
    (den := 2 ^ (-(x.exp + y.exp)).toNat) (by positivity)
  push_cast at h
  rw [mul_div_assoc, ← two_zpow_eq, ← mul_assoc, sign_mul_natAbs, Int.cast_mul, zpow_add₀ two_ne_zero,
    mul_mul_mul_comm] at h
  exact h

/-- A quotient of 1 is exact. -/
theorem binaryValue_fdiv_self {t : Nat} (ht : 0 < t) : binaryValue (fdiv t t) = 1 := by
  have h := isNearest_fdiv t ht
  rw [div_self (by positivity), ← Int.cast_one] at h
  rw [h.value_eq_int (by norm_num), Int.cast_one]

/-- The floor of a quotient of integers (R187). -/
theorem fdiv_eq_floor (a : Int) (d : Nat) : a.fdiv d = ⌊(a : ℚ) / d⌋ := by
  rw [Int.fdiv_eq_ediv_of_nonneg _ (Int.natCast_nonneg d), Rat.floor_intCast_div_natCast]

theorem floorFloat_eq_floor (x : Binary64) : floorFloat x = ⌊binaryValue x⌋ := by
  have h := fdiv_eq_floor (x.mant * 2 ^ x.exp.toNat) (2 ^ (-x.exp).toNat)
  push_cast at h
  rw [floorFloat, h, mul_div_assoc, ← two_zpow_eq, binaryValue]

end Sys2Proof.Machine

/-! PROOF. Interval narrowing (43_arithmetic.md R183 to R189): the offsets of both scale modes as floors, where they are exact,
and how they are ordered. -/

namespace Sys2Proof.Machine

/-! ## The counts and the bounds (R183, R184, R188) -/

/-- C + f is at most T (R183). -/
theorem freqSum_add_le (t : Table Word64) (b : Byte) :
    freqSum t b.toNat + (tableGet t b).toNat ≤ freqSum t 256 := by
  have hsucc : freqSum t (b.toNat + 1) = freqSum t b.toNat + (tableGet t b).toNat := by
    simp [freqSum, List.range_succ]
  rw [← hsucc]
  exact (List.range_sublist.mpr (by omega)).map _ |>.sum_le_sum (by simp)

/-- The bounds of a narrowing in R183's and R184's terms (R188). -/
theorem narrow_eq (m : ScaleMode) (a : Arith) (b : Byte) :
    narrow m a b =
      ((a.low.toNat : Int) + scaleCount m (freqSum a.freq b.toNat) (freqSum a.freq 256) (interval a),
        (a.low.toNat : Int) + scaleCount m (freqSum a.freq b.toNat + (tableGet a.freq b).toNat) (freqSum a.freq 256)
          (interval a) - 1) := by
  simp only [narrow, countBelow_eq_freqSum, countTotal_eq_freqSum]

/-! ## FLOAT64 scaling (R186) -/

theorem scaleFloat_eq_floor (c t : Nat) (r : Int) : scaleFloat c t r = ⌊binaryValue (fmul (fdiv c t) (toFloat r))⌋ :=
  floorFloat_eq_floor _

/-- A number of magnitude 2^−1000 or more is not 0. -/
theorem ne_zero_of_one_le_abs_mul {q : ℚ} (h : 1 ≤ |q| * 2 ^ 1000) : q ≠ 0 := by
  rintro rfl
  rw [abs_zero, zero_mul] at h
  exact absurd h (by norm_num)

/-- Settles O37: each operation's result is the nearest value to the exact one, and an integer's is exact. -/
theorem roundingIsToNearest : Obligations.RoundingIsToNearest := by
  unfold Obligations.RoundingIsToNearest
  refine ⟨fun a b hb => ⟨?_, fun ha hmin _ => ?_⟩, fun r => ⟨fun hr => ?_, fun hr _ => ?_⟩,
    fun x y => ⟨fun h0 => ?_, fun hmin _ => ?_⟩, floorFloat_eq_floor, fun a b _ => ?_⟩
  · rw [fdiv_zero, binaryValue_zero]
  · have ha' : (0 : ℚ) < a := by exact_mod_cast ha
    have hb' : (0 : ℚ) < b := by exact_mod_cast hb
    have hq := div_pos ha' hb'
    refine (isNearest_fdiv a hb).roundsTo hq.ne' ?_
    rw [abs_of_pos hq, div_mul_eq_mul_div, one_le_div hb']
    exact_mod_cast hmin
  · exact (isNearest_toFloat r).value_eq_int hr
  · refine (isNearest_toFloat r).roundsTo (Int.cast_ne_zero.mpr hr) ?_
    have hone : (1 : ℚ) ≤ |(r : ℚ)| := by exact_mod_cast Int.one_le_abs hr
    exact one_le_mul_of_one_le_of_one_le hone (one_le_pow₀ one_le_two)
  · have h := isNearest_fmul x y
    rw [h0] at h
    rw [h.eq_zero, binaryValue_zero]
  · exact (isNearest_fmul x y).roundsTo (ne_zero_of_one_le_abs_mul hmin) hmin
  · rw [narrow_eq]
    exact ⟨congrArg (_ + ·) (scaleFloat_eq_floor _ _ _), congrArg (_ + · - 1) (scaleFloat_eq_floor _ _ _)⟩

/-- Settles O38: a quotient of 0 makes the product 0; a quotient of 1 is exact, and so are R and their product. -/
theorem floatScalingIsExactAtTheEnds : Obligations.FloatScalingIsExactAtTheEnds := by
  unfold Obligations.FloatScalingIsExactAtTheEnds
  intro t r ht
  constructor
  · have hprod := isNearest_fmul (fdiv 0 t) (toFloat r)
    rw [fdiv_zero, binaryValue_zero, zero_mul] at hprod
    rw [scaleFloat_eq_floor, fdiv_zero, hprod.eq_zero, binaryValue_zero, Int.floor_zero]
  · intro hr
    have hprod := isNearest_fmul (fdiv t t) (toFloat r)
    rw [binaryValue_fdiv_self ht, (isNearest_toFloat r).value_eq_int hr, one_mul] at hprod
    rw [scaleFloat_eq_floor, hprod.value_eq_int hr, Int.floor_intCast]

/-- With R ≤ 0 the FLOAT64 offset does not grow with the count (R189). -/
theorem scaleFloat_antitone {c d t : Nat} {r : Int} (ht : 0 < t) (hcd : c ≤ d) (hr : r ≤ 0) :
    scaleFloat d t r ≤ scaleFloat c t r := by
  have hquot : binaryValue (fdiv c t) ≤ binaryValue (fdiv d t) :=
    (isNearest_fdiv c ht).value_mono (isNearest_fdiv d ht) (by gcongr)
  have hrange : binaryValue (toFloat r) ≤ 0 := (isNearest_toFloat r).value_nonpos (by exact_mod_cast hr)
  rw [scaleFloat_eq_floor, scaleFloat_eq_floor]
  exact Int.floor_mono ((isNearest_fmul _ _).value_mono (isNearest_fmul _ _)
    (mul_le_mul_of_nonpos_right hquot hrange))

/-! ## INTEGER scaling (R187) -/

theorem scaleInteger_eq_floor (c t : Nat) (r : Int) : scaleInteger c t r = ⌊(c : ℚ) * r / t⌋ := by
  rw [scaleInteger, fdiv_eq_floor, Int.cast_mul, Int.cast_natCast]

/-- With R ≥ 0 the INTEGER offset grows with the count. -/
theorem scaleInteger_mono {c d t : Nat} {r : Int} (hcd : c ≤ d) (hr : 0 ≤ r) : scaleInteger c t r ≤ scaleInteger d t r := by
  have hr' : (0 : ℚ) ≤ r := by exact_mod_cast hr
  rw [scaleInteger_eq_floor, scaleInteger_eq_floor]
  exact Int.floor_mono (by gcongr)

/-- With R ≤ 0 it does not (R189). -/
theorem scaleInteger_antitone {c d t : Nat} {r : Int} (hcd : c ≤ d) (hr : r ≤ 0) :
    scaleInteger d t r ≤ scaleInteger c t r := by
  have hr' : (r : ℚ) ≤ 0 := by exact_mod_cast hr
  have hcd' : (c : ℚ) ≤ d := by exact_mod_cast hcd
  rw [scaleInteger_eq_floor, scaleInteger_eq_floor]
  exact Int.floor_mono (div_le_div_of_nonneg_right (mul_le_mul_of_nonpos_right hcd' hr') (Nat.cast_nonneg t))

theorem scaleInteger_zero (t : Nat) (r : Int) : scaleInteger 0 t r = 0 := by simp [scaleInteger]

theorem scaleInteger_total {t : Nat} (ht : 0 < t) (r : Int) : scaleInteger t t r = r := by
  have ht' : (t : ℚ) ≠ 0 := by positivity
  rw [scaleInteger_eq_floor, mul_div_cancel_left₀ _ ht', Int.floor_intCast]

/-- Settles O39: the offsets lie between that of count 0, which is 0, and that of count T, which is R. -/
theorem integerNarrowingStaysInside : Obligations.IntegerNarrowingStaysInside := by
  unfold Obligations.IntegerNarrowingStaysInside
  intro a b
  dsimp only
  intro ht
  rw [narrow_eq]
  refine ⟨congrArg (_ + ·) (scaleInteger_eq_floor _ _ _), congrArg (_ + · - 1) (scaleInteger_eq_floor _ _ _),
    fun hle => ?_⟩
  have hrange : interval a = (a.high.toNat : Int) - a.low.toNat + 1 := rfl
  have hr : 0 ≤ interval a := by omega
  have hlow := scaleInteger_mono (t := freqSum a.freq 256) (Nat.zero_le (freqSum a.freq b.toNat)) hr
  have hmid := scaleInteger_mono (t := freqSum a.freq 256) (Nat.le_add_right (freqSum a.freq b.toNat)
    (tableGet a.freq b).toNat) hr
  have hhigh := scaleInteger_mono (t := freqSum a.freq 256) (freqSum_add_le a.freq b) hr
  rw [scaleInteger_zero] at hlow
  rw [scaleInteger_total ht] at hhigh
  dsimp only [scaleCount]
  omega

/-- Settles O40: with R ≤ 0 the offset of C + f is at most that of C in either mode. -/
theorem invertedIntervalIsDegenerate : Obligations.InvertedIntervalIsDegenerate := by
  unfold Obligations.InvertedIntervalIsDegenerate
  intro m a b ht hinv
  have hr : interval a ≤ 0 := by unfold interval; omega
  have hcount : freqSum a.freq b.toNat ≤ freqSum a.freq b.toNat + (tableGet a.freq b).toNat := Nat.le_add_right _ _
  have hscale : scaleCount m (freqSum a.freq b.toNat + (tableGet a.freq b).toNat) (freqSum a.freq 256) (interval a) ≤
      scaleCount m (freqSum a.freq b.toNat) (freqSum a.freq 256) (interval a) := by
    rw [countTotal_eq_freqSum] at ht
    cases m with
    | float64 => exact scaleFloat_antitone ht hcount hr
    | integer => exact scaleInteger_antitone hcount hr
  rw [narrow_eq]
  dsimp only
  omega

end Sys2Proof.Machine

/-! PROOF. The Huffman encoder's pass 1 and its leaf list (44_huffman.md R224, R225): HUFF_COUNT case by case, and the order
of the leaves. -/

namespace Sys2Proof.Machine

/-! ## HUFF_COUNT (R224) -/

/-- Outside HUFF_HIST HUFF_COUNT records SEQUENCE and nothing else. -/
theorem exec_huffCount_of_not_hist {s : State} (hn : s.session ≠ .huffHist) (b : Byte) :
    exec (.huffCount b) s = .next (raiseError .sequence 0x41#8 s) :=
  congrArg (finish 0x41#8) (show huffCountBody b s = .raised .sequence s by simp [huffCountBody, hn])

/-- At SYM_MAX it records SYM_LIMIT and nothing else. -/
theorem exec_huffCount_of_exhausted {s : State} (hn : s.session = .huffHist) (hx : symbolsExhausted s = true) (b : Byte) :
    exec (.huffCount b) s = .next (raiseError .symLimit 0x41#8 s) :=
  congrArg (finish 0x41#8) (show huffCountBody b s = .raised .symLimit s by simp [huffCountBody, hn, hx])

/-- A HUFF_COUNT that meets its two checks counts its byte. -/
theorem huffCountBody_of_room {s : State} (hn : s.session = .huffHist) (hx : symbolsExhausted s = false) (b : Byte) :
    huffCountBody b s = .done { s with huf := histCount b s.huf, nsym := s.nsym + 1 } := by
  simp [huffCountBody, hn, hx]

theorem exec_huffCount_of_room {s : State} (hn : s.session = .huffHist) (hx : symbolsExhausted s = false) (b : Byte) :
    exec (.huffCount b) s = .next { s with huf := histCount b s.huf, nsym := s.nsym + 1 } :=
  congrArg (finish 0x41#8) (huffCountBody_of_room hn hx b)

/-- A counter is at most NSYM, so one more does not overflow it (R44). -/
theorem toNat_hist_succ {s : State} (h : Inv s) (hn : s.session = .huffHist) (b : Byte) :
    (tableGet s.huf.hist b + 1).toNat = (tableGet s.huf.hist b).toNat + 1 := by
  obtain ⟨hbase, hhuff⟩ := h
  have htotal : tableSum s.huf.hist = s.nsym.toNat := hhuff.total (by rw [hn]; rfl)
  have hentry := tableGet_le_tableSum s.huf.hist b
  have hcount := hbase.nsym
  have hcap := symMax_le hbase.legal
  exact bits_succ _ (by omega)

/-- An absent value leaves HUFF_M below 256 (R38). -/
theorem toNat_m_lt_of_absent {h : Huff} (ho : OrderInv h) {b : Byte} (hb : tableGet h.hist b = 0) : h.m.toNat < 256 := by
  obtain ⟨-, hm, -, -⟩ := ho
  exact hm.trans_lt (presentCount_lt_of_absent h b hb)

/-- A read of ORDER after a write of one rank. -/
theorem tableGet_setIfInBounds {α : Type} (t : Table α) (n : Nat) (x : α) (i : Byte) :
    tableGet (t.setIfInBounds n x) i = if i.toNat = n then x else tableGet t i := by
  simp only [tableGet, Vector.getElem_setIfInBounds, eq_comm]

/-- Settles O42: the three cases of HUFF_COUNT; a counted byte is a first occurrence or not. -/
theorem huffCountEffects : Obligations.HuffCountEffects := by
  unfold Obligations.HuffCountEffects
  refine ⟨fun b => decodeOfEncodeIsTheCommand (.huffCount b) rfl, fun s b h =>
    ⟨fun hn hx => ⟨_, exec_huffCount_of_room hn ((symbolsExhausted_eq_false_iff s).mpr hx) b, fun v => ?_, ?_, ?_,
        fun hb => ?_, fun hb => ?_⟩,
      fun hn => exec_huffCount_of_not_hist hn b,
      fun hn hx => exec_huffCount_of_exhausted hn ((symbolsExhausted_eq_true_iff s).mpr hx) b⟩⟩
  · rw [histCount_hist, tableGet_tableSet]
    by_cases hv : v = b
    · subst hv
      rw [if_pos rfl, if_pos rfl, toNat_hist_succ h hn]
    · rw [if_neg (Ne.symm hv), if_neg hv, Nat.add_zero]
  · exact histCount_clen b s.huf
  · exact histCount_code b s.huf
  · rw [histCount_of_present b s.huf hb]
    exact ⟨rfl, rfl⟩
  · have hlt := toNat_m_lt_of_absent h.2.order hb
    rw [histCount_of_absent b s.huf hb]
    refine ⟨?_, hlt, fun i => tableGet_setIfInBounds _ _ _ i⟩
    rw [BitVec.toNat_add]
    exact Nat.mod_eq_of_lt (by simp; omega)

/-! ## The leaf list (R225) -/

theorem toNat_m_le {h : Huff} (ho : OrderInv h) : h.m.toNat ≤ 256 := by
  obtain ⟨-, hm, -, -⟩ := ho
  have hle := (h.hist.toList.countP_le_length (p := fun x => x != 0))
  rw [hm, presentCount_eq_countP]
  simpa using hle

/-- The two orders list the same leaves. -/
theorem leafList_perm {h : Huff} (ho : OrderInv h) (o o' : LeafOrder) : (leafList o h).Perm (leafList o' h) :=
  (List.perm_ext_iff_of_nodup (nodup_leafList o h ho) (nodup_leafList o' h ho)).mpr fun v =>
    (mem_leafList o h ho v).trans (mem_leafList o' h ho v).symm

/-- There are HUFF_M leaves. -/
theorem leafList_length {h : Huff} (ho : OrderInv h) (o : LeafOrder) : (leafList o h).length = h.m.toNat := by
  rw [(leafList_perm ho o .firstOccurrence).length_eq]
  simpa [leafList] using toNat_m_le ho

theorem pairwise_lt_allBytes : allBytes.Pairwise (fun u v => u.toNat < v.toNat) := by
  refine List.pairwise_map.mpr (List.pairwise_lt_range.imp_of_mem fun {i j} hi hj hij => ?_)
  rw [List.mem_range] at hi hj
  simpa [Nat.mod_eq_of_lt, hi, hj] using hij

/-- Settles O43: both orders list the present values, and there are as many of them as ORDER's ranks in use. -/
theorem leafListHoldsThePresentValues : Obligations.LeafListHoldsThePresentValues := by
  unfold Obligations.LeafListHoldsThePresentValues
  refine fun o h ho => ⟨nodup_leafList o h ho, mem_leafList o h ho, leafList_length ho o,
    pairwise_lt_allBytes.filter (fun v => tableGet h.hist v ≠ 0), fun i hi => ?_⟩
  have hi256 : i.toNat < 256 := i.isLt
  simp [leafList, hi, tableGet]

end Sys2Proof.Machine

/-! PROOF. The Huffman encoder's emission (44_huffman.md R221, R222, R233): HUFF_EMIT case by case. -/

namespace Sys2Proof.Machine

theorem packFits_eq_true_iff (p : Params) (o : OutBuf) (e : Nat) :
    packFits p o e = true ↔ (o.bits.toNat + e + 7) / 8 ≤ outCap p := decide_eq_true_iff

theorem packFits_eq_false_iff (p : Params) (o : OutBuf) (e : Nat) :
    packFits p o e = false ↔ outCap p < (o.bits.toNat + e + 7) / 8 := decide_eq_false_iff_not.trans not_le

/-- In HUFF_EMIT OUT is a packer between two writes (R44 item 4). -/
theorem packReady_of_huffEmit {s : State} (h : BaseInv s) (hn : s.session = .huffEmit) : PackReady s.out :=
  ((outputInv_iff_packReady hn).mp h.output).1

/-- Where CLEN is CODE's length, the bits HUFF_EMIT writes are the code (R39, R40). -/
theorem codeBits_eq_code {h : Huff} (hc : CodeInv h) (b : Byte) : codeBits h b = tableGet h.code b := by
  obtain ⟨hlen, -⟩ := hc b
  refine List.ext_getElem (by rw [codeBits_length, hlen]) fun i h1 h2 => ?_
  simp [codeBits, List.getElem?_eq_getElem h2]

/-- Outside HUFF_EMIT the command records SEQUENCE and nothing else. -/
theorem exec_huffEmit_of_not_emit {s : State} (hn : s.session ≠ .huffEmit) (b : Byte) :
    exec (.huffEmit b) s = .next (raiseError .sequence 0x43#8 s) :=
  congrArg (finish 0x43#8) (show huffEmitBody b s = .raised .sequence s by simp [huffEmitBody, hn])

/-- For a value without a code it records NOCODE and nothing else. -/
theorem exec_huffEmit_of_noCode {s : State} {b : Byte} (hn : s.session = .huffEmit) (hc : tableGet s.huf.clen b = 0) :
    exec (.huffEmit b) s = .next (raiseError .noCode 0x43#8 s) :=
  congrArg (finish 0x43#8) (show huffEmitBody b s = .raised .noCode s by simp [huffEmitBody, hn, hc])

/-- Without room for the code it records OUT_FULL and nothing else. -/
theorem exec_huffEmit_of_full {s : State} {b : Byte} (hn : s.session = .huffEmit) (hc : tableGet s.huf.clen b ≠ 0)
    (hf : packFits s.params s.out (tableGet s.huf.clen b).toNat = false) :
    exec (.huffEmit b) s = .next (raiseError .outFull 0x43#8 s) :=
  congrArg (finish 0x43#8) (show huffEmitBody b s = .raised .outFull s by
    simpa [huffEmitBody, hn, hf] using hc)

/-- A HUFF_EMIT that meets its three checks writes the code. -/
theorem huffEmitBody_of_fits {s : State} {b : Byte} (hi : CodeInv s.huf) (hn : s.session = .huffEmit)
    (hc : tableGet s.huf.clen b ≠ 0) (hf : packFits s.params s.out (tableGet s.huf.clen b).toNat = true) :
    huffEmitBody b s = .done { s with out := packBits (tableGet s.huf.code b) s.out } := by
  simpa [huffEmitBody, hn, hf, codeBits_eq_code hi] using hc

/-- Settles O48: the four cases of HUFF_EMIT; a code that fits is written as any bit string through a ready packer. -/
theorem huffEmitEffects : Obligations.HuffEmitEffects := by
  unfold Obligations.HuffEmitEffects
  refine ⟨fun b => decodeOfEncodeIsTheCommand (.huffEmit b) rfl, fun s b h =>
    ⟨fun hn hc hroom => ?_, fun hn => exec_huffEmit_of_not_emit hn b, fun hn hc => exec_huffEmit_of_noCode hn hc,
      fun hn hc hfull => exec_huffEmit_of_full hn hc ((packFits_eq_false_iff _ _ _).mpr hfull)⟩⟩
  obtain ⟨hbase, hhuff⟩ := h
  have hf := (packFits_eq_true_iff _ _ _).mpr hroom
  have hready := packReady_of_huffEmit hbase hn
  have hlt := bits_lt_of_packFits hbase.legal hf
  obtain ⟨hlen, -⟩ := hhuff.code b
  rw [← hlen] at hlt
  obtain ⟨hready', hbits, hstream⟩ := packBits_spec (tableGet s.huf.code b) s.out hready hlt
  have hexec := congrArg (finish 0x43#8) (huffEmitBody_of_fits hhuff.code hn hc hf)
  refine ⟨_, hexec, by rw [hbits, hlen], hready'.cursor, hready'.len, fun j => ?_, fun a ha => ?_⟩
  · rw [hbits]
    exact hstream j
  · rw [hready.cursor.1, hready'.len, hbits] at ha
    exact packBits_read_other _ _ hready hlt a ha

end Sys2Proof.Machine

/-! PROOF. The merge tree (44_huffman.md R226, R227, R231, R232): the loop is a chain of merges from the leaves to one node, and
the codes of every node are the branches of a binary tree over its values. -/

namespace Sys2Proof.Machine

/-! ## The trees -/

/-- `c` gives the values of the list the branches of a binary tree whose leaves they are (R227). -/
inductive CodeTree : List Byte → (Byte → BitString) → Prop
  | leaf {v : Byte} {c : Byte → BitString} (hv : c v = []) : CodeTree [v] c
  | node {xs ys : List Byte} {cx cy c : Byte → BitString} (hx : CodeTree xs cx) (hy : CodeTree ys cy)
      (hxs : ∀ v ∈ xs, c v = false :: cx v) (hys : ∀ v ∈ ys, c v = true :: cy v) : CodeTree (xs ++ ys) c

/-- A tree speaks of its own values' codes alone. -/
theorem CodeTree.congr {xs : List Byte} {c c' : Byte → BitString} (h : CodeTree xs c) (hc : ∀ v ∈ xs, c' v = c v) :
    CodeTree xs c' := by
  cases h with
  | leaf hv => exact .leaf ((hc _ (List.mem_singleton_self _)).trans hv)
  | node hx hy hxs hys =>
    exact .node hx hy (fun v hv => (hc v (List.mem_append_left _ hv)).trans (hxs v hv))
      fun v hv => (hc v (List.mem_append_right _ hv)).trans (hys v hv)

theorem CodeTree.exists_mem {xs : List Byte} {c : Byte → BitString} (h : CodeTree xs c) : ∃ v, v ∈ xs := by
  induction h with
  | leaf => exact ⟨_, List.mem_singleton_self _⟩
  | node _ _ _ _ ihx _ =>
    obtain ⟨v, hv⟩ := ihx
    exact ⟨v, List.mem_append_left _ hv⟩

/-- The codes fill the tree: Σ 2^(−|c v|) = 1, scaled by a power of 2 that no code exceeds (R231). -/
theorem CodeTree.kraft {xs : List Byte} {c : Byte → BitString} (h : CodeTree xs c) {n : Nat}
    (hn : ∀ v ∈ xs, (c v).length ≤ n) : (xs.map fun v => 2 ^ (n - (c v).length)).sum = 2 ^ n := by
  induction h generalizing n with
  | leaf hv => simp [hv]
  | @node xs ys cx cy c hx hy hxs hys ihx ihy =>
    have hlx (v) (hv : v ∈ xs) : (c v).length = (cx v).length + 1 := by rw [hxs v hv, List.length_cons]
    have hly (v) (hv : v ∈ ys) : (c v).length = (cy v).length + 1 := by rw [hys v hv, List.length_cons]
    have hnx (v) (hv : v ∈ xs) := hn v (List.mem_append_left _ hv)
    have hny (v) (hv : v ∈ ys) := hn v (List.mem_append_right _ hv)
    obtain ⟨u, hu⟩ := hx.exists_mem
    obtain ⟨k, rfl⟩ : ∃ k, n = k + 1 := Nat.exists_eq_add_one.mpr (by have := hnx u hu; have := hlx u hu; omega)
    have hsumx : (xs.map fun v => 2 ^ (k + 1 - (c v).length)).sum = 2 ^ k := by
      rw [← ihx fun v hv => by have := hnx v hv; have := hlx v hv; omega]
      exact congrArg List.sum (List.map_congr_left fun v hv => by rw [hlx v hv, Nat.add_sub_add_right])
    have hsumy : (ys.map fun v => 2 ^ (k + 1 - (c v).length)).sum = 2 ^ k := by
      rw [← ihy fun v hv => by have := hny v hv; have := hly v hv; omega]
      exact congrArg List.sum (List.map_congr_left fun v hv => by rw [hly v hv, Nat.add_sub_add_right])
    rw [List.map_append, List.sum_append, hsumx, hsumy, pow_succ, mul_two]

/-- No leaf's branches begin another's: two leaves part at the node that parts them (R232). -/
theorem CodeTree.not_isPrefix {xs : List Byte} {c : Byte → BitString} (h : CodeTree xs c) {u v : Byte} (hu : u ∈ xs)
    (hv : v ∈ xs) (huv : u ≠ v) : ¬ c u <+: c v := by
  induction h with
  | leaf => exact absurd ((List.mem_singleton.mp hu).trans (List.mem_singleton.mp hv).symm) huv
  | node _ _ hxs hys ihx ihy =>
    rcases List.mem_append.mp hu with hu | hu <;> rcases List.mem_append.mp hv with hv | hv
    · rw [hxs u hu, hxs v hv, List.prefix_cons_inj]
      exact ihx hu hv
    · rw [hxs u hu, hys v hv, List.cons_prefix_cons]
      exact fun h => Bool.false_ne_true h.1
    · rw [hys u hu, hxs v hv, List.cons_prefix_cons]
      exact fun h => Bool.false_ne_true h.1.symm
    · rw [hys u hu, hys v hv, List.prefix_cons_inj]
      exact ihy hu hv

/-! ## The loop -/

/-- What every merge keeps, the loop keeps. -/
theorem mergeLoop_keeps {leaves : List Byte} (P : Merge → Prop)
    (hstep : ∀ m m', MergeInv leaves m → MergesTo m m' → P m → P m') (n : Nat) {m : Merge} (h : MergeInv leaves m)
    (hp : P m) : P (mergeLoop n m) := by
  induction n generalizing m with
  | zero => exact hp
  | succ n ih =>
    unfold mergeLoop
    split
    · exact hp
    · next m' hs => exact ih (mergeInv_mergeStep h hs).1 (hstep m m' h (mergeStep_mergesTo m m' h.ok hs).1 hp)

/-- With a turn for every node the loop is the chain of merges that takes all nodes but one away (R227). -/
theorem mergeLoop_chain {leaves : List Byte} (n : Nat) {m : Merge} (h : MergeInv leaves m) (hn : m.queue.length ≤ n) :
    MergeChain (m.queue.length - 1) m (mergeLoop n m) := by
  induction n generalizing m with
  | zero =>
    rw [Nat.le_zero.mp hn]
    rfl
  | succ n ih =>
    unfold mergeLoop
    split
    · next hs =>
      rw [Nat.sub_eq_zero_of_le ((mergeStep_eq_none m).mp hs)]
      rfl
    · next m' hs =>
      obtain ⟨h', hlen⟩ := mergeInv_mergeStep h hs
      have hlong : ¬ m.queue.length ≤ 1 := fun hle => by
        rw [(mergeStep_eq_none m).mpr hle] at hs
        cases hs
      have hcount : m.queue.length - 1 = (m'.queue.length - 1) + 1 := by omega
      rw [hcount]
      exact ⟨m', (mergeStep_mergesTo m m' h.ok hs).1, ih h' (by omega)⟩

/-- The loop over one leaf or more ends with one node, which holds every leaf (R227). -/
theorem mergeLoop_single {leaves : List Byte} (hl : leaves ≠ []) (n : Nat) {m : Merge} (h : MergeInv leaves m)
    (hn : m.queue.length ≤ n) : ∃ x, (mergeLoop n m).queue = [x] ∧ x.syms.Perm leaves := by
  obtain ⟨⟨-, hperm, -⟩, hle⟩ := mergeInv_mergeLoop n h hn
  have hne : (mergeLoop n m).queue ≠ [] := by
    intro h0
    rw [h0] at hperm
    exact hl hperm.symm.eq_nil
  obtain ⟨x, hx⟩ := List.length_eq_one_iff.mp (Nat.le_antisymm hle (List.length_pos_iff.mpr hne))
  rw [hx] at hperm
  exact ⟨x, hx, by simpa using hperm⟩

/-! ## What a merge changes -/

/-- A merge writes the codes of its two subtrees and of no other node's (R227). -/
theorem MergesTo.exists_codes {m m' : Merge} (hok : MergeOk m) (h : MergesTo m m') :
    ∃ x y rest, m.queue.Perm (x :: y :: rest) ∧ (∀ z ∈ y :: rest, NodePrecedes x z) ∧ (∀ z ∈ rest, NodePrecedes y z) ∧
      m'.queue.Perm (⟨x.freq + y.freq, m.nextSeq, x.syms ++ y.syms⟩ :: rest) ∧
      (∀ v ∈ x.syms, tableGet m'.codes v = false :: tableGet m.codes v) ∧
      (∀ v ∈ y.syms, tableGet m'.codes v = true :: tableGet m.codes v) ∧
      ∀ z ∈ rest, ∀ v ∈ z.syms, tableGet m'.codes v = tableGet m.codes v := by
  obtain ⟨x, y, rest, hp, hx, hy, hp', -, hcodes⟩ := h
  obtain ⟨-, -, hnodup⟩ := hok
  obtain ⟨-, hdisjoint⟩ := List.nodup_flatMap.mp ((hp.flatMap_right (·.syms)).nodup_iff.mp hnodup)
  obtain ⟨hxd, hyd⟩ := List.pairwise_cons.mp hdisjoint
  obtain ⟨hyd, -⟩ := List.pairwise_cons.mp hyd
  refine ⟨x, y, rest, hp, hx, hy, hp', fun v hv => ?_, fun v hv => ?_, fun z hz v hv => ?_⟩
  · rw [hcodes v, if_pos hv]
  · rw [hcodes v, if_neg fun hvx => hxd y (List.mem_cons_self) hvx hv, if_pos hv]
  · rw [hcodes v, if_neg fun hvx => hxd z (List.mem_cons_of_mem _ hz) hvx hv, if_neg fun hvy => hyd z hz hvy hv]

/-- Every node's codes are those of a tree over its values. -/
def NodesCoded (m : Merge) : Prop := ∀ x ∈ m.queue, CodeTree x.syms (tableGet m.codes)

theorem nodesCoded_start (hist : Table Word64) (leaves : List Byte) :
    NodesCoded ⟨leafNodes hist leaves, leaves.length, tableAll []⟩ := by
  intro x hx
  obtain ⟨vi, -, rfl⟩ := List.mem_map.mp hx
  exact .leaf (tableGet_tableAll _ _)

theorem nodesCoded_mergesTo {leaves : List Byte} (m m' : Merge) (h : MergeInv leaves m) (hm : MergesTo m m')
    (hc : NodesCoded m) : NodesCoded m' := by
  obtain ⟨x, y, rest, hp, -, -, hp', hx, hy, hrest⟩ := hm.exists_codes h.ok
  have hin (z) (hz : z ∈ x :: y :: rest) : CodeTree z.syms (tableGet m.codes) := hc z (hp.mem_iff.mpr hz)
  intro z hz
  rcases List.mem_cons.mp (hp'.mem_iff.mp hz) with rfl | hz
  · exact .node (hin x (by simp)) (hin y (by simp)) hx hy
  · exact (hin z (by simp [hz])).congr (hrest z hz)

/-- With two leaves or more the leaves' codes are those of one tree over them (R230). -/
theorem codesOf_codeTree (single : Bool) (hist : Table Word64) {leaves : List Byte} (hn : leaves.Nodup)
    (h2 : 2 ≤ leaves.length) : ∃ xs, xs.Perm leaves ∧ CodeTree xs (tableGet (codesOf single hist leaves)) := by
  have hstart := mergeInv_start hist leaves hn
  have hcoded := mergeLoop_keeps NodesCoded nodesCoded_mergesTo leaves.length hstart (nodesCoded_start hist leaves)
  obtain ⟨x, hx, hperm⟩ := mergeLoop_single (List.ne_nil_of_length_pos (by omega)) leaves.length hstart (by simp)
  rw [codesOf_of_two_le single hist h2]
  exact ⟨x.syms, hperm, hcoded x (by simp [hx])⟩

end Sys2Proof.Machine

/-! PROOF. What Huffman's codes cost (44_huffman.md R227, R234): each of the k − 1 merges takes two nodes of at most 2/k of all
occurrences, so the whole input takes at most a harmonic sum of bits an occurrence, far below the 64 that OUT_CAP leaves. -/

namespace Sys2Proof.Machine

/-- The occurrences of some values. -/
def occurrences (hist : Table Word64) (xs : List Byte) : Nat := (xs.map fun v => (tableGet hist v).toNat).sum

/-- The bits that the occurrences of some values take under the codes `c`: Σ HIST[v]·|c v| (R235). -/
def codeCost (hist : Table Word64) (c : Byte → BitString) (xs : List Byte) : Nat :=
  (xs.map fun v => (tableGet hist v).toNat * (c v).length).sum

/-- The bits that all values of the structure take so far. -/
def mergeCost (hist : Table Word64) (m : Merge) : Nat := (m.queue.map fun x => codeCost hist (tableGet m.codes) x.syms).sum

/-- The sum of the nodes' frequencies. -/
def mergeWeight (m : Merge) : Nat := (m.queue.map (·.freq)).sum

/-- A node's frequency is the number of its values' occurrences (R226). -/
def NodesWeighed (hist : Table Word64) (m : Merge) : Prop := ∀ x ∈ m.queue, x.freq = occurrences hist x.syms

section
variable {hist : Table Word64}

theorem occurrences_append (xs ys : List Byte) :
    occurrences hist (xs ++ ys) = occurrences hist xs + occurrences hist ys := by simp [occurrences]

theorem codeCost_append (c : Byte → BitString) (xs ys : List Byte) :
    codeCost hist c (xs ++ ys) = codeCost hist c xs + codeCost hist c ys := by simp [codeCost]

theorem codeCost_congr {c c' : Byte → BitString} {xs : List Byte} (h : ∀ v ∈ xs, c' v = c v) :
    codeCost hist c' xs = codeCost hist c xs :=
  congrArg List.sum (List.map_congr_left fun v hv => by rw [h v hv])

theorem codeCost_perm (c : Byte → BitString) {xs ys : List Byte} (h : xs.Perm ys) :
    codeCost hist c xs = codeCost hist c ys := (h.map _).sum_eq

/-- One more bit on every code costs one more bit an occurrence. -/
theorem codeCost_prepend {c c' : Byte → BitString} {x : Bool} {xs : List Byte} (h : ∀ v ∈ xs, c' v = x :: c v) :
    codeCost hist c' xs = codeCost hist c xs + occurrences hist xs := by
  rw [codeCost, codeCost, occurrences, ← List.sum_map_add]
  exact congrArg List.sum (List.map_congr_left fun v hv => by rw [h v hv, List.length_cons, Nat.mul_succ])

/-! ## One merge -/

theorem nodesWeighed_start (leaves : List Byte) : NodesWeighed hist ⟨leafNodes hist leaves, leaves.length, tableAll []⟩ := by
  intro x hx
  obtain ⟨vi, -, rfl⟩ := List.mem_map.mp hx
  simp [occurrences]

theorem nodesWeighed_mergesTo {m m' : Merge} (hm : MergesTo m m') (hw : NodesWeighed hist m) : NodesWeighed hist m' := by
  obtain ⟨x, y, rest, hp, -, -, hp', -, -⟩ := hm
  have hin (z) (hz : z ∈ x :: y :: rest) : z.freq = occurrences hist z.syms := hw z (hp.mem_iff.mpr hz)
  intro z hz
  rcases List.mem_cons.mp (hp'.mem_iff.mp hz) with rfl | hz
  · rw [occurrences_append, hin x (by simp), hin y (by simp)]
  · exact hin z (by simp [hz])

/-- A merge keeps the sum of the frequencies. -/
theorem mergeWeight_mergesTo {m m' : Merge} (hm : MergesTo m m') : mergeWeight m' = mergeWeight m := by
  obtain ⟨x, y, rest, hp, -, -, hp', -, -⟩ := hm
  rw [mergeWeight, mergeWeight, (hp.map _).sum_eq, (hp'.map _).sum_eq]
  simp [Nat.add_assoc]

theorem NodePrecedes.freq_le {x z : HuffNode} (h : NodePrecedes x z) : x.freq ≤ z.freq := by
  obtain h | ⟨h, -⟩ := h
  · exact h.le
  · exact h.le

/-- The two least of k nodes hold at most 2/k of the occurrences. -/
theorem two_least_le {x y : HuffNode} {rest : List HuffNode} (hxy : x.freq ≤ y.freq) (hy : ∀ z ∈ rest, y.freq ≤ z.freq) :
    (rest.length + 2) * (x.freq + y.freq) ≤ 2 * (x.freq + (y.freq + (rest.map (·.freq)).sum)) := by
  have hrest : rest.length * y.freq ≤ (rest.map (·.freq)).sum := by
    simpa using List.card_nsmul_le_sum (rest.map (·.freq)) y.freq (by simpa using hy)
  have hmul := Nat.mul_le_mul_left rest.length hxy
  calc (rest.length + 2) * (x.freq + y.freq)
      = 2 * x.freq + 2 * y.freq + (rest.length * x.freq + rest.length * y.freq) := by ring
    _ ≤ _ := by omega

/-- A merge of k nodes takes one of them away and costs at most 2/k of all occurrences. -/
theorem mergeCost_mergesTo {m m' : Merge} (hok : MergeOk m) (hm : MergesTo m m') (hw : NodesWeighed hist m) :
    ∃ d, mergeCost hist m' = mergeCost hist m + d ∧ m.queue.length * d ≤ 2 * mergeWeight m ∧
      m.queue.length = m'.queue.length + 1 := by
  obtain ⟨x, y, rest, hp, hxle, hyle, hp', hx, hy, hrest⟩ := hm.exists_codes hok
  refine ⟨x.freq + y.freq, ?_, ?_, by simp [hp.length_eq, hp'.length_eq]⟩
  · have hrest' : (rest.map fun z => codeCost hist (tableGet m'.codes) z.syms) =
        rest.map fun z => codeCost hist (tableGet m.codes) z.syms :=
      List.map_congr_left fun z hz => codeCost_congr (hrest z hz)
    rw [mergeCost, mergeCost, (hp.map _).sum_eq, (hp'.map _).sum_eq, hw x (hp.mem_iff.mpr (by simp)),
      hw y (hp.mem_iff.mpr (by simp))]
    simp only [List.map_cons, List.sum_cons, codeCost_append, codeCost_prepend hx, codeCost_prepend hy, hrest']
    omega
  · rw [mergeWeight, (hp.map _).sum_eq, hp.length_eq]
    exact two_least_le (hxle y (by simp)).freq_le fun z hz => (hyle z hz).freq_le

/-! ## The whole tree -/

/-- The cost so far and what the merges still to come may cost, against all the merges of `n` leaves. -/
def CostBounded (hist : Table Word64) (n : Nat) (m : Merge) : Prop :=
  NodesWeighed hist m ∧
    (mergeCost hist m : ℚ) + 2 * mergeWeight m * harmonic m.queue.length ≤ 2 * mergeWeight m * harmonic n

theorem costBounded_start (leaves : List Byte) :
    CostBounded hist leaves.length ⟨leafNodes hist leaves, leaves.length, tableAll []⟩ := by
  have hcost : mergeCost hist ⟨leafNodes hist leaves, leaves.length, tableAll []⟩ = 0 := by
    simp [mergeCost, codeCost]
  refine ⟨nodesWeighed_start leaves, ?_⟩
  rw [hcost, leafNodes_length]
  simp

theorem costBounded_mergesTo {leaves : List Byte} {n : Nat} (m m' : Merge) (h : MergeInv leaves m) (hm : MergesTo m m')
    (hc : CostBounded hist n m) : CostBounded hist n m' := by
  obtain ⟨hw, hcost⟩ := hc
  obtain ⟨d, hd, hle, hlen⟩ := mergeCost_mergesTo h.ok hm hw
  have hstep : (d : ℚ) ≤ 2 * mergeWeight m * (m.queue.length : ℚ)⁻¹ := by
    have hpos : (0 : ℚ) < m.queue.length := by rw [hlen]; positivity
    rw [← div_eq_mul_inv, le_div_iff₀ hpos, mul_comm]
    exact_mod_cast hle
  refine ⟨nodesWeighed_mergesTo hm hw, ?_⟩
  rw [mergeWeight_mergesTo hm, hd, Nat.cast_add]
  rw [hlen, harmonic_succ, ← hlen] at hcost
  linarith

/-- The harmonic sum of at most 256 terms. -/
theorem harmonic_le_nine {n : Nat} (hn : n ≤ 256) : harmonic n ≤ 9 := by
  have hlog : Real.log n ≤ 8 := by
    obtain rfl | hpos := Nat.eq_zero_or_pos n
    · simp
    · have h256 : Real.log 256 = 8 * Real.log 2 := by
        rw [show (256 : ℝ) = 2 ^ 8 by norm_num, Real.log_pow]
        norm_num
      have hle : Real.log n ≤ Real.log 256 := Real.log_le_log (by exact_mod_cast hpos) (by exact_mod_cast hn)
      have h2 := Real.log_two_lt_d9
      linarith
  have hharmonic := harmonic_le_one_add_log n
  have : ((harmonic n : ℚ) : ℝ) ≤ 9 := by linarith
  exact_mod_cast this

/-- An occurrence in a tree of at most 256 leaves takes at most 18 bits on average. -/
theorem codeCost_codesOf_le_of_two_le (single : Bool) {leaves : List Byte} (hn : leaves.Nodup) (h2 : 2 ≤ leaves.length)
    (hle : leaves.length ≤ 256) :
    codeCost hist (tableGet (codesOf single hist leaves)) leaves ≤ 18 * occurrences hist leaves := by
  have hstart := mergeInv_start hist leaves hn
  obtain ⟨hw, hcost⟩ := mergeLoop_keeps (CostBounded hist leaves.length) costBounded_mergesTo leaves.length hstart
    (costBounded_start leaves)
  obtain ⟨x, hx, hperm⟩ := mergeLoop_single (List.ne_nil_of_length_pos (by omega)) leaves.length hstart (by simp)
  have hweight : x.freq = occurrences hist leaves := (hw x (by simp [hx])).trans (hperm.map _).sum_eq
  simp only [mergeCost, mergeWeight, hx, List.map_cons, List.map_nil, List.sum_cons, List.sum_nil, Nat.add_zero,
    codeCost_perm _ hperm, hweight] at hcost
  have hpaid : (0 : ℚ) ≤ 2 * occurrences hist leaves * harmonic [x].length := by simp
  have hmost := mul_le_mul_of_nonneg_left (harmonic_le_nine hle) (show (0 : ℚ) ≤ 2 * occurrences hist leaves by positivity)
  rw [codesOf_of_two_le single hist h2, ← Nat.cast_le (α := ℚ)]
  push_cast
  linarith

/-- So it does under the codes of any leaf list; a single value's code has one bit (R228, R234). -/
theorem codeCost_codesOf_le (single : Bool) {leaves : List Byte} (hn : leaves.Nodup) (hle : leaves.length ≤ 256) :
    codeCost hist (tableGet (codesOf single hist leaves)) leaves ≤ 18 * occurrences hist leaves := by
  match leaves with
  | [] => simp [codeCost]
  | [v] =>
    simp only [codeCost, occurrences, codesOf, List.map_cons, List.map_nil, List.sum_cons, List.sum_nil,
      tableGet_tableSet_same, List.length_singleton]
    omega
  | _ :: _ :: _ => exact codeCost_codesOf_le_of_two_le single hn (by simp) hle

end

end Sys2Proof.Machine

/-! PROOF. HUFF_BUILD (44_huffman.md R226 to R232): the codes it assigns are the merge tree's or SINGLE_CODE, fill the tree and
none begins another. -/

namespace Sys2Proof.Machine

/-! ## The command's equations -/

theorem exec_huffBuild_of_hist {s : State} (hn : s.session = .huffHist) :
    exec .huffBuild s = .next { s with huf := huffBuildTables s.params s.huf, session := .huffEmit } :=
  exec_huffBuild_of_done (by simp [huffBuildBody, hn])

/-- Outside HUFF_HIST HUFF_BUILD records SEQUENCE and nothing else. -/
theorem exec_huffBuild_of_not_hist {s : State} (hn : s.session ≠ .huffHist) :
    exec .huffBuild s = .next (raiseError .sequence 0x42#8 s) :=
  congrArg (finish 0x42#8) (show huffBuildBody s = .raised .sequence s by simp [huffBuildBody, hn])

/-! ## One leaf, and two or more -/

/-- The fallback code (R228). -/
theorem tableGet_codesOf_singleton (single : Bool) (hist : Table Word64) (v : Byte) :
    tableGet (codesOf single hist [v]) v = [single] := tableGet_tableSet_same _ _ _

/-- The structure before the first merge is the rule's (R226). -/
theorem mergeStart_leafNodes (hist : Table Word64) (leaves : List Byte) :
    MergeStart hist leaves ⟨leafNodes hist leaves, leaves.length, tableAll []⟩ :=
  ⟨leafNodes_length hist leaves, fun i v hv => by simp [leafNodes, List.getElem?_zipIdx, hv], rfl, tableGet_tableAll _⟩

section
variable {p : Params} {h : Huff}

/-- With HUFF_M = 1 a present value is the only leaf. -/
theorem leafList_eq_singleton (ho : OrderInv h) (hm : h.m.toNat = 1) {v : Byte} (hv : tableGet h.hist v ≠ 0)
    (o : LeafOrder) : leafList o h = [v] := by
  obtain ⟨w, hw⟩ := List.length_eq_one_iff.mp ((leafList_length ho o).trans hm)
  have hmem := (mem_leafList o h ho v).mpr hv
  rw [hw] at hmem ⊢
  rw [List.mem_singleton.mp hmem]

/-- A value that alone is present makes HUFF_M = 1. -/
theorem toNat_m_eq_one (ho : OrderInv h) {v : Byte} (hv : ∀ u, tableGet h.hist u ≠ 0 ↔ u = v) : h.m.toNat = 1 := by
  have hperm : (leafList .firstOccurrence h).Perm [v] :=
    (List.perm_ext_iff_of_nodup (nodup_leafList _ h ho) (List.nodup_singleton v)).mpr fun u =>
      (mem_leafList _ h ho u).trans ((hv u).trans List.mem_singleton.symm)
  rw [← leafList_length ho .firstOccurrence, hperm.length_eq, List.length_singleton]

/-- Two distinct present values make HUFF_M at least 2. -/
theorem two_le_toNat_m (ho : OrderInv h) {u v : Byte} (hu : tableGet h.hist u ≠ 0) (hv : tableGet h.hist v ≠ 0)
    (huv : u ≠ v) : 2 ≤ h.m.toNat := by
  have hperm : [u, v].Subperm (leafList .firstOccurrence h) :=
    List.subperm_of_subset (by simpa using huv) (List.cons_subset.mpr ⟨(mem_leafList _ h ho u).mpr hu,
      List.cons_subset.mpr ⟨(mem_leafList _ h ho v).mpr hv, List.nil_subset _⟩⟩)
  rw [← leafList_length ho .firstOccurrence]
  exact hperm.length_le

/-- A present value's code is the code generation's (R230). -/
theorem huffBuildTables_code (ho : OrderInv h) {v : Byte} (hv : tableGet h.hist v ≠ 0) :
    tableGet (huffBuildTables p h).code v = tableGet (codesOf p.singleCode h.hist (leafList p.leafOrder h)) v :=
  (huffBuildTables_present ho hv).1

/-- CLEN of a present value is its code's length (R230). -/
theorem huffBuildTables_clen (ho : OrderInv h) {v : Byte} (hv : tableGet h.hist v ≠ 0) :
    (tableGet (huffBuildTables p h).clen v).toNat = (tableGet (huffBuildTables p h).code v).length := by
  obtain ⟨-, hlen, -, -⟩ := huffBuildTables_present (p := p) ho hv
  exact hlen.symm

/-- A present value's code has 1 to 255 bits (R231). -/
theorem huffBuildTables_clen_range (ho : OrderInv h) {v : Byte} (hv : tableGet h.hist v ≠ 0) :
    1 ≤ (tableGet (huffBuildTables p h).clen v).toNat ∧ (tableGet (huffBuildTables p h).clen v).toNat ≤ 255 := by
  obtain ⟨-, -, hrange⟩ := huffBuildTables_present (p := p) ho hv
  exact hrange

/-- With HUFF_M = 1 the present value gets SINGLE_CODE (R228). -/
theorem code_huffBuildTables_of_single (ho : OrderInv h) (hm : h.m.toNat = 1) {v : Byte} (hv : tableGet h.hist v ≠ 0) :
    tableGet (huffBuildTables p h).code v = [p.singleCode] := by
  rw [huffBuildTables_code ho hv, leafList_eq_singleton ho hm hv, tableGet_codesOf_singleton]

/-- With HUFF_M ≥ 2 the codes are those of the merges from the leaves to one node (R227). -/
theorem exists_mergeChain_huffBuildTables (ho : OrderInv h) (h2 : 2 ≤ h.m.toNat) :
    ∃ m0 m1, MergeStart h.hist (leafList p.leafOrder h) m0 ∧ MergeChain (h.m.toNat - 1) m0 m1 ∧ m1.queue.length = 1 ∧
      ∀ v, tableGet h.hist v ≠ 0 → tableGet (huffBuildTables p h).code v = tableGet m1.codes v := by
  rw [← leafList_length ho p.leafOrder] at h2 ⊢
  have hstart := mergeInv_start h.hist _ (nodup_leafList p.leafOrder h ho)
  have hchain := mergeLoop_chain (leafList p.leafOrder h).length hstart (by simp)
  obtain ⟨x, hx, -⟩ := mergeLoop_single (List.ne_nil_of_length_pos (by omega)) (leafList p.leafOrder h).length hstart
    (by simp)
  rw [leafNodes_length] at hchain
  refine ⟨_, _, mergeStart_leafNodes _ _, hchain, by rw [hx]; rfl, fun v hv => ?_⟩
  rw [huffBuildTables_code ho hv, codesOf_of_two_le _ _ h2]

/-- With HUFF_M ≥ 2 the codes are those of one tree over the present values (R227). -/
theorem huffBuildTables_codeTree (ho : OrderInv h) (h2 : 2 ≤ h.m.toNat) :
    ∃ xs, xs.Perm (leafList p.leafOrder h) ∧ CodeTree xs (tableGet (huffBuildTables p h).code) := by
  obtain ⟨xs, hperm, htree⟩ := codesOf_codeTree p.singleCode h.hist (nodup_leafList p.leafOrder h ho)
    (h2.trans_eq (leafList_length ho _).symm)
  refine ⟨xs, hperm, htree.congr fun v hv => ?_⟩
  exact huffBuildTables_code ho ((mem_leafList _ h ho v).mp (hperm.mem_iff.mp hv))

/-- With HUFF_M ≥ 2 a code is shorter than HUFF_M (R231). -/
theorem clen_huffBuildTables_lt (ho : OrderInv h) (h2 : 2 ≤ h.m.toNat) {v : Byte} (hv : tableGet h.hist v ≠ 0) :
    (tableGet (huffBuildTables p h).clen v).toNat < h.m.toNat := by
  have hleaves := leafList_length ho p.leafOrder
  obtain ⟨-, hlt⟩ := codesOf_length_of_two_le p.singleCode h.hist (nodup_leafList p.leafOrder h ho) (by omega)
    ((mem_leafList _ h ho v).mpr hv)
  rwa [huffBuildTables_clen ho hv, huffBuildTables_code ho hv, ← hleaves]

/-- With HUFF_M ≥ 2 the code lengths fill the tree (R231). -/
theorem kraft_huffBuildTables (ho : OrderInv h) (h2 : 2 ≤ h.m.toNat) :
    ((leafList .ascendingValue h).map fun v => 2 ^ (255 - (tableGet (huffBuildTables p h).clen v).toNat)).sum = 2 ^ 255 := by
  obtain ⟨xs, hperm, htree⟩ := huffBuildTables_codeTree (p := p) ho h2
  have hperm' := hperm.trans (leafList_perm ho _ .ascendingValue)
  have hpresent (v) (hv : v ∈ xs) : tableGet h.hist v ≠ 0 := (mem_leafList _ h ho v).mp (hperm'.mem_iff.mp hv)
  have hle (v) (hv : v ∈ xs) : (tableGet (huffBuildTables p h).code v).length ≤ 255 := by
    rw [← huffBuildTables_clen ho (hpresent v hv)]
    exact (huffBuildTables_clen_range ho (hpresent v hv)).2
  rw [← (hperm'.map _).sum_eq, ← htree.kraft hle]
  exact congrArg List.sum (List.map_congr_left fun v hv => by rw [huffBuildTables_clen ho (hpresent v hv)])

end

/-! ## The obligations -/

/-- Settles O44: the tables of `huffBuildTables`, whose codes are those of the chain of merges. -/
theorem huffBuildEffects : Obligations.HuffBuildEffects := by
  unfold Obligations.HuffBuildEffects
  refine ⟨decodeOfEncodeIsTheCommand .huffBuild rfl, fun s hi =>
    ⟨fun hn => ?_, fun hn => exec_huffBuild_of_not_hist hn⟩⟩
  have ho := hi.2.order
  obtain ⟨hhist, horder, hm⟩ := huffBuildTables_frame s.params s.huf
  refine ⟨_, exec_huffBuild_of_hist hn, hhist, horder, hm, fun v => ⟨fun hv => ?_, fun hv => ?_⟩,
    exists_mergeChain_huffBuildTables ho⟩
  · obtain ⟨hcode, hclen⟩ := huffBuildTables_absent (p := s.params) ho hv
    exact ⟨hcode, hclen.trans (hi.2.before hn v)⟩
  · exact ⟨huffBuildTables_code ho hv, huffBuildTables_clen ho hv, fun hm1 => code_huffBuildTables_of_single ho hm1 hv⟩

/-- Settles O45: the fallback code for one present value; with none every CLEN stays 0, which HUFF_EMIT reports. -/
theorem smallHistogramsHaveTheirCodes : Obligations.SmallHistogramsHaveTheirCodes := by
  unfold Obligations.SmallHistogramsHaveTheirCodes
  intro s t hi hn ht
  have ho := hi.2.order
  obtain ⟨hhist, -, -⟩ := huffBuildTables_frame s.params s.huf
  cases (exec_huffBuild_of_hist hn).symm.trans ht
  refine ⟨fun v hv => ?_, fun hv b => exec_huffEmit_of_noCode rfl ?_⟩
  · have hpresent := (hv v).mpr rfl
    have hcode := code_huffBuildTables_of_single (p := s.params) ho (toNat_m_eq_one ho hv) hpresent
    refine ⟨hcode, ?_⟩
    rw [huffBuildTables_clen ho hpresent, hcode, List.length_singleton]
  · refine not_not.mp fun hc => (clen_huffBuildTables_ne_zero ho (hi.2.before hn) b).mp hc ?_
    rw [hhist, hv b]

/-- Settles O46: the present values are the leaves of one tree; with one of them its code is SINGLE_CODE. -/
theorem codeLengthsFillTheTree : Obligations.CodeLengthsFillTheTree := by
  unfold Obligations.CodeLengthsFillTheTree
  intro s t hi hn ht
  have ho := hi.2.order
  obtain ⟨hhist, -, hm⟩ := huffBuildTables_frame s.params s.huf
  cases (exec_huffBuild_of_hist hn).symm.trans ht
  dsimp only
  rw [hhist, hm]
  refine ⟨fun h2 => ⟨fun v hv => ?_, kraft_huffBuildTables ho h2⟩, fun hm1 v hv => ?_⟩
  · obtain ⟨hpos, -⟩ := huffBuildTables_clen_range (p := s.params) ho hv
    have hlt := clen_huffBuildTables_lt (p := s.params) ho h2 hv
    have hle := toNat_m_le ho
    exact ⟨hpos, by omega, by omega⟩
  · rw [huffBuildTables_clen ho hv, code_huffBuildTables_of_single ho hm1 hv, List.length_singleton]

/-- Settles O47: two distinct present values are two leaves of one tree. -/
theorem huffmanCodesArePrefixFree : Obligations.HuffmanCodesArePrefixFree := by
  unfold Obligations.HuffmanCodesArePrefixFree
  intro s t hi hn ht u v hu hv huv
  have ho := hi.2.order
  obtain ⟨hhist, -, -⟩ := huffBuildTables_frame s.params s.huf
  cases (exec_huffBuild_of_hist hn).symm.trans ht
  rw [hhist] at hu hv
  obtain ⟨xs, hperm, htree⟩ := huffBuildTables_codeTree (p := s.params) ho (two_le_toNat_m ho hu hv huv)
  have hmem (w) (hw : tableGet s.huf.hist w ≠ 0) : w ∈ xs := hperm.mem_iff.mpr ((mem_leafList _ _ ho w).mpr hw)
  exact htree.not_isPrefix (hmem u hu) (hmem v hv) huv

end Sys2Proof.Machine

/-! PROOF. HUFF_ENCODE (44_huffman.md R234 to R237): pass 1 as one count of IN, pass 2 as one write of every code of IN, and what
the codes depend on. -/

namespace Sys2Proof.Machine

/-! ## Pass 1 -/

/-- HIST, ORDER and HUFF_M after some bytes are counted. -/
def countAll (bs : List Byte) (h : Huff) : Huff := bs.foldl (fun h b => histCount b h) h

/-- Every byte adds its occurrences to HIST (R224). -/
theorem countAll_hist (bs : List Byte) (h : Huff) (v : Byte) :
    tableGet (countAll bs h).hist v = tableGet h.hist v + BitVec.ofNat 64 (bs.count v) := by
  induction bs generalizing h with
  | nil => simp [countAll]
  | cons b bs ih =>
    show tableGet (countAll bs (histCount b h)).hist v = _
    rw [ih, histCount_hist, tableGet_tableSet, List.count_cons, BitVec.ofNat_add]
    by_cases hv : b = v
    · subst hv
      rw [if_pos rfl, if_pos (beq_self_eq_true b), BitVec.add_assoc, BitVec.add_comm 1]
      rfl
    · simp [hv]

/-- A HUFF_HIST session with symbols left for some bytes to come. -/
structure CountRoom (bs : List Byte) (s : State) : Prop where
  base : BaseInv s
  session : s.session = .huffHist
  symbols : s.nsym.toNat + bs.length ≤ symMax s.params

/-- The loop of HUFF_COUNTs over bytes with room counts them all. -/
theorem forEach_huffCountBody {bs : List Byte} {s : State} (h : CountRoom bs s) :
    forEach huffCountBody bs s =
      .done { s with huf := countAll bs s.huf, nsym := s.nsym + BitVec.ofNat 64 bs.length } := by
  induction bs generalizing s with
  | nil => simp [countAll]
  | cons b bs ih =>
    obtain ⟨hbase, hn, hsymbols⟩ := h
    rw [List.length_cons] at hsymbols
    have hx : symbolsExhausted s = false := (symbolsExhausted_eq_false_iff s).mpr (by omega)
    obtain ⟨hsucc, -⟩ := nsym_succ hbase hx
    have hstep := huffCountBody_of_room hn hx b
    have hbase' := baseInv_huffCountBody b hbase
    rw [hstep] at hbase'
    have hroom : CountRoom bs { s with huf := histCount b s.huf, nsym := s.nsym + 1 } := by
      refine ⟨hbase', hn, ?_⟩
      show (s.nsym + 1).toNat + bs.length ≤ symMax s.params
      omega
    have hcount : s.nsym + 1 + BitVec.ofNat 64 bs.length = s.nsym + BitVec.ofNat 64 (bs.length + 1) := by
      rw [Nat.add_comm, BitVec.ofNat_add, BitVec.add_assoc]
      rfl
    rw [forEach_cons, hstep, andThen_done, ih hroom, List.length_cons, ← hcount]
    rfl

/-- The tables HUFF_ENCODE leaves for the bytes of IN (R234). -/
def encodeTables (p : Params) (bs : List Byte) : Huff := huffBuildTables p (countAll bs huffFresh)

/-- The state between HUFF_ENCODE's two passes. -/
def encodeBuilt (s : State) : State :=
  { s with out := packInit, huf := encodeTables s.params (inputBytes s.input), nsym := s.input.len, session := .huffEmit }

/-- Pass 1 counts the bytes of IN and builds the codes; SYM_MAX is IN_CAP, so it meets no error. -/
theorem huffEncode_pass1 {s : State} (h : BaseInv s) :
    (forEach huffCountBody (inputBytes s.input) (huffBeginBody s)).andThen huffBuildBody = .done (encodeBuilt s) := by
  obtain ⟨-, hcap⟩ := h.input
  have hroom : CountRoom (inputBytes s.input) (huffBeginBody s) := by
    refine ⟨baseInv_huffBeginBody h, rfl, ?_⟩
    show 0 + (inputBytes s.input).length ≤ symMax s.params
    rw [inputBytes_length, symMax]
    omega
  have hcount : (huffBeginBody s).nsym + BitVec.ofNat 64 (inputBytes s.input).length = s.input.len := by
    rw [inputBytes_length, BitVec.ofNat_toNat, BitVec.setWidth_eq]
    exact BitVec.zero_add _
  rw [forEach_huffCountBody hroom, hcount]
  rfl

theorem inv_encodeBuilt {s : State} (h : BaseInv s) : Inv (encodeBuilt s) := by
  have hbegin : Inv (huffBeginBody s) := ⟨baseInv_huffBeginBody h, huffInv_fresh rfl rfl⟩
  have hkept := andThen_keeps Inv _ huffBuildBody
    (forEach_keeps huffCountBody Inv partsKeep_inv.huffCount (inputBytes s.input) _ hbegin) partsKeep_inv.huffBuild
  rwa [huffEncode_pass1 h] at hkept

/-- HIST is the histogram of IN, whose length keeps the counters within their range (R234). -/
theorem encodeTables_hist {s : State} (h : BaseInv s) (v : Byte) :
    (tableGet (encodeTables s.params (inputBytes s.input)).hist v).toNat = (inputBytes s.input).count v := by
  have hcount := (inputBytes s.input).count_le_length (a := v)
  obtain ⟨-, hcap⟩ := h.legal
  obtain ⟨-, hlen⟩ := h.input
  rw [inputBytes_length] at hcount
  obtain ⟨hhist, -, -⟩ := huffBuildTables_frame s.params (countAll (inputBytes s.input) huffFresh)
  rw [encodeTables, hhist, countAll_hist, tableGet_huffFresh_hist, zero_add, BitVec.toNat_ofNat,
    Nat.mod_eq_of_lt (by omega)]

/-! ## The length of the output (R235) -/

/-- A sum over a list is that over its values, each as often as it occurs. -/
theorem sum_map_eq_sum_count {l bs : List Byte} (hl : l.Nodup) (hsub : bs ⊆ l) (f : Byte → Nat) :
    (bs.map f).sum = (l.map fun v => bs.count v * f v).sum := by
  rw [Finset.sum_list_map_count, ← List.sum_toFinset _ hl]
  refine Finset.sum_subset (fun v hv => List.mem_toFinset.mpr (hsub (List.mem_toFinset.mp hv))) fun v _ hv => ?_
  rw [List.count_eq_zero_of_not_mem fun h => hv (List.mem_toFinset.mpr h), zero_smul]

/-- The concatenated codes of some bytes take the cost of their histogram. -/
theorem flatMap_length_eq_codeCost {hist : Table Word64} {l bs : List Byte} (hl : l.Nodup) (hsub : bs ⊆ l)
    (hhist : ∀ v, (tableGet hist v).toNat = bs.count v) (c : Byte → BitString) :
    (bs.flatMap c).length = codeCost hist c l := by
  simp only [codeCost, hhist, List.length_flatMap, ← sum_map_eq_sum_count hl hsub]

theorem length_eq_occurrences {hist : Table Word64} {l bs : List Byte} (hl : l.Nodup) (hsub : bs ⊆ l)
    (hhist : ∀ v, (tableGet hist v).toNat = bs.count v) : bs.length = occurrences hist l := by
  have h := sum_map_eq_sum_count hl hsub fun _ => 1
  simpa [occurrences, hhist] using h

/-- The tables HUFF_BUILD makes cost at most 18 bits an occurrence. -/
theorem codeCost_huffBuildTables_le (p : Params) {h : Huff} (ho : OrderInv h) :
    codeCost h.hist (tableGet (huffBuildTables p h).code) (leafList p.leafOrder h) ≤
      18 * occurrences h.hist (leafList p.leafOrder h) := by
  rw [codeCost_congr fun v hv => huffBuildTables_code ho ((mem_leafList _ h ho v).mp hv)]
  exact codeCost_codesOf_le _ (nodup_leafList _ h ho) (leafList_length_le _ h)

/-- A byte of IN is present. -/
theorem encodeTables_hist_ne_zero {s : State} (h : BaseInv s) {v : Byte} (hv : v ∈ inputBytes s.input) :
    tableGet (encodeTables s.params (inputBytes s.input)).hist v ≠ 0 := by
  intro h0
  have hcount := encodeTables_hist h v
  rw [h0] at hcount
  exact List.count_eq_zero.mp hcount.symm hv

/-- ORDER after pass 1, before and after HUFF_BUILD, which leaves it (R38). -/
theorem orderInv_countAll {s : State} (h : BaseInv s) : OrderInv (countAll (inputBytes s.input) huffFresh) := by
  obtain ⟨hhist, horder, hm⟩ := huffBuildTables_frame s.params (countAll (inputBytes s.input) huffFresh)
  exact orderInv_congr hhist.symm horder.symm hm.symm (inv_encodeBuilt h).2.order

/-- The codes of IN take at most 18 bits a byte, where OUT_CAP leaves 64 (R234). -/
theorem encodeTables_length_le {s : State} (h : BaseInv s) :
    ((inputBytes s.input).flatMap (tableGet (encodeTables s.params (inputBytes s.input)).code)).length ≤
      18 * s.input.len.toNat := by
  have hhist := encodeTables_hist h
  have hpresent := fun v hv => encodeTables_hist_ne_zero h (v := v) hv
  have ho := orderInv_countAll h
  obtain ⟨hh, -, -⟩ := huffBuildTables_frame s.params (countAll (inputBytes s.input) huffFresh)
  rw [encodeTables, hh] at hhist hpresent
  have hnodup := nodup_leafList s.params.leafOrder _ ho
  have hsub : inputBytes s.input ⊆ leafList s.params.leafOrder _ := fun v hv => (mem_leafList _ _ ho v).mpr (hpresent v hv)
  rw [encodeTables, flatMap_length_eq_codeCost hnodup hsub hhist, ← inputBytes_length,
    length_eq_occurrences hnodup hsub hhist]
  exact codeCost_huffBuildTables_le s.params ho

/-! ## Pass 2 -/

theorem packBits_append (l l' : BitString) (o : OutBuf) : packBits (l ++ l') o = packBits l' (packBits l o) := by
  simp [packBits]

/-- A HUFF_EMIT session with codes and room for some bytes to come. -/
structure EmitRoom (bs : List Byte) (s : State) : Prop where
  inv : Inv s
  session : s.session = .huffEmit
  coded : ∀ b ∈ bs, tableGet s.huf.clen b ≠ 0
  bits : (s.out.bits.toNat + (bs.flatMap (tableGet s.huf.code)).length + 7) / 8 ≤ outCap s.params

/-- One HUFF_EMIT uses up the first byte's room. -/
theorem huffEmitBody_of_room {b : Byte} {bs : List Byte} {s : State} (h : EmitRoom (b :: bs) s) :
    huffEmitBody b s = .done { s with out := packBits (tableGet s.huf.code b) s.out } ∧
      EmitRoom bs { s with out := packBits (tableGet s.huf.code b) s.out } := by
  obtain ⟨hi, hn, hcoded, hroom⟩ := h
  obtain ⟨hlen, -⟩ := hi.2.code b
  rw [List.flatMap_cons, List.length_append] at hroom
  have hf : packFits s.params s.out (tableGet s.huf.clen b).toNat = true := (packFits_eq_true_iff _ _ _).mpr (by omega)
  have hstep := huffEmitBody_of_fits hi.2.code hn (hcoded b List.mem_cons_self) hf
  have hi' := partsKeep_inv.huffEmit b s hi
  rw [hstep] at hi'
  rw [← hlen] at hf
  obtain ⟨-, hbits, -⟩ := packBits_spec (tableGet s.huf.code b) s.out (packReady_of_huffEmit hi.1 hn)
    (bits_lt_of_packFits hi.1.legal hf)
  refine ⟨hstep, hi', hn, fun c hc => hcoded c (List.mem_cons_of_mem _ hc), ?_⟩
  show ((packBits _ s.out).bits.toNat + _ + 7) / 8 ≤ outCap s.params
  rw [hbits, Nat.add_assoc s.out.bits.toNat]
  exact hroom

/-- The loop of HUFF_EMITs over bytes with room writes their codes one after the other. -/
theorem forEach_huffEmitBody {bs : List Byte} {s : State} (h : EmitRoom bs s) :
    forEach huffEmitBody bs s = .done { s with out := packBits (bs.flatMap (tableGet s.huf.code)) s.out } := by
  induction bs generalizing s with
  | nil => simp
  | cons b bs ih =>
    obtain ⟨hstep, hroom⟩ := huffEmitBody_of_room h
    rw [forEach_cons, hstep, andThen_done, ih hroom, List.flatMap_cons, packBits_append]

/-- After pass 1 there are codes and room for every byte of IN (R234). -/
theorem emitRoom_encodeBuilt {s : State} (h : BaseInv s) : EmitRoom (inputBytes s.input) (encodeBuilt s) := by
  obtain ⟨-, hcap⟩ := h.input
  have hlen := encodeTables_length_le h
  have hi := inv_encodeBuilt h
  refine ⟨hi, rfl, fun b hb => (hi.2.after rfl b).mpr (encodeTables_hist_ne_zero h hb), ?_⟩
  show (0 + ((inputBytes s.input).flatMap (tableGet (encodeTables s.params (inputBytes s.input)).code)).length + 7) / 8 ≤
    outCap s.params
  rw [outCap]
  omega

/-- The output of HUFF_ENCODE: the codes of IN packed into an empty output (R234). -/
def encodeOut (p : Params) (bs : List Byte) : OutBuf := packBits (bs.flatMap (tableGet (encodeTables p bs).code)) packInit

/-- HUFF_ENCODE runs both passes without an error (R234). -/
theorem exec_huffEncode {s : State} (h : BaseInv s) :
    exec .huffEncode s = .next { s with
      out := encodeOut s.params (inputBytes s.input), huf := encodeTables s.params (inputBytes s.input),
      nsym := s.input.len, session := .huffEmit } := by
  have hbody : huffEncodeBody s = .done { encodeBuilt s with out := encodeOut s.params (inputBytes s.input) } := by
    rw [huffEncodeBody, huffEncode_pass1 h, andThen_done, forEach_huffEmitBody (emitRoom_encodeBuilt h)]
    rfl
  exact congrArg (finish 0x44#8) hbody

/-- A bit string packed into an empty output is the output's stream, and zeros follow it (R235, R236). -/
theorem packBits_packInit_spec {l : BitString} (hl : l.length < 2 ^ 63) :
    PackReady (packBits l packInit) ∧ (packBits l packInit).bits.toNat = l.length ∧
      ∀ j, outBitAt (packBits l packInit) j = l.getD j false := by
  have hzero : packInit.bits.toNat = 0 := rfl
  obtain ⟨hready, hbits, hstream⟩ := packBits_spec l packInit packReady_init (by omega)
  rw [hzero, Nat.zero_add] at hbits
  refine ⟨hready, hbits, fun j => ?_⟩
  rw [hstream j, hzero, Nat.zero_add, Nat.sub_zero]
  split
  · rfl
  · next hj =>
    rw [List.getD_eq_default _ _ (by omega)]
    exact packReady_init.clean j (Nat.zero_le j)

/-- Settles O49: the codes are packed into an empty output, and their length is the cost of IN's histogram. -/
theorem huffEncodeWritesEveryCode : Obligations.HuffEncodeWritesEveryCode := by
  unfold Obligations.HuffEncodeWritesEveryCode
  intro s h
  have hcode : CodeInv (encodeTables s.params (inputBytes s.input)) := (inv_encodeBuilt h).2.code
  have hlen := encodeTables_length_le h
  obtain ⟨hready, hbits, hstream⟩ := packBits_packInit_spec (hlen.trans_lt (by
    obtain ⟨-, hcap⟩ := h.input
    obtain ⟨-, hmax⟩ := h.legal
    omega))
  refine ⟨_, _, exec_huffEncode h, encodeTables_hist h, ?_, hready.len, hready.cursor, fun j _ => hstream j⟩
  refine hbits.trans ?_
  rw [flatMap_length_eq_codeCost nodup_allBytes (fun v _ => mem_allBytes v) (encodeTables_hist h)]
  exact congrArg List.sum (List.map_congr_left fun v _ => by rw [(hcode v).1])

/-! ## What the codes depend on (R237) -/

/-- ORDER's ranks in use, and so the leaf list, depend on HIST and, under FIRST_OCCURRENCE, on ORDER. -/
theorem leafList_congr {o : LeafOrder} {h h' : Huff} (hi : OrderInv h) (hi' : OrderInv h') (hh : h'.hist = h.hist)
    (ho : o = .firstOccurrence → h'.order = h.order) : leafList o h' = leafList o h := by
  cases o with
  | firstOccurrence =>
    obtain ⟨-, hm, -, -⟩ := hi
    obtain ⟨-, hm', -, -⟩ := hi'
    rw [leafList, leafList, ho rfl, hm, hm', presentCount, presentCount, hh]
  | ascendingValue => rw [leafList, leafList, hh]

/-- HUFF_BUILD computes with LEAF_ORDER and SINGLE_CODE alone of the parameters. -/
theorem huffBuildTables_congr {p p' : Params} (ho : p'.leafOrder = p.leafOrder) (hs : p'.singleCode = p.singleCode) :
    huffBuildTables p' = huffBuildTables p := by
  funext h
  rw [huffBuildTables, huffBuildTables, ho, hs]

/-- In HUFF_HIST no value has a code yet (R39). -/
theorem code_eq_nil_of_hist {s : State} (h : HuffInv s) (hn : s.session = .huffHist) (v : Byte) :
    tableGet s.huf.code v = [] := by
  obtain ⟨hlen, -⟩ := h.code v
  rw [h.before hn v] at hlen
  exact List.length_eq_zero_iff.mp hlen

/-- The codes a HUFF_HIST session is given are a function of the histogram, the leaf list and SINGLE_CODE. -/
theorem code_huffBuildTables {s : State} (h : HuffInv s) (hn : s.session = .huffHist) (v : Byte) :
    tableGet (huffBuildTables s.params s.huf).code v =
      if tableGet s.huf.hist v = 0 then []
      else tableGet (codesOf s.params.singleCode s.huf.hist (leafList s.params.leafOrder s.huf)) v := by
  split
  · next hv => exact (huffBuildTables_absent h.order hv).1.trans (code_eq_nil_of_hist h hn v)
  · next hv => exact huffBuildTables_code h.order hv

/-- Tables of equal codes have equal code lengths (R39). -/
theorem clen_eq_of_code_eq {h h' : Huff} (hc : CodeInv h) (hc' : CodeInv h') (heq : h'.code = h.code) :
    h'.clen = h.clen :=
  table_ext _ _ fun v => BitVec.eq_of_toNat_eq (by rw [← (hc v).1, ← (hc' v).1, heq])

/-- Equal histograms, leaf lists and SINGLE_CODEs give equal codes and lengths. -/
theorem huffBuildTables_codes_congr {s s' : State} (hi : HuffInv s) (hi' : HuffInv s') (hn : s.session = .huffHist)
    (hn' : s'.session = .huffHist) (hh : s'.huf.hist = s.huf.hist)
    (hl : leafList s'.params.leafOrder s'.huf = leafList s.params.leafOrder s.huf)
    (hs : s'.params.singleCode = s.params.singleCode) :
    (huffBuildTables s'.params s'.huf).code = (huffBuildTables s.params s.huf).code ∧
      (huffBuildTables s'.params s'.huf).clen = (huffBuildTables s.params s.huf).clen := by
  have hcode : (huffBuildTables s'.params s'.huf).code = (huffBuildTables s.params s.huf).code :=
    table_ext _ _ fun v => by rw [code_huffBuildTables hi hn, code_huffBuildTables hi' hn', hh, hl, hs]
  exact ⟨hcode, clen_eq_of_code_eq (codeInv_huffBuildTables hi.order hi.code)
    (codeInv_huffBuildTables hi'.order hi'.code) hcode⟩

/-- HUFF_ENCODE's output and tables depend on IN, LEAF_ORDER and SINGLE_CODE. -/
theorem encodeTables_congr {p p' : Params} (ho : p'.leafOrder = p.leafOrder) (hs : p'.singleCode = p.singleCode)
    (bs : List Byte) : encodeTables p' bs = encodeTables p bs := by
  rw [encodeTables, encodeTables, huffBuildTables_congr ho hs]

/-- The code length HUFF_ENCODE gives a byte of IN. -/
theorem encodeTables_clen {s : State} (h : BaseInv s) {v : Byte} (hv : v ∈ inputBytes s.input) :
    (tableGet (encodeTables s.params (inputBytes s.input)).clen v).toNat =
      (tableGet (codesOf s.params.singleCode (countAll (inputBytes s.input) huffFresh).hist
        (leafList s.params.leafOrder (countAll (inputBytes s.input) huffFresh))) v).length := by
  have hpresent := encodeTables_hist_ne_zero h hv
  obtain ⟨hh, -, -⟩ := huffBuildTables_frame s.params (countAll (inputBytes s.input) huffFresh)
  rw [encodeTables, hh] at hpresent
  have ho := orderInv_countAll h
  rw [encodeTables, huffBuildTables_clen ho hpresent, huffBuildTables_code ho hpresent]

/-- The bytes of scenario 1, "AAAABBBCCD". -/
def scenarioBytes : List Byte :=
  [0x41#8, 0x41#8, 0x41#8, 0x41#8, 0x42#8, 0x42#8, 0x42#8, 0x43#8, 0x43#8, 0x44#8]

/-- The code length of each byte of scenario 1. -/
def scenarioLengths : List (Byte × BitVec 9) := [(0x41#8, 1), (0x42#8, 2), (0x43#8, 3), (0x44#8, 3)]

/-- The code lengths of scenario 1 are the same in both leaf orders. -/
theorem scenario_codesOf_length (o : LeafOrder) (single : Bool) :
    scenarioLengths.map (fun vl => (tableGet (codesOf single (countAll scenarioBytes huffFresh).hist
      (leafList o (countAll scenarioBytes huffFresh))) vl.1).length) = scenarioLengths.map fun vl => vl.2.toNat := by
  cases o <;> cases single <;> decide +kernel

/-- HUFF_ENCODE of scenario 1 leaves its code lengths. -/
theorem encodeTables_scenario_clen {s : State} (h : BaseInv s) (hin : inputBytes s.input = scenarioBytes)
    {vl : Byte × BitVec 9} (hvl : vl ∈ scenarioLengths) :
    tableGet (encodeTables s.params (inputBytes s.input)).clen vl.1 = vl.2 := by
  have hmem : ∀ vl ∈ scenarioLengths, vl.1 ∈ scenarioBytes := by simp [scenarioLengths, scenarioBytes]
  have hclen := encodeTables_clen h (hin ▸ hmem vl hvl)
  rw [hin, List.map_inj_left.mp (scenario_codesOf_length _ _) vl hvl] at hclen
  rw [hin]
  exact BitVec.eq_of_toNat_eq hclen

/-- Settles O60: equal leaf lists give equal codes, equal bytes the same two passes, and scenario 1 is computed in both orders. -/
theorem huffEncodeDependsOnlyOnInput : Obligations.HuffEncodeDependsOnlyOnInput := by
  unfold Obligations.HuffEncodeDependsOnlyOnInput
  refine ⟨fun s s' t t' hi hi' hn hn' hh hlo ho hs ht ht' => ?_, fun s s' t t' h h' hin hlo hs ht ht' => ?_,
    fun s h hin => ?_⟩
  · have hl : leafList s'.params.leafOrder s'.huf = leafList s.params.leafOrder s.huf := by
      rw [hlo]
      exact leafList_congr hi.2.order hi'.2.order hh ho
    cases (exec_huffBuild_of_hist hn).symm.trans ht
    cases (exec_huffBuild_of_hist hn').symm.trans ht'
    exact huffBuildTables_codes_congr hi.2 hi'.2 hn hn' hh hl hs
  · have htables := encodeTables_congr hlo hs (inputBytes s.input)
    cases (exec_huffEncode h).symm.trans ht
    cases (exec_huffEncode h').symm.trans ht'
    dsimp only
    rw [hin, encodeOut, encodeOut, htables]
    exact ⟨rfl, rfl⟩
  · have hclen (vl) (hvl : vl ∈ scenarioLengths) := encodeTables_scenario_clen h hin hvl
    exact ⟨_, exec_huffEncode h, hclen (0x41#8, 1) (by decide), hclen (0x42#8, 2) (by decide),
      hclen (0x43#8, 3) (by decide), hclen (0x44#8, 3) (by decide)⟩

end Sys2Proof.Machine

/-! PROOF. Errors and lockout (60_exceptions.md R260 to R265): the words that lockout lets through, how a single command can
end, and what a step does while an error is recorded. -/

namespace Sys2Proof.Machine

/-! ## The words that lockout lets through (R264) -/

/-- The words of the three commands that run in lockout. -/
theorem word_of_runsInLockout {w : CmdWord} (h : runsInLockout (decode w) = true) :
    w = 0x0000#16 ∨ w = 0x0100#16 ∨ w = 0x0200#16 := by
  cases hd : decode w with
  | illegal why => rw [hd, runsInLockout_illegal] at h; cases h
  | command i =>
    rw [hd, runsInLockout_command] at h
    rw [← (encodeOfDecodeIsTheWord w i hd).1]
    obtain rfl | rfl | rfl := h
    · exact .inl rfl
    · exact .inr (.inl rfl)
    · exact .inr (.inr rfl)

/-- Settles O11: a word that lockout does not discard is the word of one of the three commands. -/
theorem lockoutDiscardsEveryOtherWord : Obligations.LockoutDiscardsEveryOtherWord := by
  unfold Obligations.LockoutDiscardsEveryOtherWord
  intro s w herr hnop hclr hreset
  refine acceptWord_discarded (Bool.eq_false_iff.mpr fun hruns => ?_) herr
  obtain hw | hw | hw := word_of_runsInLockout hruns
  · exact hnop hw
  · exact hclr hw
  · exact hreset hw

/-! ## While an error is recorded (R263, R265) -/

/-- The three commands that run in lockout leave STATUS or clear ERR and ERR_OP (R120 to R122). -/
theorem status_of_exec_in_lockout {i : Instr} {s t : State} (hi : i = .nop ∨ i = .clrErr ∨ i = .softReset)
    (h : exec i s = .next t) : t.status = s.status ∨ t.status.err = 0 ∧ t.status.errOp = 0 := by
  obtain rfl | rfl | rfl := hi <;> cases h
  · exact .inl rfl
  · exact .inr ⟨rfl, rfl⟩
  · exact .inr ⟨rfl, rfl⟩

/-- A word accepted in lockout is discarded or runs one of the three commands (R98, R264). -/
theorem status_of_acceptWord_in_lockout {w : CmdWord} {s t : State} (herr : s.status.err ≠ 0)
    (h : acceptWord w s = .next t) : t.status = s.status ∨ t.status.err = 0 ∧ t.status.errOp = 0 := by
  cases hruns : runsInLockout (decode w) with
  | false => cases (acceptWord_discarded hruns herr).symm.trans h; exact .inl rfl
  | true =>
    cases hd : decode w with
    | illegal why => rw [hd, runsInLockout_illegal] at hruns; cases hruns
    | command i =>
      rw [hd, runsInLockout_command] at hruns
      rw [acceptWord_command hd (.inr hruns)] at h
      exact status_of_exec_in_lockout hruns h

/-- A step without an event changes nothing (log 4). -/
theorem step_idle {s : State} (h : s.host.pending = []) : step s = .next s := by
  rw [step, hostTurn, h]

/-- A step at the host's reset (R290). -/
theorem step_reset {s : State} {rest : List HostEvent} (h : s.host.pending = .reset :: rest) :
    step s = .next (resetBlock (takeEvent rest s)) := by
  rw [step, hostTurn, h]

/-- Settles O53: a word keeps or clears the record, a read and an idle step leave it, a reset clears it. -/
theorem firstErrorIsKept : Obligations.FirstErrorIsKept := by
  unfold Obligations.FirstErrorIsKept
  intro s t herr h
  cases hp : s.host.pending with
  | nil => cases (step_idle hp).symm.trans h; exact .inl rfl
  | cons e rest =>
    cases e with
    | word w => rw [step_word hp] at h; exact status_of_acceptWord_in_lockout (s := takeEvent rest s) herr h
    | read a => cases (step_read hp).symm.trans h; exact .inl rfl
    | reset => cases (step_reset hp).symm.trans h; exact .inr ⟨rfl, rfl⟩

/-! ## How a single command ends (R262) -/

/-- A body that leaves ERR as it was when it completes, and the whole state as it was when it raises. -/
def CmdResult.Precise (s : State) : CmdResult → Prop
  | .done t => t.status.err = s.status.err
  | .raised _ u => u = s

theorem precise_inPushBody (b : Byte) (s : State) : (inPushBody b s).Precise s := by
  obtain ⟨_, e⟩ | ⟨_, e⟩ := inPushBody_cases b s <;> rw [e] <;> rfl

theorem precise_sinkWriteBody (x : Byte) (s : State) : (sinkWriteBody x s).Precise s := by
  obtain ⟨_, e⟩ | ⟨_, _, e⟩ | ⟨_, _, e⟩ := sinkWriteBody_cases x s <;> rw [e] <;> rfl

theorem precise_univStepBody (b : Byte) (s : State) : (univStepBody b s).Precise s := by
  obtain ⟨_, e⟩ | ⟨_, _, e⟩ | ⟨_, _, _, e⟩ | ⟨_, _, _, e⟩ := univStepBody_cases b s <;> rw [e] <;> rfl

theorem precise_arithBeginBody (s : State) : (arithBeginBody s).Precise s := by
  obtain ⟨_, e⟩ | ⟨_, e⟩ := arithBeginBody_cases s <;> rw [e] <;> rfl

theorem precise_arithStepBody (b : Byte) (s : State) : (arithStepBody b s).Precise s := by
  obtain ⟨_, e⟩ | ⟨_, _, e⟩ | ⟨_, _, _, e⟩ | ⟨_, _, _, e⟩ := arithStepBody_cases b s <;> rw [e] <;> rfl

theorem precise_huffCountBody (b : Byte) (s : State) : (huffCountBody b s).Precise s := by
  obtain ⟨_, e⟩ | ⟨_, _, e⟩ | ⟨_, _, e⟩ := huffCountBody_cases b s <;> rw [e] <;> rfl

theorem precise_huffBuildBody (s : State) : (huffBuildBody s).Precise s := by
  obtain ⟨_, e⟩ | ⟨_, e⟩ := huffBuildBody_cases s <;> rw [e] <;> rfl

theorem precise_huffEmitBody (b : Byte) (s : State) : (huffEmitBody b s).Precise s := by
  obtain ⟨_, e⟩ | ⟨_, _, e⟩ | ⟨_, _, _, e⟩ | ⟨_, _, _, e⟩ := huffEmitBody_cases b s <;> rw [e] <;> rfl

/-- How a single command can end: with ERR as it was, with ERR cleared, with an error's record alone, or with ARITH_CONFIG's CONFIG
(R262, R121, R181). -/
inductive SingleEnd (i : Instr) (s : State) : State → Prop
  | quiet {t : State} (herr : t.status.err = s.status.err) : SingleEnd i s t
  | cleared {t : State} (herr : t.status.err = 0) : SingleEnd i s t
  | recorded (c : ErrCode) : SingleEnd i s (raiseError c i.opc s)
  | unconfigured {w : Byte} (hi : i = .arithConfig w) : SingleEnd i s (raiseError .config i.opc { s with arithW := 0 })

/-- A precise body's command completes or adds the record alone. -/
theorem SingleEnd.of_precise {i : Instr} {s t : State} {r : CmdResult} (hr : r.Precise s) (h : finish i.opc r = .next t) :
    SingleEnd i s t := by
  obtain rfl | ⟨c, u, rfl, rfl⟩ := finish_cases _ _ _ h
  · exact .quiet hr
  · cases (hr : u = s); exact .recorded c

/-- ARITH_CONFIG (R181). -/
theorem singleEnd_arithConfig {w : Byte} {s t : State} (h : exec (.arithConfig w) s = .next t) :
    SingleEnd (.arithConfig w) s t := by
  obtain ⟨hn, _⟩ | ⟨hn, hw, _⟩ | ⟨hn, hlo, hhi, _⟩ := arithConfigBody_cases w s
  · cases (exec_arithConfig_of_arith hn w).symm.trans h; exact .recorded _
  · cases (exec_arithConfig_of_illegal hn hw).symm.trans h; exact .unconfigured rfl
  · cases (exec_arithConfig_of_legal hn hlo hhi).symm.trans h; exact .quiet rfl

/-- Every command but the composites ends in one of these ways. -/
theorem exec_singleEnd {i : Instr} {s t : State} (hi : composite i = false) (h : exec i s = .next t) : SingleEnd i s t := by
  cases i with
  | nop | inClear | sinkInit | univBegin | huffBegin => cases h; exact .quiet rfl
  | clrErr | softReset => cases h; exact .cleared rfl
  | inPush b => exact .of_precise (precise_inPushBody b s) h
  | sinkWrite x => exact .of_precise (precise_sinkWriteBody x s) h
  | univStep b => exact .of_precise (precise_univStepBody b s) h
  | arithConfig w => exact singleEnd_arithConfig h
  | arithBegin => exact .of_precise (precise_arithBeginBody s) h
  | arithStep b => exact .of_precise (precise_arithStepBody b s) h
  | huffCount b => exact .of_precise (precise_huffCountBody b s) h
  | huffBuild => exact .of_precise (precise_huffBuildBody s) h
  | huffEmit b => exact .of_precise (precise_huffEmitBody b s) h
  | univEncode | arithEncode | huffEncode => cases hi

/-- Settles O52: the ends that leave an error where none was are the record alone and ARITH_CONFIG's CONFIG. -/
theorem errorsArePrecise : Obligations.ErrorsArePrecise := by
  unfold Obligations.ErrorsArePrecise
  intro i s t hi herr h hne
  cases exec_singleEnd hi h with
  | quiet he => exact absurd (he.trans herr) hne
  | cleared he => exact absurd he hne
  | recorded c => exact ⟨rfl, fun hw => absurd rfl hw⟩
  | unconfigured hi => exact ⟨rfl, fun _ => ⟨rfl, rfl, _, hi⟩⟩

end Sys2Proof.Machine

/-! PROOF. Valid use (60_exceptions.md R274, 70_reset_and_hazards.md R293): every command of it runs without an error and
leaves the rest of the sequence valid. -/

namespace Sys2Proof.Machine

/-- The commands are valid use from this state on (R274). -/
def ValidFrom (l : List Instr) (s : State) : Prop :=
  validUse s.params.inCap s.input.len.toNat (decide (s.arithW ≠ 0)) (decide (s.session = .arith)) l = true

/-- `i` runs from `s` to `t` without touching ERR, loads and configures as the rules say, and `is` is valid use from there. -/
structure ValidStep (i : Instr) (is : List Instr) (s t : State) : Prop where
  runs : exec i s = .next t
  err : t.status.err = s.status.err
  input : inputBytes t.input = loadedBytes (inputBytes s.input) i
  width : t.arithW = configuredWidth s.arithW i
  rest : ValidFrom is t

/-- The bytes of IN after one more is written at IN_LEN (R60, R124). -/
theorem inputBytes_write {m : Memory} {n : Word64} (b : Byte) (hm : m.wf) (hn : n.toNat + 1 < 2 ^ 64) :
    inputBytes ⟨m.write n.toNat b, n + 1⟩ = inputBytes ⟨m, n⟩ ++ [b] := by
  have hold : ∀ a ∈ List.range n.toNat, (m.write n.toNat b).read a = m.read a := fun a ha =>
    Memory.read_write_other m _ b a hm (List.mem_range.mp ha).ne'
  simp only [inputBytes, bits_succ n hn, List.range_succ, List.map_append, List.map_cons, List.map_nil,
    Memory.read_write_same m _ b hm, List.map_congr_left hold]

section
variable {is : List Instr} {s : State}

/-- IN_PUSH with room for its byte. -/
theorem exists_validStep_inPush {b : Byte} (h : BaseInv s) (hv : ValidFrom (.inPush b :: is) s) :
    ∃ t, ValidStep (.inPush b) is s t := by
  obtain ⟨hroom, hrest⟩ := Bool.and_eq_true_iff.mp hv
  have hlt := of_decide_eq_true hroom
  have hcap := h.legal.2
  have hn : s.input.len.toNat + 1 < 2 ^ 64 := by omega
  refine ⟨_, exec_inPush_of_ne hlt.ne b, rfl, inputBytes_write b h.input.1 hn, rfl, ?_⟩
  rwa [ValidFrom, bits_succ _ hn]

/-- ARITH_CONFIG of a legal width outside ARITH sessions; the width it leaves is not 0. -/
theorem exists_validStep_arithConfig {w : Byte} (hv : ValidFrom (.arithConfig w :: is) s) :
    ∃ t, ValidStep (.arithConfig w) is s t := by
  simp only [ValidFrom, validUse, Bool.and_eq_true, Bool.not_eq_true', decide_eq_true_eq, decide_eq_false_iff_not] at hv
  obtain ⟨⟨⟨hn, hlo⟩, hhi⟩, hrest⟩ := hv
  have hw : w ≠ 0#8 := by rintro rfl; exact absurd hlo (by decide)
  refine ⟨_, exec_arithConfig_of_legal hn hlo hhi, rfl, rfl, rfl, ?_⟩
  simpa [ValidFrom, hw, hn] using hrest

/-- ARITH_ENCODE with a width configured; it stays configured. -/
theorem exists_validStep_arithEncode (h : BaseInv s) (hv : ValidFrom (.arithEncode :: is) s) :
    ∃ t, ValidStep .arithEncode is s t := by
  obtain ⟨hw, hrest⟩ := Bool.and_eq_true_iff.mp hv
  exact ⟨_, exec_arithEncode h (of_decide_eq_true hw), rfl, rfl, rfl, hrest⟩

/-- Every command of valid use runs without an error and leaves valid use. -/
theorem exists_validStep {i : Instr} (h : BaseInv s) (hv : ValidFrom (i :: is) s) : ∃ t, ValidStep i is s t := by
  cases i with
  | inClear => exact ⟨_, exec_inClear s, rfl, rfl, rfl, hv⟩
  | inPush b => exact exists_validStep_inPush h hv
  | arithConfig w => exact exists_validStep_arithConfig hv
  | univEncode => exact ⟨_, exec_univEncode h, rfl, rfl, rfl, hv⟩
  | huffEncode => exact ⟨_, exec_huffEncode h, rfl, rfl, rfl, hv⟩
  | arithEncode => exact exists_validStep_arithEncode h hv
  | nop | clrErr | softReset | sinkInit | sinkWrite | univBegin | univStep | arithBegin | arithStep | huffBegin | huffCount
    | huffBuild | huffEmit => cases (hv : false = true)

end

/-- Valid use runs to its end without touching ERR; IN and ARITH_W are what its loads and configurations leave. -/
theorem runCommands_of_validFrom {l : List Instr} {s : State} (h : BaseInv s) (hv : ValidFrom l s) :
    ∃ t, runCommands l s = .next t ∧ t.status.err = s.status.err ∧
      inputBytes t.input = l.foldl loadedBytes (inputBytes s.input) ∧ t.arithW = l.foldl configuredWidth s.arithW := by
  induction l generalizing s with
  | nil => exact ⟨s, rfl, rfl, rfl, rfl⟩
  | cons i is ih =>
    obtain ⟨u, hruns, herr, hinput, hwidth, hrest⟩ := exists_validStep h hv
    obtain ⟨t, hrun, herr', hinput', hwidth'⟩ := ih (exec_keeps BaseInv partsKeep_baseInv i s u h hruns) hrest
    rw [hinput] at hinput'
    rw [hwidth] at hwidth'
    exact ⟨t, (runCommands_cons_of_next hruns is).trans hrun, herr'.trans herr, hinput', hwidth'⟩

/-- Settles O59: by induction on the commands, each of which keeps the invariant and leaves the rest valid. -/
theorem validUseRaisesNoError : Obligations.ValidUseRaisesNoError := by
  unfold Obligations.ValidUseRaisesNoError
  intro s l h herr hv
  obtain ⟨t, hrun, herr', hinput, hwidth⟩ := runCommands_of_validFrom h hv
  exact ⟨t, hrun, herr'.trans herr, hinput, hwidth⟩

end Sys2Proof.Machine

/-! PROOF. The reset input (70_reset_and_hazards.md R290, R291): a step at it has SOFT_RESET's effect. -/

namespace Sys2Proof.Machine

/-- Settles O14: the step is `resetBlock` after the event is taken, which is SOFT_RESET's own effect. -/
theorem resetInputEqualsSoftReset : Obligations.ResetInputEqualsSoftReset := by
  unfold Obligations.ResetInputEqualsSoftReset
  intro s rest h
  have hreset : resetBlock (takeEvent rest s) = State.initial s.params ⟨rest, s.host.replies⟩ := rfl
  exact ⟨(step_reset h).trans (congrArg _ hreset), (step_reset h).trans (exec_softReset _).symm⟩

end Sys2Proof.Machine
